-- ==== Sys2Proof/Word.lean ====
section
/-! DEFINITION. The values the block works on: words, bytes, BitBuffers, TAP state names, the operands
and commands the host submits, and what passes on the pins. Types only; every operation on them that a
test could show wrong stands in Decode.lean or under Machine/. -/

namespace Sys2Proof

/-- An 8-bit byte of a byte-carried command or of a marshalled BitBuffer (30_encoding.md R61). -/
abbrev Byte := BitVec 8

/-- A 32-bit header, WORD operand or register-map word (00_scope.md R8, 20_memory.md R46). -/
abbrev Word := BitVec 32

/-- A BitBuffer `(n, v)` with `v < 2^n`, bit 0 first on the wire (00_scope.md R10, 40_bitbuffer.md R74).
The invariant of R74 is part of the data, so no BitBuffer with bits at or above its length exists. -/
structure BitBuffer where
  len : Nat
  val : Nat
  lt : val < 2 ^ len
deriving DecidableEq, Repr

/-- `empty = (0, 0)` (00_scope.md R10). -/
def BitBuffer.empty : BitBuffer := ⟨0, 0, by decide⟩

/-- The 16 canonical TAP states under the source's names, in the source's order (10_state.md R16).
`UNKNOWN` is no state of this type: it is TAPV = 0, `none` in `Option TapState` (R15). -/
inductive TapState where
  | reset | idle | drselect | drcapture | drshift | drexit1 | drpause | drexit2 | drupdate
  | irselect | ircapture | irshift | irexit1 | irpause | irexit2 | irupdate
deriving DecidableEq, Repr

/-- The register path a data shift goes through (41_tap.md R103). -/
inductive ScanReg where
  | ir | dr
deriving DecidableEq, Repr

/-- A payload operand: a 32-bit WORD or a BitBuffer BUF (30_encoding.md R61). -/
inductive Operand where
  | word (w : Word)
  | buf (b : BitBuffer)
deriving DecidableEq, Repr

/-- A command: one header word and the ordered list of its operands (30_encoding.md R59). -/
structure Command where
  header : Word
  payload : List Operand
deriving DecidableEq, Repr

/-- One TCK cycle the block asks for: the levels of TMS and TDI, and whether TDO is sampled
(41_tap.md R100). -/
structure CycleReq where
  tms : Bool
  tdi : Bool
  sample : Bool
deriving DecidableEq, Repr

/-- The environment's answer to one cycle: a TDO bit or a transport failure (41_tap.md R100). -/
inductive EnvAnswer where
  | ok (tdo : Bool)
  | fail
deriving DecidableEq, Repr, Inhabited

/-- A pin event of TRACE (10_state.md R35). -/
inductive PinEvent where
  /-- one TCK cycle: the levels driven, whether TDO was sampled, the sampled bit (absent when not) -/
  | clk (tms tdi sampled : Bool) (tdo : Option Bool)
  /-- a cycle the transport reported as failed -/
  | xfail (tms tdi : Bool)
  /-- the nTRST line changed -/
  | trst (asserted : Bool)
  /-- a RUNTEST wait of `count` TCK periods without TCK cycles -/
  | dwell (count : Nat)
deriving DecidableEq, Repr

end Sys2Proof
end

