-- ==== Sys2Proof/Machine/BitBuf.lean ====
section
/-! DEFINITION. The BitBuffer operations of 40_bitbuffer.md that no input makes fault, and the serial view of a
buffer (20_memory.md R42, R43). The two operations that fault on misuse stand in Machine/Ops.lean. -/

namespace Sys2Proof

/-- The buffer of `n` bits holding `v` modulo `2^n`: the masking of "every mutation" (40_bitbuffer.md R74). -/
def BitBuffer.ofNat (n v : Nat) : BitBuffer := ⟨n, v % 2 ^ n, Nat.mod_lt _ (Nat.two_pow_pos n)⟩

/-- `B[i]` (00_scope.md R10). -/
def BitBuffer.bit (b : BitBuffer) (i : Nat) : Bool := b.val.testBit i

/-- The bits in wire order, bit 0 first (20_memory.md R42). -/
def BitBuffer.bits (b : BitBuffer) : List Bool := (List.range b.len).map b.bit

/-- The number whose bit i is the i-th of the list. -/
def bitsValue : List Bool → Nat
  | [] => 0
  | b :: bs => b.toNat + 2 * bitsValue bs

/-- The buffer whose bit i is the i-th bit received (20_memory.md R43). -/
def BitBuffer.ofBits (bs : List Bool) : BitBuffer := BitBuffer.ofNat bs.length (bitsValue bs)

/-- `popcount(v)` (00_scope.md R9), over the buffer's own length. -/
def BitBuffer.popcount (b : BitBuffer) : Nat := b.bits.count true

/-- `clear()` (40_bitbuffer.md R76). -/
def BitBuffer.clear (_ : BitBuffer) : BitBuffer := BitBuffer.empty

/-- `zeroes(n)` (40_bitbuffer.md R77). -/
def BitBuffer.zeroes (n : Nat) : BitBuffer := BitBuffer.ofNat n 0

/-- `ones(n)` (40_bitbuffer.md R78). -/
def BitBuffer.ones (n : Nat) : BitBuffer := BitBuffer.ofNat n (2 ^ n - 1)

/-- `append(A)` on B, that is `B ++ A`: A becomes the new least-significant part (40_bitbuffer.md R79). -/
def BitBuffer.append (b a : BitBuffer) : BitBuffer :=
  BitBuffer.ofNat (b.len + a.len) ((b.val <<< a.len) ||| a.val)

/-- `append_value(n, v)` (40_bitbuffer.md R80). -/
def BitBuffer.appendValue (b : BitBuffer) (n v : Nat) : BitBuffer := b.append (BitBuffer.ofNat n v)

/-- `append_ones(n)` (40_bitbuffer.md R81). -/
def BitBuffer.appendOnes (b : BitBuffer) (n : Nat) : BitBuffer := b.append (BitBuffer.ones n)

/-- `append_zeroes(n)` (40_bitbuffer.md R82). -/
def BitBuffer.appendZeroes (b : BitBuffer) (n : Nat) : BitBuffer := b.append (BitBuffer.zeroes n)

/-- `shift_register_in(bit)` (40_bitbuffer.md R84). Captures do not use it (20_memory.md R43). -/
def BitBuffer.shiftIn (b : BitBuffer) (bit : Bool) : BitBuffer :=
  BitBuffer.ofNat (b.len + 1) ((b.val <<< 1) ||| bit.toNat)

/-- `drop_lsb(k)` (40_bitbuffer.md R85). -/
def BitBuffer.dropLsb (b : BitBuffer) (k : Nat) : BitBuffer :=
  if b.len ≤ k then BitBuffer.empty else BitBuffer.ofNat (b.len - k) (b.val >>> k)

/-- `drop_msb(k)` (40_bitbuffer.md R86). -/
def BitBuffer.dropMsb (b : BitBuffer) (k : Nat) : BitBuffer :=
  if b.len ≤ k then BitBuffer.empty else BitBuffer.ofNat (b.len - k) (b.val % 2 ^ (b.len - k))

/-- The fields of `scan`, from the bit index `hi` down, most significant first (40_bitbuffer.md R87). -/
def fieldsFrom (v : Nat) : (hi : Nat) → List Nat → List BitBuffer
  | _, [] => []
  | hi, w :: ws => BitBuffer.ofNat w (v >>> (hi - w)) :: fieldsFrom v (hi - w) ws

/-- `eq(A, B)`: equal lengths and equal values (40_bitbuffer.md R88). -/
def BitBuffer.eq (a b : BitBuffer) : Bool := a.len == b.len && a.val == b.val

/-- `masked_eq(A, B, M)`, on values only (40_bitbuffer.md R88). -/
def BitBuffer.maskedEq (a b m : BitBuffer) : Bool := (a.val &&& m.val) == (b.val &&& m.val)

/-- How many bytes `as_bytes` gives for `n` bits: `ceil(n / 8)` (40_bitbuffer.md R89). -/
def byteCount (n : Nat) : Nat := (n + 7) / 8

/-- `as_bytes()`: byte j is `v[8j+7 : 8j]` (40_bitbuffer.md R89). -/
def BitBuffer.asBytes (b : BitBuffer) : List Byte :=
  (List.range (byteCount b.len)).map fun j => BitVec.ofNat 8 (b.val >>> (8 * j))

/-- The little-endian value of a byte list: the sum of `b_j * 2^(8j)` (40_bitbuffer.md R90). -/
def bytesValue : List Byte → Nat
  | [] => 0
  | b :: bs => b.toNat + 2 ^ 8 * bytesValue bs

/-- `from_bytes(n, bytes)`: missing bytes count as 0, bytes past bit n are dropped (40_bitbuffer.md R90). -/
def BitBuffer.fromBytes (n : Nat) (bs : List Byte) : BitBuffer := BitBuffer.ofNat n (bytesValue bs)

end Sys2Proof
end

