-- ==== Sys2Proof/Config.lean ====
section
/-! DEFINITION. The parameters of the block (00_scope.md R8, 93_implementation_defined.md section 3) and the
free values: constants with no body, so that nothing can be proved of what they are. -/

namespace Sys2Proof

/-- One entry of `DEVICE_TABLE` (92_eei_decisions.md D22). -/
structure DeviceEntry where
  idcode : Word
  mask : Word
  name : String
  irLength : Nat
deriving DecidableEq, Repr

/-- `NO_MASK_POLICY`: what a TDO check with no MASK and no sticky mask does (00_scope.md R8, D30). -/
inductive NoMaskPolicy where
  | error | allOnes
deriving DecidableEq, Repr

/-- A positive duration in seconds as a fraction. DESIGN CHOICE (log 14, safe): the spec says a positive
real, which plain data cannot hold; no rule of the model reads a duration. -/
structure Duration where
  num : Nat
  den : Nat
deriving DecidableEq, Repr

/-- The parameters a model takes as arguments (00_scope.md R8). They are not state (10_state.md R14):
no command and no block reset writes them. -/
structure Params where
  /-- `FLUSH_SIZE` (F), a natural number at least 1 -/
  flushSize : Nat
  flushSize_pos : 0 < flushSize
  /-- `TDI_IDLE`, the TDI level of a TMS-only cycle -/
  tdiIdle : Bool
  /-- `HAS_TRST` -/
  hasTrst : Bool
  /-- `DEVICE_TABLE`, first match wins -/
  deviceTable : List DeviceEntry
  /-- `NO_MASK_POLICY` -/
  noMaskPolicy : NoMaskPolicy
  /-- `RUNTEST_CLOCKS` -/
  runtestClocks : Bool
  /-- `DEFAULT_TCK_HALF_PERIOD`, timing only -/
  defaultHalfPeriod : Duration
deriving DecidableEq, Repr

/-- Free value (log 3): the environment's answer to the `draw`-th attempted cycle since power-on, when no
answer is lined up in State. It may depend on all `ENV(TRACE, tms, tdi, sample)` names (41_tap.md R100). -/
opaque Config.envAnswer : (draw : Nat) → (trace : List PinEvent) → CycleReq → EnvAnswer

/-- OPEN parameter (log 4): `FLUSH_SIZE` less one, so that `FLUSH_SIZE` is at least 1. -/
opaque Config.flushSizePred : Nat

/-- OPEN parameter (log 4): `HAS_TRST`. -/
opaque Config.hasTrst : Bool

/-- OPEN parameter (log 4): `DEVICE_TABLE`. -/
opaque Config.deviceTable : List DeviceEntry

/-- OPEN parameter (log 4): `DEFAULT_TCK_HALF_PERIOD` is `(halfPeriodNumPred + 1) / (halfPeriodDenPred + 1)`
seconds, a positive number. -/
opaque Config.halfPeriodNumPred : Nat

/-- See `Config.halfPeriodNumPred`. -/
opaque Config.halfPeriodDenPred : Nat

/-- Free value (log 9): the 16-bit TABIDX of a match at a table index that 16 bits cannot hold. -/
opaque Config.wideTabIdx : (index : Nat) → BitVec 16

/-- Free value (log 10): the 32-bit word the host reads of a natural that 32 bits cannot hold and of which
no rule says "low 32 bits". -/
opaque Config.wideWord : (value : Nat) → Word

/-- Free value (log 15): the level of TMS between cycles, after `draws` attempted cycles. -/
opaque Config.idleTms : (draws : Nat) → Bool

/-- Free value (log 15): the level of TDI between cycles, after `draws` attempted cycles. -/
opaque Config.idleTdi : (draws : Nat) → Bool

/-- The parameters of the machine at power-on: the defaults where R8 gives one, an opaque constant where R8
says OPEN (log 4). -/
def Config.params : Params where
  flushSize := Config.flushSizePred + 1
  flushSize_pos := Nat.succ_pos _
  tdiIdle := true
  hasTrst := Config.hasTrst
  deviceTable := Config.deviceTable
  noMaskPolicy := .error
  runtestClocks := false
  defaultHalfPeriod := ⟨Config.halfPeriodNumPred + 1, Config.halfPeriodDenPred + 1⟩

end Sys2Proof
end

