-- ==== Sys2Proof/Machine/State.lean ====
section
/-! DEFINITION. The state of the block (10_state.md), the reasons it can stop, and the state after the block
reset (10_state.md R39). -/

namespace Sys2Proof.Machine

/-- An error: its kind and subcode (60_exceptions.md R148). -/
inductive ErrorCode where
  | flushNone | flushMulti | noDevices
  | unknownCommand | reservedField | badState | unsupportedHeader | noStickyMask | zeroLength
  | lengthMismatch | badValue | badPayload | stateUnknown | noChain | badDevice
  | tdoMismatch
  | cycleFail
deriving DecidableEq, Repr

/-- An entry of ERRLOG: the SEQ of the command that recorded it, and the error (60_exceptions.md R149). The
numeric kind and subcode are views of the error (Machine/Errors.lean). -/
structure ErrRec where
  seq : Nat
  err : ErrorCode
deriving DecidableEq, Repr

/-- A device record `DEV[k]` (10_state.md R26). -/
structure DevRec where
  idcode : Word
  known : Bool
  tabidx : BitVec 16
  irlen : Nat
  inferred : Bool
deriving DecidableEq, Repr

/-- What the host puts to the block between commands: a complete command (20_memory.md R40) or the block
reset (70_reset_and_hazards.md R160). -/
inductive HostInput where
  | command (c : Command)
  | blockReset
deriving DecidableEq, Repr

/-- The state of the block, its parameters, and what the two outside agents have lined up for it. -/
structure State where
  /-- TAPV and TAP, the tracked TAP state; `none` is TAPV = 0, UNKNOWN (10_state.md R15) -/
  tap : Option TapState
  /-- ENDIR (10_state.md R18) -/
  endir : TapState
  /-- ENDDR (10_state.md R19) -/
  enddr : TapState
  /-- MASKV and MASKBUF, the sticky mask; `none` is MASKV = 0 (10_state.md R20) -/
  mask : Option BitBuffer
  /-- FREQ, in Hz (10_state.md R21) -/
  freq : Word
  /-- TRST, 1 when asserted (10_state.md R22) -/
  trst : Bool
  /-- STRICT (10_state.md R23) -/
  strict : Bool
  /-- ABORTED (10_state.md R24) -/
  aborted : Bool
  /-- CHAINV (10_state.md R25) -/
  chainv : Bool
  /-- NDEV (10_state.md R25) -/
  ndev : Nat
  /-- IRTOTAL (10_state.md R25) -/
  irtotal : Nat
  /-- IRMISMATCH (10_state.md R25, R29) -/
  irmismatch : Bool
  /-- DEV[0], DEV[1], ... (10_state.md R26) -/
  dev : List DevRec
  /-- CAPBUF (10_state.md R30) -/
  capbuf : BitBuffer
  /-- RDBUF (10_state.md R31) -/
  rdbuf : BitBuffer
  /-- SEQ (10_state.md R32) -/
  seq : Nat
  /-- ERRLOG, oldest first (10_state.md R33) -/
  errlog : List ErrRec
  /-- TRACE, oldest first (10_state.md R35) -/
  trace : List PinEvent
  /-- the parameters (00_scope.md R8): fixed for the machine, written by nothing (log 4) -/
  params : Params
  /-- the model's own: inputs submitted and not yet consumed, oldest first (log 1) -/
  inputs : List HostInput
  /-- the model's own: the environment's answers to the coming cycles, oldest first (log 3) -/
  env : List EnvAnswer
  /-- the model's own: cycles attempted since power-on, the counter of the free answer (log 3) -/
  draws : Nat
deriving DecidableEq, Repr

/-- The model faults of 60_exceptions.md R157. Both are faults of a BitBuffer operation called outside its
domain. No command reaches one, so `step` never answers a fault. -/
inductive Fault where
  /-- raised by `BitBuffer.shiftOut` on an empty buffer (40_bitbuffer.md R83); safe: a stop -/
  | emptyShiftOut
  /-- raised by `BitBuffer.scan` when the widths do not sum to the length (40_bitbuffer.md R87); safe: a stop -/
  | badFieldWidths
deriving DecidableEq, Repr

/-- Why the model gives an instruction no meaning. -/
inductive Refusal where
  /-- raised by exec's arm of an instruction that has no meaning yet; safe: a stop. No arm is of this kind. -/
  | notModelled (mnemonic : String)
deriving DecidableEq, Repr

/-- The block after power-on and the block reset (10_state.md R39): every field at its R39 value; the
parameters of Config; no input submitted, no answer lined up, no cycle driven (log 1, log 3, log 4). -/
def State.reset : State where
  tap := none
  endir := .idle
  enddr := .idle
  mask := none
  freq := 0
  trst := false
  strict := false
  aborted := false
  chainv := false
  ndev := 0
  irtotal := 0
  irmismatch := false
  dev := []
  capbuf := BitBuffer.empty
  rdbuf := BitBuffer.empty
  seq := 0
  errlog := []
  trace := []
  params := Config.params
  inputs := []
  env := []
  draws := 0

end Sys2Proof.Machine
end

