-- ==== Sys2Proof/Machine/Errors.lean ====
section
/-! DEFINITION. Error kinds, codes and policy (60_exceptions.md R147, R148, R153). -/

namespace Sys2Proof.Machine

/-- The four kinds and their codes (60_exceptions.md R147). -/
def kindProtocol : Nat := 1
def kindFormat : Nat := 2
def kindVerify : Nat := 3
def kindTransport : Nat := 4

/-- Kind code of an error (60_exceptions.md R147, R148). -/
def ErrorCode.kind : ErrorCode → Nat
  | .flushNone | .flushMulti | .noDevices => kindProtocol
  | .unknownCommand | .reservedField | .badState | .unsupportedHeader | .noStickyMask | .zeroLength
  | .lengthMismatch | .badValue | .badPayload | .stateUnknown | .noChain | .badDevice => kindFormat
  | .tdoMismatch => kindVerify
  | .cycleFail => kindTransport

/-- Subcode of an error within its kind (60_exceptions.md R148). -/
def ErrorCode.sub : ErrorCode → Nat
  | .flushNone => 1
  | .flushMulti => 2
  | .noDevices => 3
  | .unknownCommand => 1
  | .reservedField => 2
  | .badState => 3
  | .unsupportedHeader => 4
  | .noStickyMask => 5
  | .zeroLength => 6
  | .lengthMismatch => 7
  | .badValue => 8
  | .badPayload => 9
  | .stateUnknown => 10
  | .noChain => 11
  | .badDevice => 12
  | .tdoMismatch => 1
  | .cycleFail => 1

/-- The record as `(seq, kind, sub)` (60_exceptions.md R149). -/
def ErrRec.codes (r : ErrRec) : Nat × Nat × Nat := (r.seq, r.err.kind, r.err.sub)

/-- The error aborts playback under either policy (60_exceptions.md R153). -/
def ErrorCode.fatal (e : ErrorCode) : Bool := e.kind == kindTransport || e == .noStickyMask

end Sys2Proof.Machine
end

