-- ==== Sys2Proof/Machine/TapFsm.lean ====
section
/-! DEFINITION. The TAP state machine: state codes, NEXT, WALK, the reset sequences and the transition ROM
(10_state.md R16, 41_tap.md R93 to R97), and which states are stable (44_svf_control.md R137). A TMS
sequence is a list of bits in clock order (41_tap.md R94). -/

namespace Sys2Proof

/-- TapState codes (10_state.md R16). -/
def TapState.codeNat : TapState → Nat
  | .reset => 0
  | .idle => 1
  | .drselect => 2
  | .drcapture => 3
  | .drshift => 4
  | .drexit1 => 5
  | .drpause => 6
  | .drexit2 => 7
  | .drupdate => 8
  | .irselect => 9
  | .ircapture => 10
  | .irshift => 11
  | .irexit1 => 12
  | .irpause => 13
  | .irexit2 => 14
  | .irupdate => 15

/-- The code as the 4-bit field it is encoded in (30_encoding.md R60). -/
def TapState.code (t : TapState) : BitVec 4 := BitVec.ofNat 4 t.codeNat

/-- All 16 codes name a state (30_encoding.md R64). -/
def TapState.ofCodeNat : Nat → TapState
  | 0 => .reset
  | 1 => .idle
  | 2 => .drselect
  | 3 => .drcapture
  | 4 => .drshift
  | 5 => .drexit1
  | 6 => .drpause
  | 7 => .drexit2
  | 8 => .drupdate
  | 9 => .irselect
  | 10 => .ircapture
  | 11 => .irshift
  | 12 => .irexit1
  | 13 => .irpause
  | 14 => .irexit2
  | _ => .irupdate

/-- The state a 4-bit ST field names (30_encoding.md R64). -/
def TapState.ofCode (c : BitVec 4) : TapState := TapState.ofCodeNat c.toNat

/-- `NEXT(s, tms)` (41_tap.md R93). PRESUMED by the spec itself (93 K6, log 7): the IEEE 1149.1 table. -/
def next : TapState → Bool → TapState
  | .reset, false => .idle
  | .reset, true => .reset
  | .idle, false => .idle
  | .idle, true => .drselect
  | .drselect, false => .drcapture
  | .drselect, true => .irselect
  | .drcapture, false => .drshift
  | .drcapture, true => .drexit1
  | .drshift, false => .drshift
  | .drshift, true => .drexit1
  | .drexit1, false => .drpause
  | .drexit1, true => .drupdate
  | .drpause, false => .drpause
  | .drpause, true => .drexit2
  | .drexit2, false => .drshift
  | .drexit2, true => .drupdate
  | .drupdate, false => .idle
  | .drupdate, true => .drselect
  | .irselect, false => .ircapture
  | .irselect, true => .reset
  | .ircapture, false => .irshift
  | .ircapture, true => .irexit1
  | .irshift, false => .irshift
  | .irshift, true => .irexit1
  | .irexit1, false => .irpause
  | .irexit1, true => .irupdate
  | .irpause, false => .irpause
  | .irpause, true => .irexit2
  | .irexit2, false => .irshift
  | .irexit2, true => .irupdate
  | .irupdate, false => .idle
  | .irupdate, true => .drselect

/-- `WALK(s, seq)` (41_tap.md R94). -/
def walk : TapState → List Bool → TapState
  | s, [] => s
  | s, t :: ts => walk (next s t) ts

/-- The TMS sequence of `n` bits written as a binary numeral, leftmost bit clocked first (41_tap.md R94). -/
def tmsBits (n v : Nat) : List Bool := (List.range n).map fun i => v.testBit (n - 1 - i)

/-- `RESETSEQ` (41_tap.md R95). -/
def resetSeq : List Bool := tmsBits 5 0b11111

/-- `IDLESEQ` (41_tap.md R95). -/
def idleSeq : List Bool := tmsBits 6 0b111110

/-- The rows of the transition ROM (41_tap.md R97); the column is the code of the target state. -/
def romRow : TapState → List (List Bool)
  | .reset =>
    [tmsBits 0 0, tmsBits 1 0b0, tmsBits 2 0b01, tmsBits 3 0b010, tmsBits 4 0b0100, tmsBits 4 0b0101,
     tmsBits 5 0b01010, tmsBits 6 0b010101, tmsBits 5 0b01011, tmsBits 3 0b011, tmsBits 4 0b0110, tmsBits 5 0b01100,
     tmsBits 5 0b01101, tmsBits 6 0b011010, tmsBits 7 0b0110101, tmsBits 6 0b011011]
  | .idle =>
    [tmsBits 3 0b111, tmsBits 0 0, tmsBits 1 0b1, tmsBits 2 0b10, tmsBits 3 0b100, tmsBits 3 0b101,
     tmsBits 4 0b1010, tmsBits 5 0b10101, tmsBits 4 0b1011, tmsBits 2 0b11, tmsBits 3 0b110, tmsBits 4 0b1100,
     tmsBits 4 0b1101, tmsBits 5 0b11010, tmsBits 6 0b110101, tmsBits 5 0b11011]
  | .drselect =>
    [tmsBits 2 0b11, tmsBits 3 0b110, tmsBits 0 0, tmsBits 1 0b0, tmsBits 2 0b00, tmsBits 2 0b01,
     tmsBits 3 0b010, tmsBits 4 0b0101, tmsBits 3 0b011, tmsBits 1 0b1, tmsBits 2 0b10, tmsBits 3 0b100,
     tmsBits 3 0b101, tmsBits 4 0b1010, tmsBits 5 0b10101, tmsBits 4 0b1011]
  | .drcapture =>
    [tmsBits 5 0b11111, tmsBits 3 0b110, tmsBits 3 0b111, tmsBits 0 0, tmsBits 1 0b0, tmsBits 1 0b1,
     tmsBits 2 0b10, tmsBits 3 0b101, tmsBits 2 0b11, tmsBits 4 0b1111, tmsBits 5 0b11110, tmsBits 6 0b111100,
     tmsBits 6 0b111101, tmsBits 7 0b1111010, tmsBits 8 0b11110101, tmsBits 7 0b1111011]
  | .drshift =>
    [tmsBits 5 0b11111, tmsBits 3 0b110, tmsBits 3 0b111, tmsBits 4 0b1110, tmsBits 0 0, tmsBits 1 0b1,
     tmsBits 2 0b10, tmsBits 3 0b101, tmsBits 2 0b11, tmsBits 4 0b1111, tmsBits 5 0b11110, tmsBits 6 0b111100,
     tmsBits 6 0b111101, tmsBits 7 0b1111010, tmsBits 8 0b11110101, tmsBits 7 0b1111011]
  | .drexit1 =>
    [tmsBits 4 0b1111, tmsBits 2 0b10, tmsBits 2 0b11, tmsBits 3 0b110, tmsBits 3 0b010, tmsBits 0 0,
     tmsBits 1 0b0, tmsBits 2 0b01, tmsBits 1 0b1, tmsBits 3 0b111, tmsBits 4 0b1110, tmsBits 5 0b11100,
     tmsBits 5 0b11101, tmsBits 6 0b111010, tmsBits 7 0b1110101, tmsBits 6 0b111011]
  | .drpause =>
    [tmsBits 5 0b11111, tmsBits 3 0b110, tmsBits 3 0b111, tmsBits 4 0b1110, tmsBits 2 0b10, tmsBits 3 0b101,
     tmsBits 0 0, tmsBits 1 0b1, tmsBits 2 0b11, tmsBits 4 0b1111, tmsBits 5 0b11110, tmsBits 6 0b111100,
     tmsBits 6 0b111101, tmsBits 7 0b1111010, tmsBits 8 0b11110101, tmsBits 7 0b1111011]
  | .drexit2 =>
    [tmsBits 4 0b1111, tmsBits 2 0b10, tmsBits 2 0b11, tmsBits 3 0b110, tmsBits 1 0b0, tmsBits 2 0b01,
     tmsBits 3 0b010, tmsBits 0 0, tmsBits 1 0b1, tmsBits 3 0b111, tmsBits 4 0b1110, tmsBits 5 0b11100,
     tmsBits 5 0b11101, tmsBits 6 0b111010, tmsBits 7 0b1110101, tmsBits 6 0b111011]
  | .drupdate =>
    [tmsBits 3 0b111, tmsBits 1 0b0, tmsBits 1 0b1, tmsBits 2 0b10, tmsBits 3 0b100, tmsBits 3 0b101,
     tmsBits 4 0b1010, tmsBits 5 0b10101, tmsBits 0 0, tmsBits 2 0b11, tmsBits 3 0b110, tmsBits 4 0b1100,
     tmsBits 4 0b1101, tmsBits 5 0b11010, tmsBits 6 0b110101, tmsBits 5 0b11011]
  | .irselect =>
    [tmsBits 1 0b1, tmsBits 2 0b10, tmsBits 3 0b101, tmsBits 4 0b1010, tmsBits 5 0b10100, tmsBits 5 0b10101,
     tmsBits 6 0b101010, tmsBits 7 0b1010101, tmsBits 6 0b101011, tmsBits 0 0, tmsBits 1 0b0, tmsBits 2 0b00,
     tmsBits 2 0b01, tmsBits 3 0b010, tmsBits 4 0b0101, tmsBits 3 0b011]
  | .ircapture =>
    [tmsBits 5 0b11111, tmsBits 3 0b110, tmsBits 3 0b111, tmsBits 4 0b1110, tmsBits 5 0b11100, tmsBits 5 0b11101,
     tmsBits 6 0b111010, tmsBits 7 0b1110101, tmsBits 6 0b111011, tmsBits 4 0b1111, tmsBits 0 0, tmsBits 1 0b0,
     tmsBits 1 0b1, tmsBits 2 0b10, tmsBits 3 0b101, tmsBits 2 0b11]
  | .irshift =>
    [tmsBits 5 0b11111, tmsBits 3 0b110, tmsBits 3 0b111, tmsBits 4 0b1110, tmsBits 5 0b11100, tmsBits 5 0b11101,
     tmsBits 6 0b111010, tmsBits 7 0b1110101, tmsBits 6 0b111011, tmsBits 4 0b1111, tmsBits 5 0b11110, tmsBits 0 0,
     tmsBits 1 0b1, tmsBits 2 0b10, tmsBits 3 0b101, tmsBits 2 0b11]
  | .irexit1 =>
    [tmsBits 4 0b1111, tmsBits 2 0b10, tmsBits 2 0b11, tmsBits 3 0b110, tmsBits 4 0b1100, tmsBits 4 0b1101,
     tmsBits 5 0b11010, tmsBits 6 0b110101, tmsBits 5 0b11011, tmsBits 3 0b111, tmsBits 4 0b1110, tmsBits 3 0b010,
     tmsBits 0 0, tmsBits 1 0b0, tmsBits 2 0b01, tmsBits 1 0b1]
  | .irpause =>
    [tmsBits 5 0b11111, tmsBits 3 0b110, tmsBits 3 0b111, tmsBits 4 0b1110, tmsBits 5 0b11100, tmsBits 5 0b11101,
     tmsBits 6 0b111010, tmsBits 7 0b1110101, tmsBits 6 0b111011, tmsBits 4 0b1111, tmsBits 5 0b11110, tmsBits 2 0b10,
     tmsBits 3 0b101, tmsBits 0 0, tmsBits 1 0b1, tmsBits 2 0b11]
  | .irexit2 =>
    [tmsBits 4 0b1111, tmsBits 2 0b10, tmsBits 2 0b11, tmsBits 3 0b110, tmsBits 4 0b1100, tmsBits 4 0b1101,
     tmsBits 5 0b11010, tmsBits 6 0b110101, tmsBits 5 0b11011, tmsBits 3 0b111, tmsBits 4 0b1110, tmsBits 1 0b0,
     tmsBits 2 0b01, tmsBits 3 0b010, tmsBits 0 0, tmsBits 1 0b1]
  | .irupdate =>
    [tmsBits 3 0b111, tmsBits 1 0b0, tmsBits 1 0b1, tmsBits 2 0b10, tmsBits 3 0b100, tmsBits 3 0b101,
     tmsBits 4 0b1010, tmsBits 5 0b10101, tmsBits 4 0b1011, tmsBits 2 0b11, tmsBits 3 0b110, tmsBits 4 0b1100,
     tmsBits 4 0b1101, tmsBits 5 0b11010, tmsBits 6 0b110101, tmsBits 0 0]

/-- The ROM entry from `src` to `dst` (41_tap.md R97). -/
def rom (src dst : TapState) : List Bool := (romRow src).getD dst.codeNat []

/-- `T(from, to)`, the source's `transition_bits`; `none` as `from` is UNKNOWN, and a `none` answer is the
invalid call, for which the caller raises STATE_UNKNOWN (41_tap.md R96). -/
def transitionBits : Option TapState → TapState → Option (List Bool)
  | none, .reset => some resetSeq
  | none, _ => none
  | some s, t => some (if s = t then [] else rom s t)

/-- `STABLE` (44_svf_control.md R137). -/
def TapState.stable (t : TapState) : Bool :=
  t == .reset || t == .idle || t == .drpause || t == .irpause

/-- `HOLD(s)`: the TMS level that keeps a stable state (44_svf_control.md R137). -/
def TapState.hold (t : TapState) : Bool := t == .reset

/-- The shift state of a register path (41_tap.md R103). -/
def ScanReg.shift : ScanReg → TapState
  | .ir => .irshift
  | .dr => .drshift

/-- The state the last data cycle of a register path lands in (41_tap.md R103). -/
def ScanReg.exit1 : ScanReg → TapState
  | .ir => .irexit1
  | .dr => .drexit1

end Sys2Proof
end

