-- ==== Sys2Proof/Machine/Ops.lean ====
section
/-! DEFINITION. The operations every command is written with: the two BitBuffer operations that can fault
(40_bitbuffer.md R83, R87), the environment draw and the pin cycle (41_tap.md R100), ShiftTMS, ShiftData
(R102, R103), and recording an error and ending a command (60_exceptions.md R149 to R155). -/

namespace Sys2Proof

/-- `shift_register_out()`: the least-significant bit and what is left; on an empty buffer the model faults
(40_bitbuffer.md R83). -/
def BitBuffer.shiftOut (b : BitBuffer) : Except Machine.Fault (Bool × BitBuffer) :=
  if b.len = 0 then .error .emptyShiftOut
  else .ok (b.bit 0, BitBuffer.ofNat (b.len - 1) (b.val >>> 1))

/-- `scan(w_0, ..., w_{m-1})`: the fields, the first width the most significant; widths that do not sum to
the length fault the model (40_bitbuffer.md R87). -/
def BitBuffer.scan (b : BitBuffer) (ws : List Nat) : Except Machine.Fault (List BitBuffer) :=
  if ws.sum = b.len then .ok (fieldsFrom b.val b.len ws) else .error .badFieldWidths

end Sys2Proof

namespace Sys2Proof.Machine

/-- What a step or a meaning answers. -/
abbrev Answer := Host.Outcome State Fault Refusal

/-- The course of a command: it went on with a value, or raised an error and is over. The state is the one
reached so far: nothing is rolled back (60_exceptions.md R150). -/
inductive Res (α : Type) where
  | done (a : α) (s : State)
  | raised (e : ErrorCode) (s : State)

/-- Go on with the next step of the pseudocode unless an error was raised. -/
def Res.bind {α β : Type} (r : Res α) (f : α → State → Res β) : Res β :=
  match r with
  | .done a s => f a s
  | .raised e s => .raised e s

/-! ### Pin cycles -/

/-- The environment's answer to the next cycle: the oldest one lined up, else the free value (log 3). -/
def State.answer (s : State) (r : CycleReq) : EnvAnswer :=
  match s.env with
  | a :: _ => a
  | [] => Config.envAnswer s.draws s.trace r

/-- The `Clk` event of a cycle answered with the bit `b`; the bit is absent when not sampled (10_state.md
R35). -/
def clkEvent (r : CycleReq) (b : Bool) : PinEvent :=
  .clk r.tms r.tdi r.sample (if r.sample then some b else none)

/-- The state after a cycle answered `Ok(b)` (41_tap.md R100). -/
def State.clocked (s : State) (r : CycleReq) (b : Bool) : State :=
  { s with
    trace := s.trace ++ [clkEvent r b]
    tap := s.tap.map fun t => next t r.tms
    env := s.env.tail
    draws := s.draws + 1 }

/-- The state after a cycle answered `Fail` (41_tap.md R100). -/
def State.failed (s : State) (r : CycleReq) : State :=
  { s with
    trace := s.trace ++ [.xfail r.tms r.tdi]
    tap := none
    env := s.env.tail
    draws := s.draws + 1 }

/-- `Cycle(tms, tdi, sample)` (41_tap.md R100). -/
def cycle (r : CycleReq) (s : State) : Res Bool :=
  match s.answer r with
  | .fail => .raised .cycleFail (s.failed r)
  | .ok b => .done b (s.clocked r b)

/-- Drive cycles in order, collecting the answered bits; the first failure ends it. -/
def runCycles : List CycleReq → State → Res (List Bool)
  | [], s => .done [] s
  | r :: rs, s =>
    (cycle r s).bind fun b s1 =>
    (runCycles rs s1).bind fun bs s2 => .done (b :: bs) s2

/-- The cycle of one bit of a TMS-only transition: TDI at TDI_IDLE, nothing sampled (41_tap.md R101). -/
def tmsReq (tdiIdle tms : Bool) : CycleReq := ⟨tms, tdiIdle, false⟩

/-- The cycles of `ShiftTMS(seq)` (41_tap.md R102). -/
def tmsReqs (tdiIdle : Bool) (seq : List Bool) : List CycleReq := seq.map (tmsReq tdiIdle)

/-- `ShiftTMS(seq)` (41_tap.md R102). -/
def shiftTMS (seq : List Bool) (s : State) : Res Unit :=
  (runCycles (tmsReqs s.params.tdiIdle seq) s).bind fun _ s1 => .done () s1

/-- The data cycles of `ShiftData`: bit i of the buffer on TDI in cycle i, TMS = 1 on the last one
(41_tap.md R103; the last-bit rule is the spec's own outside knowledge, 93 K8, log 8). -/
def dataReqs (d : BitBuffer) (capture : Bool) : List CycleReq :=
  (List.range d.len).map fun i => ⟨i == d.len - 1, d.bit i, capture⟩

/-- `ShiftData(reg, D, capture, end)`: to the shift state along the ROM, the data cycles, on to `fin`; the
capture has sample i at bit i (41_tap.md R103, 20_memory.md R43). Callers guarantee a known tracked state
and at least one bit; the call on UNKNOWN, which none makes, raises STATE_UNKNOWN (41_tap.md R96). -/
def shiftData (reg : ScanReg) (d : BitBuffer) (capture : Bool) (fin : TapState) (s : State) :
    Res BitBuffer :=
  match transitionBits s.tap reg.shift with
  | none => .raised .stateUnknown s
  | some path =>
    (shiftTMS path s).bind fun _ s1 =>
    (runCycles (dataReqs d capture) s1).bind fun bs s2 =>
    (shiftTMS (rom reg.exit1 fin) s2).bind fun _ s3 =>
    .done (if capture then BitBuffer.ofBits bs else BitBuffer.empty) s3

/-! ### Setting the tracked state -/

/-- `TAPV <- 1; TAP <- t`. -/
def State.setTap (s : State) (t : TapState) : State := { s with tap := some t }

/-- `HardReset()`, the body of TAPIDLE: RESETSEQ, RESET, then to IDLE (42_chain.md R109, 41_tap.md R107). -/
def hardReset (s : State) : Res Unit :=
  (shiftTMS resetSeq s).bind fun _ s1 => shiftTMS [false] (s1.setTap .reset)

/-! ### Errors and the end of a command -/

/-- Append `(SEQ, e)` to ERRLOG: what `raise` and `report` have in common (60_exceptions.md R149 to R151). -/
def State.recordError (s : State) (e : ErrorCode) : State :=
  { s with errlog := s.errlog ++ [⟨s.seq, e⟩] }

/-- Take a raised error: record it, then the kind's effect on the tracked state (60_exceptions.md R150,
R155). A TRANSPORT error has made it UNKNOWN in the failing cycle; the chain table is already invalid where
R155 wants it so, since only CHAINSCAN raises a PROTOCOL error and it clears the table first. -/
def State.takeError (s : State) (e : ErrorCode) : State :=
  let s1 := s.recordError e
  { s1 with tap := if e.kind = kindProtocol ∨ e.kind = kindTransport then none else s1.tap }

/-- The end of an executed command that recorded `err`: SEQ, and the abort policy (60_exceptions.md R153). -/
def State.endCommand (s : State) (err : Option ErrorCode) : State :=
  { s with
    seq := s.seq + 1
    aborted := s.aborted || (match err with
      | none => false
      | some e => e.fatal || s.strict) }

/-- The state after a command: `done none` recorded no error, `done (some e)` reports `e` as its last step
(60_exceptions.md R151), `raised e` raised it (R150). -/
def finish : Res (Option ErrorCode) → State
  | .done none s => s.endCommand none
  | .done (some e) s => (s.recordError e).endCommand (some e)
  | .raised e s => (s.takeError e).endCommand (some e)

/-- The answer of a meaning. A command always ends in a next state: an error is a record, not a stop
(60_exceptions.md R156). -/
def complete (r : Res (Option ErrorCode)) : Answer := .next (finish r)

/-- A command that ran to its end and reports nothing. -/
def Res.quiet (r : Res Unit) : Res (Option ErrorCode) := r.bind fun _ s => .done none s

end Sys2Proof.Machine
end

