-- ==== Sys2Proof/Machine/Operands.lean ====
section
/-! DEFINITION. Operand forms: the checks on operands and devices, the whole-chain images, the offsets they are
built from, and the resolved mask (10_state.md R27, 42_chain.md R118, 43_svf_scan.md R124, R125). -/

namespace Sys2Proof.Machine

/-! ### Scans -/

/-- The end state a scan of this register path lands in (10_state.md R18, R19). -/
def State.endState (s : State) : ScanReg → TapState
  | .ir => s.endir
  | .dr => s.enddr

/-- Every operand present has the length `n` (43_svf_scan.md R124). -/
def lengthsAgree (n : Nat) (smask tdo mask : Option BitBuffer) : Bool :=
  (smask.toList ++ tdo.toList ++ mask.toList).all fun x => x.len == n

/-- `CheckScan()`: the first check that fails (43_svf_scan.md R124, 60_exceptions.md R152). -/
def checkScan (tdi : BitBuffer) (smask tdo mask : Option BitBuffer) (s : State) : Option ErrorCode :=
  if mask.isSome && tdo.isNone then some .badPayload
  else if tdi.len = 0 then some .zeroLength
  else if !lengthsAgree tdi.len smask tdo mask then some .lengthMismatch
  else if s.tap.isNone then some .stateUnknown
  else none

/-- `ResolveMask()`: a MASK operand is stored and used, else the sticky mask, else the policy
(43_svf_scan.md R125). -/
def resolveMask (n : Nat) (mask : Option BitBuffer) (s : State) : Res BitBuffer :=
  match mask with
  | some m => .done m { s with mask := some m }
  | none =>
    match s.mask with
    | some m => .done m s
    | none =>
      match s.params.noMaskPolicy with
      | .error => .raised .noStickyMask s
      | .allOnes => .done (BitBuffer.ones n) s

/-! ### Devices -/

/-- The record `DEV[k]`; `none` for `k >= NDEV`. -/
def State.devRec (s : State) (k : Nat) : Option DevRec := if k < s.ndev then s.dev[k]? else none

/-- `DEV[k].IRLEN`, 0 where there is no record. -/
def State.irlen (s : State) (k : Nat) : Nat := ((s.devRec k).map DevRec.irlen).getD 0

/-- The sum of IRLEN over some device records. -/
def irlenSum (ds : List DevRec) : Nat := (ds.map DevRec.irlen).sum

/-- `IRBEFORE(k)`: the IR bits of the devices j < k (10_state.md R27). -/
def State.irBefore (s : State) (k : Nat) : Nat := irlenSum ((s.dev.take s.ndev).take k)

/-- `IRAFTER(k)`: the IR bits of the devices k < j < NDEV (10_state.md R27). -/
def State.irAfter (s : State) (k : Nat) : Nat := irlenSum ((s.dev.take s.ndev).drop (k + 1))

/-- `DRBEFORE(k)` (10_state.md R27). -/
def State.drBefore (_ : State) (k : Nat) : Nat := k

/-- `DRAFTER(k)` (10_state.md R27). -/
def State.drAfter (s : State) (k : Nat) : Nat := s.ndev - 1 - k

/-- `IROFF(k)`, the device's bit offset in the whole-chain IR image (10_state.md R27, D26). -/
def State.irOff (s : State) (k : Nat) : Nat := s.irAfter k

/-- `IRIMAGE(k, bits)` (42_chain.md R118). -/
def State.irImage (s : State) (k : Nat) (bits : BitBuffer) : BitBuffer :=
  ((BitBuffer.ones (s.irBefore k)).append bits).appendOnes (s.irAfter k)

/-- `DRIMAGE(k, bits)` (42_chain.md R118). -/
def State.drImage (s : State) (k : Nat) (bits : BitBuffer) : BitBuffer :=
  ((BitBuffer.ones (s.drBefore k)).append bits).appendOnes (s.drAfter k)

/-- The checks common to the per-device commands, before the device's own (42_chain.md R118 to R121). -/
def checkChain (bits : BitBuffer) (s : State) : Option ErrorCode :=
  if bits.len = 0 then some .zeroLength
  else if s.tap.isNone then some .stateUnknown
  else if !s.chainv then some .noChain
  else none

/-- The checks of DEVDRW and DEVDRRW (42_chain.md R120, R121). -/
def checkDevDr (k : Nat) (bits : BitBuffer) (s : State) : Option ErrorCode :=
  match checkChain bits s with
  | some e => some e
  | none => if s.ndev ≤ k then some .badDevice else none

/-- The checks of DEVIR (42_chain.md R119). -/
def checkDevIr (k : Nat) (bits : BitBuffer) (s : State) : Option ErrorCode :=
  match checkChain bits s with
  | some e => some e
  | none =>
    if s.ndev ≤ k ∨ s.irlen k = 0 then some .badDevice
    else if bits.len ≠ s.irlen k then some .lengthMismatch
    else none

end Sys2Proof.Machine
end

