-- ==== Sys2Proof/Machine/Flags.lean ====
section
/-! DEFINITION. The computed conditions: the masked TDO comparison (43_svf_scan.md R126), the IR-length
consistency flag (42_chain.md R114), the STATUS word (10_state.md R38) and the views of the error log
(10_state.md R34). -/

namespace Sys2Proof.Machine

/-- `Verify(C, E, M)`: the error to report, if any (43_svf_scan.md R126). -/
def verify (c e m : BitBuffer) : Option ErrorCode :=
  if c.maskedEq e m then none else some .tdoMismatch

/-- IRMISMATCH of a device list and the measured total (42_chain.md R114). -/
def irMismatch (ds : List DevRec) (irt : Nat) : Bool := irlenSum ds != irt

/-- TAPV as a bit (10_state.md R15). -/
def State.tapv (s : State) : Bool := s.tap.isSome

/-- TAP as a code, 0 when TAPV = 0 (10_state.md R15, R38). -/
def State.tapCode (s : State) : Nat := (s.tap.map TapState.codeNat).getD 0

/-- MASKV (10_state.md R20). -/
def State.maskv (s : State) : Bool := s.mask.isSome

/-- MASKBUF, empty when MASKV = 0 (10_state.md R20). -/
def State.maskbuf (s : State) : BitBuffer := s.mask.getD BitBuffer.empty

/-- The STATUS word (10_state.md R38). -/
def State.status (s : State) : Word :=
  BitVec.ofNat 32 (s.tapCode + s.tapv.toNat * 2 ^ 4 + s.aborted.toNat * 2 ^ 5 + s.chainv.toNat * 2 ^ 6
    + s.irmismatch.toNat * 2 ^ 7 + s.maskv.toNat * 2 ^ 8 + s.trst.toNat * 2 ^ 9 + s.strict.toNat * 2 ^ 10)

/-- ERRCOUNT saturates at 2^32 - 1 (10_state.md R34). -/
def State.errCount (s : State) : Word := BitVec.ofNat 32 (min s.errlog.length (2 ^ 32 - 1))

/-- LASTERR: subcode in [7:0], kind in [15:8], 0 when ERRLOG is empty (10_state.md R34, R37). -/
def State.lastErr (s : State) : Word :=
  match s.errlog.getLast? with
  | none => 0
  | some r => BitVec.ofNat 32 (r.err.sub + r.err.kind * 2 ^ 8)

/-- LASTERRSEQ: the low 32 bits of the last error's SEQ, 0 when ERRLOG is empty (10_state.md R34, R37). -/
def State.lastErrSeq (s : State) : Word :=
  match s.errlog.getLast? with
  | none => 0
  | some r => BitVec.ofNat 32 r.seq

end Sys2Proof.Machine
end

