-- ==== Sys2Proof/Machine/Chain.lean ====
section
/-! DEFINITION. Chain discovery and the per-device commands (42_chain.md): CHAINSCAN, DEVIR, DEVDRW, DEVDRRW. -/

namespace Sys2Proof.Machine

/-! ### Discovery -/

/-- The flush pattern of a probe: F zeros, the marker, F zeros (42_chain.md R110). -/
def flushPattern (f : Nat) : BitBuffer :=
  ((BitBuffer.zeroes f).append (BitBuffer.ones 1)).append (BitBuffer.zeroes f)

/-- What a probe makes of its remainder `R`: an error, or the index of its one 1 bit (42_chain.md R110). -/
def probeLength (r : BitBuffer) : Except ErrorCode Nat :=
  if r.popcount = 0 then .error .flushNone
  else if 1 < r.popcount then .error .flushMulti
  else .ok (r.bits.idxOf true)

/-- `Probe(reg)`: the length of a register path (42_chain.md R110). -/
def probe (reg : ScanReg) (s : State) : Res Nat :=
  (shiftData reg (flushPattern s.params.flushSize) true .idle s).bind fun c s1 =>
  match probeLength (c.dropLsb s.params.flushSize) with
  | .error e => .raised e s1
  | .ok n => .done n s1

/-- The ID codes in a capture of `32 n` bits, device 0 from the most significant field: the fields of
`scan(C, [32, ..., 32])`, whose widths sum to the length of the capture, so that this call of scan never
faults (42_chain.md R112, 40_bitbuffer.md R90). -/
def idcodes (c : BitBuffer) (n : Nat) : List Word :=
  (fieldsFrom c.val c.len (List.replicate n 32)).map fun f => BitVec.ofNat 32 f.val

/-- An entry of DEVICE_TABLE matches an ID code under the entry's mask (42_chain.md R113). -/
def entryMatches (e : DeviceEntry) (idcode : Word) : Bool := idcode &&& e.mask == e.idcode &&& e.mask

/-- The 16-bit TABIDX of table index `j`; an index that 16 bits cannot hold gives a free value (log 9). -/
def tabIdx (j : Nat) : BitVec 16 := if j < 2 ^ 16 then BitVec.ofNat 16 j else Config.wideTabIdx j

/-- `Identify(k)`: the record of a device with this ID code, before inference (42_chain.md R113). -/
def identify (table : List DeviceEntry) (idcode : Word) : DevRec :=
  match table.findIdx? (fun e => entryMatches e idcode) with
  | some j => ⟨idcode, true, tabIdx j, ((table[j]?).map DeviceEntry.irLength).getD 0, false⟩
  | none => ⟨idcode, false, 0xFFFF, 0, false⟩

/-- The sum S of IRLEN over the known devices (42_chain.md R114). -/
def knownIrlen (ds : List DevRec) : Nat := irlenSum (ds.filter fun d => d.known)

/-- How many devices are unknown: `|U|` (42_chain.md R114). -/
def unknownCount (ds : List DevRec) : Nat := ds.countP fun d => !d.known

/-- IR-length inference: the one unknown device gets the shortfall (42_chain.md R114). -/
def inferIrlen (ds : List DevRec) (irt : Nat) : List DevRec :=
  if unknownCount ds = 1 ∧ knownIrlen ds < irt then
    ds.map fun d => if d.known then d else { d with irlen := irt - knownIrlen ds, inferred := true }
  else ds

/-- `CHAINV <- 0; NDEV <- 0; IRTOTAL <- 0; IRMISMATCH <- 0; DEV <- []` (42_chain.md R115). -/
def State.clearChain (s : State) : State :=
  { s with chainv := false, ndev := 0, irtotal := 0, irmismatch := false, dev := [] }

/-- The device list of `n` devices from the ID-code capture and the measured IR length (42_chain.md R112 to
R114). -/
def buildDevices (table : List DeviceEntry) (c : BitBuffer) (n irt : Nat) : List DevRec :=
  inferIrlen ((idcodes c n).map (identify table)) irt

/-- The last lines of CHAINSCAN: the chain table becomes visible (42_chain.md R115). -/
def State.commitChain (s : State) (c : BitBuffer) (n irt : Nat) : State :=
  let ds := buildDevices s.params.deviceTable c n irt
  { s with chainv := true, ndev := n, irtotal := irt, irmismatch := irMismatch ds irt, dev := ds }

/-- The body of CHAINSCAN (42_chain.md R115). -/
def chainscanBody (s : State) : Res Unit :=
  (hardReset s.clearChain).bind fun _ s1 =>
  (shiftData .ir (BitBuffer.ones s1.params.flushSize) false .idle s1).bind fun _ s2 =>
  (probe .dr s2).bind fun n s3 =>
  if n = 0 then .raised .noDevices s3
  else
    (probe .ir s3).bind fun irt s4 =>
    (hardReset s4).bind fun _ s5 =>
    (shiftData .dr (BitBuffer.ones (32 * n)) true .idle s5).bind fun c s6 =>
    .done () (s6.commitChain c n irt)

/-- CHAINSCAN (42_chain.md R115). -/
def execChainscan (s : State) : Answer := complete (chainscanBody s).quiet

/-! ### Per-device commands -/

/-- DEVIR k bits (42_chain.md R119). -/
def devirBody (k : Nat) (bits : BitBuffer) (s : State) : Res Unit :=
  match checkDevIr k bits s with
  | some e => .raised e s
  | none => (shiftData .ir (s.irImage k bits) false s.endir s).bind fun _ s1 => .done () s1

/-- DEVIR k bits (42_chain.md R119). -/
def execDevir (k : BitVec 16) (bits : BitBuffer) (s : State) : Answer :=
  complete (devirBody k.toNat bits s).quiet

/-- The body of DEVDRW (42_chain.md R120). -/
def devdrwBody (k : Nat) (bits : BitBuffer) (s : State) : Res Unit :=
  match checkDevDr k bits s with
  | some e => .raised e s
  | none => (shiftData .dr (s.drImage k bits) false s.enddr s).bind fun _ s1 => .done () s1

/-- DEVDRW k bits (42_chain.md R120). -/
def execDevdrw (k : BitVec 16) (bits : BitBuffer) (s : State) : Answer :=
  complete (devdrwBody k.toNat bits s).quiet

/-- The device's slice of a DR capture: strip k most-significant and NDEV - 1 - k least-significant bits
(42_chain.md R121). -/
def State.drSlice (s : State) (k : Nat) (c : BitBuffer) : BitBuffer := (c.dropMsb k).dropLsb (s.ndev - 1 - k)

/-- The body of DEVDRRW (42_chain.md R121). -/
def devdrrwBody (k : Nat) (bits : BitBuffer) (s : State) : Res Unit :=
  match checkDevDr k bits s with
  | some e => .raised e s
  | none =>
    (shiftData .dr (s.drImage k bits) true s.enddr s).bind fun c s1 =>
    .done () { s1 with capbuf := c, rdbuf := s1.drSlice k c }

/-- DEVDRRW k bits (42_chain.md R121). -/
def execDevdrrw (k : BitVec 16) (bits : BitBuffer) (s : State) : Answer :=
  complete (devdrrwBody k.toNat bits s).quiet

end Sys2Proof.Machine
end

