-- ==== Sys2Proof/Machine/TapGroup.lean ====
section
/-! DEFINITION. The commands of the TAP group: TAPIDLE and GOTO (41_tap.md R106, R107). -/

namespace Sys2Proof.Machine

/-- `ShiftTMS(T(tracked state, st)); TAPV <- 1; TAP <- st`; the invalid call of T raises STATE_UNKNOWN before
any cycle (41_tap.md R96). -/
def moveTo (st : TapState) (s : State) : Res Unit :=
  match transitionBits s.tap st with
  | none => .raised .stateUnknown s
  | some seq => (shiftTMS seq s).bind fun _ s1 => .done () (s1.setTap st)

/-- TAPIDLE (41_tap.md R107). -/
def execTapidle (s : State) : Answer := complete (hardReset s).quiet

/-- GOTO st (41_tap.md R106). -/
def execGoto (st : TapState) (s : State) : Answer := complete (moveTo st s).quiet

end Sys2Proof.Machine
end

