-- ==== Sys2Proof/Machine/SvfControl.lean ====
section
/-! DEFINITION. The SVF state and control directives (44_svf_control.md): STATE, RUNTEST, ENDIR, ENDDR, FREQUENCY,
TRST and STRICT. -/

namespace Sys2Proof.Machine

/-- The body of STATE: RESET by RESETSEQ from any state, any other state along the ROM (44_svf_control.md
R138). -/
def stateBody (st : TapState) (s : State) : Res Unit :=
  if st = .reset then (shiftTMS resetSeq s).bind fun _ s1 => .done () (s1.setTap .reset)
  else moveTo st s

/-- STATE st (44_svf_control.md R138). -/
def execState (st : TapState) (s : State) : Answer := complete (stateBody st s).quiet

/-- RUNTEST's wait of `count` TCK periods in the stable state `t`: a `Dwell` event, or `count` cycles at the
state's level under RUNTEST_CLOCKS; nothing for a count of 0 (44_svf_control.md R139). -/
def dwell (t : TapState) (count : Nat) (s : State) : Res Unit :=
  if count = 0 then .done () s
  else if s.params.runtestClocks then shiftTMS (List.replicate count t.hold) s
  else .done () { s with trace := s.trace ++ [.dwell count] }

/-- The body of RUNTEST (44_svf_control.md R139). -/
def runtestBody (st : Option TapState) (count : Nat) (s : State) : Res Unit :=
  match st with
  | some t =>
    if !t.stable then .raised .badState s
    else (moveTo t s).bind fun _ s1 => dwell t count s1
  | none =>
    match s.tap with
    | none => .raised .stateUnknown s
    | some t => if !t.stable then .raised .badState s else dwell t count s

/-- RUNTEST [st] count TCK (44_svf_control.md R139). -/
def execRuntest (st : Option TapState) (count : Word) (s : State) : Answer :=
  complete (runtestBody st count.toNat s).quiet

/-- Duration of a wait of `count` periods, in seconds: `2 * H * count` with `H = 1 / FREQ`, or
DEFAULT_TCK_HALF_PERIOD when FREQ = 0 (44_svf_control.md R140). Timing only: no step reads it. -/
def State.dwellDuration (s : State) (count : Nat) : Duration :=
  if s.freq = 0 then ⟨2 * count * s.params.defaultHalfPeriod.num, s.params.defaultHalfPeriod.den⟩
  else ⟨2 * count, s.freq.toNat⟩

/-- ENDIR st: IDLE or IRPAUSE (44_svf_control.md R141). -/
def execEndir (st : TapState) (s : State) : Answer :=
  complete (if st = .idle ∨ st = .irpause then .done none { s with endir := st } else .raised .badState s)

/-- ENDDR st: IDLE or DRPAUSE (44_svf_control.md R142). -/
def execEnddr (st : TapState) (s : State) : Answer :=
  complete (if st = .idle ∨ st = .drpause then .done none { s with enddr := st } else .raised .badState s)

/-- FREQUENCY hz (44_svf_control.md R143). -/
def execFrequency (hz : Word) (s : State) : Answer :=
  complete (if hz = 0 then .raised .badValue s else .done none { s with freq := hz })

/-- TRST ON|OFF (44_svf_control.md R144). -/
def execTrst (on : Bool) (s : State) : Answer :=
  complete (.done none { s with
    trace := if s.params.hasTrst && s.trst != on then s.trace ++ [.trst on] else s.trace
    trst := on
    tap := if on then none else s.tap })

/-- STRICT ON|OFF (44_svf_control.md R145). -/
def execStrict (on : Bool) (s : State) : Answer := complete (.done none { s with strict := on })

end Sys2Proof.Machine
end

