-- ==== Sys2Proof/Machine/SvfScan.lean ====
section
/-! DEFINITION. The SVF scans and header directives (43_svf_scan.md): SIR, SDR, HDR, TDR, HIR, TIR. -/

namespace Sys2Proof.Machine

/-- The capturing scan of SIR and SDR: resolve the mask, shift, write CAPBUF, compare (43_svf_scan.md R127,
R128, R130). -/
def scanAndVerify (reg : ScanReg) (tdi tdo : BitBuffer) (mask : Option BitBuffer) (s : State) :
    Res (Option ErrorCode) :=
  (resolveMask tdi.len mask s).bind fun m s1 =>
  (shiftData reg tdi true (s1.endState reg) s1).bind fun c s2 =>
  .done (verify c tdo m) { s2 with capbuf := c }

/-- SIR and SDR on their register path. SMASK enters the length check only (43_svf_scan.md R127 to R129). -/
def scanBody (reg : ScanReg) (tdi : BitBuffer) (smask tdo mask : Option BitBuffer) (s : State) :
    Res (Option ErrorCode) :=
  match checkScan tdi smask tdo mask s with
  | some e => .raised e s
  | none =>
    match tdo with
    | none => (shiftData reg tdi false (s.endState reg) s).bind fun _ s1 => .done none s1
    | some e => scanAndVerify reg tdi e mask s

/-- SIR (43_svf_scan.md R127). -/
def execSir (tdi : BitBuffer) (smask tdo mask : Option BitBuffer) (s : State) : Answer :=
  complete (scanBody .ir tdi smask tdo mask s)

/-- SDR (43_svf_scan.md R128). -/
def execSdr (tdi : BitBuffer) (smask tdo mask : Option BitBuffer) (s : State) : Answer :=
  complete (scanBody .dr tdi smask tdo mask s)

/-- HDR, TDR, HIR and TIR: a length of 0 has no effect, any other is refused (43_svf_scan.md R131). -/
def paddingBody (n : BitVec 16) (s : State) : Res (Option ErrorCode) :=
  if n = 0 then .done none s else .raised .unsupportedHeader s

/-- HDR n (43_svf_scan.md R131). -/
def execHdr (n : BitVec 16) (s : State) : Answer := complete (paddingBody n s)

/-- TDR n (43_svf_scan.md R132). -/
def execTdr (n : BitVec 16) (s : State) : Answer := complete (paddingBody n s)

/-- HIR n (43_svf_scan.md R133). -/
def execHir (n : BitVec 16) (s : State) : Answer := complete (paddingBody n s)

/-- TIR n (43_svf_scan.md R134). -/
def execTir (n : BitVec 16) (s : State) : Answer := complete (paddingBody n s)

end Sys2Proof.Machine
end

