-- ==== Sys2Proof/Syntax.lean ====
section
/-! DEFINITION. The commands of the block after decoding: one constructor per row of spec/opcode_table.json
(30_encoding.md R63). -/

namespace Sys2Proof

/-- A decoded command. The operand fields are those 30_encoding.md R63 lists; FS, FT and FM (R60) are the
presence of the optional operands, SV the presence of RUNTEST's state. -/
inductive Instr where
  /-- any-state-to-IDLE hard reset (41_tap.md R107) -/
  | tapidle
  /-- move along the ROM (41_tap.md R106) -/
  | goto (st : TapState)
  /-- SVF STATE, one state (44_svf_control.md R138) -/
  | state (st : TapState)
  /-- SVF RUNTEST; `st = none` is SV = 0 (44_svf_control.md R139) -/
  | runtest (st : Option TapState) (count : Word)
  /-- SVF ENDIR (44_svf_control.md R141) -/
  | endir (st : TapState)
  /-- SVF ENDDR (44_svf_control.md R142) -/
  | enddr (st : TapState)
  /-- SVF FREQUENCY (44_svf_control.md R143) -/
  | frequency (hz : Word)
  /-- SVF TRST, IMM[0] (44_svf_control.md R144) -/
  | trst (on : Bool)
  /-- error policy, IMM[0] (44_svf_control.md R145) -/
  | strict (on : Bool)
  /-- SVF SIR (43_svf_scan.md R127) -/
  | sir (tdi : BitBuffer) (smask tdo mask : Option BitBuffer)
  /-- SVF SDR (43_svf_scan.md R128) -/
  | sdr (tdi : BitBuffer) (smask tdo mask : Option BitBuffer)
  /-- SVF HDR (43_svf_scan.md R131) -/
  | hdr (n : BitVec 16)
  /-- SVF TDR (43_svf_scan.md R132) -/
  | tdr (n : BitVec 16)
  /-- SVF HIR (43_svf_scan.md R133) -/
  | hir (n : BitVec 16)
  /-- SVF TIR (43_svf_scan.md R134) -/
  | tir (n : BitVec 16)
  /-- discover the chain (42_chain.md R115) -/
  | chainscan
  /-- write device k's IR (42_chain.md R119) -/
  | devir (k : BitVec 16) (bits : BitBuffer)
  /-- write device k's DR (42_chain.md R120) -/
  | devdrw (k : BitVec 16) (bits : BitBuffer)
  /-- write and read device k's DR (42_chain.md R121) -/
  | devdrrw (k : BitVec 16) (bits : BitBuffer)
deriving DecidableEq, Repr

end Sys2Proof
end

