-- ==== Sys2Proof/Machine/Dispatch.lean ====
section
/-! DEFINITION. The meaning of each command: one arm per constructor of Instr. -/

namespace Sys2Proof.Machine

def exec (i : Instr) (s : State) : Host.Outcome State Fault Refusal :=
  match i with
  | .tapidle => Sys2Proof.Machine.execTapidle s
  | .goto st => Sys2Proof.Machine.execGoto st s
  | .state st => Sys2Proof.Machine.execState st s
  | .runtest st count => Sys2Proof.Machine.execRuntest st count s
  | .endir st => Sys2Proof.Machine.execEndir st s
  | .enddr st => Sys2Proof.Machine.execEnddr st s
  | .frequency hz => Sys2Proof.Machine.execFrequency hz s
  | .trst on => Sys2Proof.Machine.execTrst on s
  | .strict on => Sys2Proof.Machine.execStrict on s
  | .sir tdi smask tdo mask => Sys2Proof.Machine.execSir tdi smask tdo mask s
  | .sdr tdi smask tdo mask => Sys2Proof.Machine.execSdr tdi smask tdo mask s
  | .hdr n => Sys2Proof.Machine.execHdr n s
  | .tdr n => Sys2Proof.Machine.execTdr n s
  | .hir n => Sys2Proof.Machine.execHir n s
  | .tir n => Sys2Proof.Machine.execTir n s
  | .chainscan => Sys2Proof.Machine.execChainscan s
  | .devir k bits => Sys2Proof.Machine.execDevir k bits s
  | .devdrw k bits => Sys2Proof.Machine.execDevdrw k bits s
  | .devdrrw k bits => Sys2Proof.Machine.execDevdrrw k bits s

end Sys2Proof.Machine
end

