-- ==== Sys2Proof/WellFormed.lean ====
section
/-! DEFINITION. Which terms of `Instr` are commands. A BitBuffer carries its own invariant and every TAP state
has a code, so one check is left: a MASK operand needs a TDO operand. The second predicate is not about the
command but about its carriage as bytes. -/

namespace Sys2Proof

/-- MASK is nested inside the TDO option: FM = 1 only with FT = 1 (43_svf_scan.md R124, 60_exceptions.md
R152 level 3). -/
def maskNeedsTdo (tdo mask : Option BitBuffer) : Bool := !mask.isSome || tdo.isSome

/-- The command has an encoding the block accepts (30_encoding.md R62). -/
def Instr.wellFormed : Instr → Bool
  | .sir _ _ tdo mask => maskNeedsTdo tdo mask
  | .sdr _ _ tdo mask => maskNeedsTdo tdo mask
  | .tapidle | .goto _ | .state _ | .runtest _ _ | .endir _ | .enddr _ | .frequency _ | .trst _
  | .strict _ | .hdr _ | .tdr _ | .hir _ | .tir _ | .chainscan | .devir _ _ | .devdrw _ _
  | .devdrrw _ _ => true

/-- The operand's length fits the 32-bit length word of its byte carriage (30_encoding.md R61). Lengths are
unbounded otherwise (log 13). -/
def Operand.carriable : Operand → Bool
  | .word _ => true
  | .buf b => decide (b.len < 2 ^ 32)

/-- Every operand of the command can be carried as bytes. -/
def Command.carriable (c : Command) : Bool := c.payload.all Operand.carriable

end Sys2Proof
end

