-- ==== Sys2Proof/Decode.lean ====
section
/-! DEFINITION. From a header and operands to an `Instr`, or a refusal by name (30_encoding.md R59 to R69,
levels 1 to 3 of 60_exceptions.md R152); the encoder; and the byte carriage of a command (R61). -/

namespace Sys2Proof

/-- The three format errors of the parse step (60_exceptions.md R152 levels 1 to 3). -/
inductive DecodeError where
  | unknownCommand | reservedField | badPayload
deriving DecidableEq, Repr

/-! ### Header word -/

/-- The header fields (30_encoding.md R60). -/
structure Header where
  op : BitVec 8
  st : BitVec 4
  sv : Bool
  ft : Bool
  fm : Bool
  fs : Bool
  imm : BitVec 16
deriving DecidableEq, Repr

/-- `v[hi:lo]` with `hi - lo + 1 = n` (00_scope.md R9). -/
def bitField (v lo n : Nat) : Nat := v / 2 ^ lo % 2 ^ n

/-- Split a header word: OP[31:24], ST[23:20], SV[19], FT[18], FM[17], FS[16], IMM[15:0]
(30_encoding.md R60). -/
def Header.ofWord (w : Word) : Header where
  op := BitVec.ofNat 8 (bitField w.toNat 24 8)
  st := BitVec.ofNat 4 (bitField w.toNat 20 4)
  sv := bitField w.toNat 19 1 == 1
  ft := bitField w.toNat 18 1 == 1
  fm := bitField w.toNat 17 1 == 1
  fs := bitField w.toNat 16 1 == 1
  imm := BitVec.ofNat 16 (bitField w.toNat 0 16)

/-- Put the fields at their places (30_encoding.md R60). -/
def Header.toWord (h : Header) : Word :=
  BitVec.ofNat 32 (h.op.toNat * 2 ^ 24 + h.st.toNat * 2 ^ 20 + h.sv.toNat * 2 ^ 19 + h.ft.toNat * 2 ^ 18
    + h.fm.toNat * 2 ^ 17 + h.fs.toNat * 2 ^ 16 + h.imm.toNat)

/-- Which header fields a command uses: the `format` column of spec/opcode_table.json without its payload
part (30_encoding.md R63). -/
inductive Format where
  /-- OP only -/
  | plain
  /-- ST -/
  | st
  /-- SV and ST -/
  | svSt
  /-- IMM[0] -/
  | bit
  /-- FT, FM, FS -/
  | flags
  /-- IMM -/
  | imm
deriving DecidableEq, Repr

/-- Every header bit a command does not use is 0; with SV = 0, RUNTEST's ST is 0 too (30_encoding.md R66). -/
def Format.reservedClear : Format → Header → Bool
  | .plain, h => h.st == 0 && !h.sv && !h.ft && !h.fm && !h.fs && h.imm == 0
  | .st, h => !h.sv && !h.ft && !h.fm && !h.fs && h.imm == 0
  | .svSt, h => (h.sv || h.st == 0) && !h.ft && !h.fm && !h.fs && h.imm == 0
  | .bit, h => h.st == 0 && !h.sv && !h.ft && !h.fm && !h.fs && decide (h.imm.toNat < 2)
  | .flags, h => h.st == 0 && !h.sv && h.imm == 0
  | .imm, h => h.st == 0 && !h.sv && !h.ft && !h.fm && !h.fs

/-- A format that depends on nothing but OP; `none` is an unassigned opcode (30_encoding.md R63, R67). -/
def opFormat (op : BitVec 8) : Option Format :=
  match op.toNat with
  | 0x01 => some .plain
  | 0x02 => some .st
  | 0x10 => some .st
  | 0x11 => some .svSt
  | 0x12 => some .st
  | 0x13 => some .st
  | 0x14 => some .plain
  | 0x15 => some .bit
  | 0x16 => some .bit
  | 0x20 => some .flags
  | 0x21 => some .flags
  | 0x22 => some .imm
  | 0x23 => some .imm
  | 0x24 => some .imm
  | 0x25 => some .imm
  | 0x30 => some .plain
  | 0x31 => some .imm
  | 0x32 => some .imm
  | 0x33 => some .imm
  | _ => none

/-! ### Payload -/

/-- No operands (30_encoding.md R62). -/
def payloadNone (p : List Operand) (i : Instr) : Except DecodeError Instr :=
  match p with
  | [] => .ok i
  | _ => .error .badPayload

/-- Exactly one WORD (30_encoding.md R62). -/
def payloadWord (p : List Operand) (f : Word → Instr) : Except DecodeError Instr :=
  match p with
  | [.word w] => .ok (f w)
  | _ => .error .badPayload

/-- Exactly one BUF (30_encoding.md R62). -/
def payloadBuf (p : List Operand) (f : BitBuffer → Instr) : Except DecodeError Instr :=
  match p with
  | [.buf b] => .ok (f b)
  | _ => .error .badPayload

/-- Take a BUF if its flag says it is there. -/
def takeBuf : (present : Bool) → List Operand → Option (Option BitBuffer × List Operand)
  | false, p => some (none, p)
  | true, .buf b :: p => some (some b, p)
  | true, _ => none

/-- BUF tdi; then smask if FS, tdo if FT, mask if FM (30_encoding.md R62). -/
def takeScanBufs (h : Header) (p : List Operand) :
    Option (BitBuffer × Option BitBuffer × Option BitBuffer × Option BitBuffer) :=
  match p with
  | .buf tdi :: p1 =>
    match takeBuf h.fs p1 with
    | none => none
    | some (smask, p2) =>
      match takeBuf h.ft p2 with
      | none => none
      | some (tdo, p3) =>
        match takeBuf h.fm p3 with
        | some (mask, []) => some (tdi, smask, tdo, mask)
        | _ => none
  | _ => none

/-- The operands of SIR and SDR; FM = 1 needs FT = 1 (60_exceptions.md R152 level 3). -/
def payloadScan (h : Header) (p : List Operand)
    (f : BitBuffer → Option BitBuffer → Option BitBuffer → Option BitBuffer → Instr) :
    Except DecodeError Instr :=
  match takeScanBufs h p with
  | none => .error .badPayload
  | some (tdi, smask, tdo, mask) =>
    if maskNeedsTdo tdo mask then .ok (f tdi smask tdo mask) else .error .badPayload

/-- The command an assigned opcode names, from its header fields and payload (30_encoding.md R63, R65). -/
def decodePayload (h : Header) (p : List Operand) : Except DecodeError Instr :=
  match h.op.toNat with
  | 0x01 => payloadNone p .tapidle
  | 0x02 => payloadNone p (.goto (TapState.ofCode h.st))
  | 0x10 => payloadNone p (.state (TapState.ofCode h.st))
  | 0x11 => payloadWord p (.runtest (if h.sv then some (TapState.ofCode h.st) else none))
  | 0x12 => payloadNone p (.endir (TapState.ofCode h.st))
  | 0x13 => payloadNone p (.enddr (TapState.ofCode h.st))
  | 0x14 => payloadWord p .frequency
  | 0x15 => payloadNone p (.trst (h.imm.toNat % 2 == 1))
  | 0x16 => payloadNone p (.strict (h.imm.toNat % 2 == 1))
  | 0x20 => payloadScan h p .sir
  | 0x21 => payloadScan h p .sdr
  | 0x22 => payloadNone p (.hdr h.imm)
  | 0x23 => payloadNone p (.tdr h.imm)
  | 0x24 => payloadNone p (.hir h.imm)
  | 0x25 => payloadNone p (.tir h.imm)
  | 0x30 => payloadNone p .chainscan
  | 0x31 => payloadBuf p (.devir h.imm)
  | 0x32 => payloadBuf p (.devdrw h.imm)
  | 0x33 => payloadBuf p (.devdrrw h.imm)
  | _ => .error .unknownCommand

/-- Decode a command: OP assigned, then reserved bits clear, then the payload's shape (60_exceptions.md R152
levels 1 to 3). -/
def decode (c : Command) : Except DecodeError Instr :=
  let h := Header.ofWord c.header
  match opFormat h.op with
  | none => .error .unknownCommand
  | some f => if f.reservedClear h then decodePayload h c.payload else .error .reservedField

/-! ### Encoder -/

/-- A header with every field but OP clear. -/
def Header.plain (op : BitVec 8) : Header := ⟨op, 0, false, false, false, false, 0⟩

/-- The operands present, in order (30_encoding.md R62). -/
def scanOperands (tdi : BitBuffer) (smask tdo mask : Option BitBuffer) : List Operand :=
  .buf tdi :: (smask.toList ++ tdo.toList ++ mask.toList).map .buf

/-- The header of SIR and SDR: FT, FM, FS say which operands are present (30_encoding.md R60). -/
def scanHeader (op : BitVec 8) (smask tdo mask : Option BitBuffer) : Header :=
  { Header.plain op with ft := tdo.isSome, fm := mask.isSome, fs := smask.isSome }

/-- The header fields and operands of a command (30_encoding.md R62, R63). -/
def encodeFields : Instr → Header × List Operand
  | .tapidle => (Header.plain 0x01, [])
  | .goto st => ({ Header.plain 0x02 with st := st.code }, [])
  | .state st => ({ Header.plain 0x10 with st := st.code }, [])
  | .runtest (some st) n => ({ Header.plain 0x11 with st := st.code, sv := true }, [.word n])
  | .runtest none n => (Header.plain 0x11, [.word n])
  | .endir st => ({ Header.plain 0x12 with st := st.code }, [])
  | .enddr st => ({ Header.plain 0x13 with st := st.code }, [])
  | .frequency hz => (Header.plain 0x14, [.word hz])
  | .trst b => ({ Header.plain 0x15 with imm := BitVec.ofNat 16 b.toNat }, [])
  | .strict b => ({ Header.plain 0x16 with imm := BitVec.ofNat 16 b.toNat }, [])
  | .sir tdi smask tdo mask => (scanHeader 0x20 smask tdo mask, scanOperands tdi smask tdo mask)
  | .sdr tdi smask tdo mask => (scanHeader 0x21 smask tdo mask, scanOperands tdi smask tdo mask)
  | .hdr n => ({ Header.plain 0x22 with imm := n }, [])
  | .tdr n => ({ Header.plain 0x23 with imm := n }, [])
  | .hir n => ({ Header.plain 0x24 with imm := n }, [])
  | .tir n => ({ Header.plain 0x25 with imm := n }, [])
  | .chainscan => (Header.plain 0x30, [])
  | .devir k b => ({ Header.plain 0x31 with imm := k }, [.buf b])
  | .devdrw k b => ({ Header.plain 0x32 with imm := k }, [.buf b])
  | .devdrrw k b => ({ Header.plain 0x33 with imm := k }, [.buf b])

/-- The command that encodes an instruction. -/
def encode (i : Instr) : Command := ⟨(encodeFields i).1.toWord, (encodeFields i).2⟩

/-! ### Byte carriage -/

/-- A 32-bit value as 4 bytes, little-endian (30_encoding.md R61). -/
def wordBytes (w : Word) : List Byte :=
  (List.range 4).map fun j => BitVec.ofNat 8 (w.toNat >>> (8 * j))

/-- How many pad bytes follow `m` data bytes: up to the next multiple of 4 (30_encoding.md R61). -/
def padCount (m : Nat) : Nat := (4 - m % 4) % 4

/-- An operand as bytes: a WORD is 4 bytes; a BUF its length word, its bytes, zero bytes up to a multiple of
4 (30_encoding.md R61). For a length of 2^32 or more the length word cannot hold the length and no claim is
made of these bytes (log 13). -/
def Operand.toBytes : Operand → List Byte
  | .word w => wordBytes w
  | .buf b => wordBytes (BitVec.ofNat 32 b.len) ++ b.asBytes ++ List.replicate (padCount (byteCount b.len)) 0

/-- A command as bytes, in transmission order (30_encoding.md R61). -/
def Command.toBytes (c : Command) : List Byte :=
  wordBytes c.header ++ c.payload.flatMap Operand.toBytes

/-- The first `n` bytes and the rest; `none` if there are fewer. -/
def takeBytes (n : Nat) (bs : List Byte) : Option (List Byte × List Byte) :=
  if bs.length < n then none else some (bs.take n, bs.drop n)

/-- A little-endian 32-bit value and the rest (30_encoding.md R61). -/
def takeWord (bs : List Byte) : Option (Word × List Byte) :=
  match takeBytes 4 bs with
  | none => none
  | some (w, rest) => some (BitVec.ofNat 32 (bytesValue w), rest)

/-- A BUF and the rest. DESIGN CHOICE (log 6): the pad bytes are not looked at; the rule says they are zero
and gives no error for others. -/
def takeBufOperand (bs : List Byte) : Option (Operand × List Byte) :=
  match takeWord bs with
  | none => none
  | some (n, rest) =>
    let m := byteCount n.toNat
    match takeBytes (m + padCount m) rest with
    | none => none
    | some (data, rest') => some (.buf (BitBuffer.fromBytes n.toNat (data.take m)), rest')

/-- Number and kinds of the operands, from the header alone; `true` is a BUF (30_encoding.md R62, R69).
DESIGN CHOICE (log 5): an unassigned header carries no operands. -/
def payloadShape (h : Header) : List Bool :=
  match h.op.toNat with
  | 0x11 => [false]
  | 0x14 => [false]
  | 0x20 => true :: (List.replicate (h.fs.toNat + h.ft.toNat + h.fm.toNat) true)
  | 0x21 => true :: (List.replicate (h.fs.toNat + h.ft.toNat + h.fm.toNat) true)
  | 0x31 => [true]
  | 0x32 => [true]
  | 0x33 => [true]
  | _ => []

/-- Read operands of the given kinds; `none` while some byte is missing. -/
def takeOperands : List Bool → List Byte → Option (List Operand × List Byte)
  | [], bs => some ([], bs)
  | isBuf :: ks, bs =>
    match (if isBuf then takeBufOperand bs else (takeWord bs).map fun p => (Operand.word p.1, p.2)) with
    | none => none
    | some (o, rest) =>
      match takeOperands ks rest with
      | none => none
      | some (os, rest') => some (o :: os, rest')

/-- The first complete command of a byte stream and the bytes after it; `none` while it is incomplete
(30_encoding.md R59, R69). -/
def takeCommand (bs : List Byte) : Option (Command × List Byte) :=
  match takeWord bs with
  | none => none
  | some (w, rest) =>
    match takeOperands (payloadShape (Header.ofWord w)) rest with
    | none => none
    | some (os, rest') => some (⟨w, os⟩, rest')

/-- Decode the first command of a byte stream: `none` while it is incomplete, otherwise the instruction or
the refusal's name, and the bytes after the command. -/
def decodeBytes (bs : List Byte) : Option (Except DecodeError Instr × List Byte) :=
  (takeCommand bs).map fun p => (decode p.1, p.2)

/-- All complete commands of a byte stream, and the incomplete rest; `fuel` bounds their number. -/
def takeCommands : (fuel : Nat) → List Byte → List Command × List Byte
  | 0, bs => ([], bs)
  | fuel + 1, bs =>
    match takeCommand bs with
    | none => ([], bs)
    | some (c, rest) => let (cs, rest') := takeCommands fuel rest; (c :: cs, rest')

/-! ### The opcode table's words -/

/-- The bytes of an instruction of the opcode table: its `nbits` bits, least significant first word, each
word little-endian, then zeros for the longest payload of empty operands (four BUF length words). -/
def tableBytes (nbits w : Nat) : List Byte :=
  (List.range (nbits / 8)).map (fun j => BitVec.ofNat 8 (w >>> (8 * j))) ++ List.replicate 16 0

/-- The command those bytes carry. -/
def tableCommand (nbits w : Nat) : Option Command := (takeCommand (tableBytes nbits w)).map Prod.fst

/-- The instruction the decoder reads from a word of the opcode table. -/
def decodeTableWord (nbits w : Nat) : Option Instr :=
  match decodeBytes (tableBytes nbits w) with
  | some (.ok i, _) => some i
  | _ => none

end Sys2Proof
end

