-- ==== Sys2Proof/Machine/HostPort.lean ====
section
/-! DEFINITION. What the host can do between commands: read the register map, a buffer or an error record
(10_state.md R37, 20_memory.md R48), submit commands, assert the block reset (70_reset_and_hazards.md R160);
and the pins between cycles (10_state.md R22, R35). Reads are functions of the state and change nothing. -/

namespace Sys2Proof.Machine

/-! ### Register map -/

/-- The 32-bit word of a natural register; a value 32 bits cannot hold gives a free value (log 10). -/
def natWord (n : Nat) : Word := if n < 2 ^ 32 then BitVec.ofNat 32 n else Config.wideWord n

/-- ENDSTATE: [3:0] ENDIR code, [7:4] ENDDR code (10_state.md R37). -/
def State.endState32 (s : State) : Word := BitVec.ofNat 32 (s.endir.codeNat + s.enddr.codeNat * 2 ^ 4)

/-- DEV[k].INFO: [15:0] TABIDX, [16] KNOWN, [17] INFERRED (10_state.md R37). -/
def DevRec.info (d : DevRec) : Word :=
  BitVec.ofNat 32 (d.tabidx.toNat + d.known.toNat * 2 ^ 16 + d.inferred.toNat * 2 ^ 17)

/-- The word at byte offset `off` of the record of device k, `off` a multiple of 4 below 16; 0 for
`k >= NDEV` (10_state.md R37). -/
def State.readDev (s : State) (k off : Nat) : Word :=
  match s.devRec k with
  | none => 0
  | some d =>
    match off with
    | 0 => d.idcode
    | 4 => natWord d.irlen
    | 8 => d.info
    | 12 => natWord (s.irOff k)
    | _ => 0

/-- A register-map read at a byte address; 0 at an unmapped or unaligned address (10_state.md R37,
20_memory.md R47). -/
def State.readReg (s : State) (addr : Nat) : Word :=
  if addr % 4 ≠ 0 then 0
  else if 0x100 ≤ addr then s.readDev ((addr - 0x100) / 16) ((addr - 0x100) % 16)
  else
    match addr with
    | 0x000 => s.status
    | 0x004 => s.endState32
    | 0x008 => s.freq
    | 0x00C => BitVec.ofNat 32 s.seq
    | 0x010 => s.errCount
    | 0x014 => s.lastErr
    | 0x018 => s.lastErrSeq
    | 0x01C => natWord s.ndev
    | 0x020 => natWord s.irtotal
    | _ => 0

/-! ### Buffer reads -/

/-- The buffers the host can read whole (20_memory.md R48). -/
inductive BufName where
  | maskbuf | capbuf | rdbuf
deriving DecidableEq, Repr

/-- Read a buffer whole (20_memory.md R48). -/
def State.readBuf (s : State) : BufName → BitBuffer
  | .maskbuf => s.maskbuf
  | .capbuf => s.capbuf
  | .rdbuf => s.rdbuf

/-- The buffer as bytes: a 32-bit length word, then `as_bytes` (20_memory.md R48). DESIGN CHOICE (log 17): the
length word is little-endian; R48 gives it no byte order and R46 gives none to the host bus. -/
def State.readBufBytes (s : State) (b : BufName) : List Byte :=
  wordBytes (natWord (s.readBuf b).len) ++ (s.readBuf b).asBytes

/-- Entry i of ERRLOG as `(seq, kind, sub)` (20_memory.md R48, 60_exceptions.md R149). DESIGN CHOICE (log 19):
`none` when the log has no entry i; the rules do not say what such a read gives. -/
def State.readErr (s : State) (i : Nat) : Option (Nat × Nat × Nat) := (s.errlog[i]?).map ErrRec.codes

/-- The `name` of device k: `DEVICE_TABLE[TABIDX].name` (10_state.md R26). DESIGN CHOICE (log 18): `none` for a
device with KNOWN = 0, whose TABIDX is 0xFFFF, for a k that is no device, and for a TABIDX beyond the table; R26
gives these no name of their own. -/
def State.deviceName (s : State) (k : Nat) : Option String :=
  match s.devRec k with
  | none => none
  | some d => if d.known then (s.params.deviceTable[d.tabidx.toNat]?).map DeviceEntry.name else none

/-! ### Inputs -/

/-- The host submits a command; it is executed after those submitted before it (20_memory.md R51). -/
def State.submit (s : State) (c : Command) : State := { s with inputs := s.inputs ++ [.command c] }

/-- The host submits bytes: every complete command in them is submitted, and the incomplete rest is handed
back, never executed (30_encoding.md R59, 70_reset_and_hazards.md R164). -/
def State.submitBytes (s : State) (bs : List Byte) : State × List Byte :=
  let (cs, rest) := takeCommands bs.length bs
  ({ s with inputs := s.inputs ++ cs.map .command }, rest)

/-- The host asks for the block reset after the commands submitted before it (70_reset_and_hazards.md R160). -/
def State.requestReset (s : State) : State := { s with inputs := s.inputs ++ [.blockReset] }

/-- The block reset (70_reset_and_hazards.md R160): every piece of the block's state at its R39 value. The
parameters are not changed by it; it drives no cycle, so the environment's answers and the count of cycles
stay; what the host has submitted after it stays. -/
def State.blockReset (s : State) : State :=
  { State.reset with params := s.params, inputs := s.inputs, env := s.env, draws := s.draws }

/-! ### Pins -/

/-- Level of the nTRST pin, NOT TRST; `none` when the transport has no such line (10_state.md R22). -/
def State.nTrst (s : State) : Option Bool := if s.params.hasTrst then some (!s.trst) else none

/-- Level of TMS between cycles: unspecified, a free value no step reads (10_state.md R35, log 15). -/
def State.pinTms (s : State) : Bool := Config.idleTms s.draws

/-- Level of TDI between cycles: unspecified, a free value no step reads (10_state.md R35, log 15). -/
def State.pinTdi (s : State) : Bool := Config.idleTdi s.draws

end Sys2Proof.Machine
end

