-- ==== Sys2Proof/Machine/Issue.lean ====
section
/-! DEFINITION. Consuming the oldest pending input: what a step adds around the meaning of a command
(30_encoding.md R59, 60_exceptions.md R152 to R154, 70_reset_and_hazards.md R160, R164). -/

namespace Sys2Proof.Machine

/-- The error a refusal of the parse step records (60_exceptions.md R152 levels 1 to 3). -/
def decodeErrorCode : DecodeError → ErrorCode
  | .unknownCommand => .unknownCommand
  | .reservedField => .reservedField
  | .badPayload => .badPayload

/-- Run a command whose words are `c` with the meanings `run`: a refusal of the parse step is an error the
command raises, with no other effect (30_encoding.md R67, R68). -/
def runCommand (run : Instr → State → Answer) (c : Command) (s : State) : Answer :=
  match decode c with
  | .error e => complete (.raised (decodeErrorCode e) s)
  | .ok i => run i s

/-- One step over the pending inputs. No input: the block waits, nothing changes (log 16). A block reset is
done. A command is consumed; while ABORTED = 1 nothing else happens (60_exceptions.md R154), otherwise it is
executed. -/
def issue (run : Instr → State → Answer) (s : State) : Answer :=
  match s.inputs with
  | [] => .next s
  | .blockReset :: rest => .next ({ s with inputs := rest }).blockReset
  | .command c :: rest =>
    if s.aborted then .next { s with inputs := rest }
    else runCommand run c { s with inputs := rest }

/-- The state with the instruction of a word of the opcode table as the oldest pending input, so that the
next step runs it (log 1). While ABORTED = 1 the block runs no command, this one included. -/
def State.withCommandFirst (s : State) (c : Option Command) : State :=
  match c with
  | none => s
  | some c => { s with inputs := .command c :: s.inputs }

end Sys2Proof.Machine
end

