-- ==== Sys2Proof/Machine/Step.lean ====
section
/-! DEFINITION. One step of the machine: one pending input consumed (00_scope.md R7). -/

namespace Sys2Proof.Machine

/-- One step. -/
def step (s : State) : Host.Outcome State Fault Refusal := issue exec s

/-- `s` with the instruction whose table bits are `w` put where `step` takes its next command. -/
def State.withFetchWord (s : State) (nbits w : Nat) : State := s.withCommandFirst (tableCommand nbits w)

end Sys2Proof.Machine
end

