-- ==== Sys2Proof/Machine/SvfDirective.lean ====
section
/-! DEFINITION. The host's expansion of a parsed SVF directive into commands (30_encoding.md R70 to R72). The
text before parsing is out of scope (00_scope.md R5 item 7); this mapping is in scope. -/

namespace Sys2Proof

/-- A parsed directive of the assembler syntax. Hex operands are the numbers they denote; `len` is the bit
length all hex fields of one directive share (30_encoding.md R70 to R72). -/
inductive Directive where
  | sir (len tdi : Nat) (smask : Option Nat) (tdo : Option (Nat × Option Nat))
  | sdr (len tdi : Nat) (smask : Option Nat) (tdo : Option (Nat × Option Nat))
  | endir (st : TapState)
  | enddr (st : TapState)
  | state (sts : List TapState)
  | runtest (st : Option TapState) (count : Word)
  | frequency (hz : Word)
  | trst (on : Bool)
  | hdr (len : BitVec 16)
  | tdr (len : BitVec 16)
  | hir (len : BitVec 16)
  | tir (len : BitVec 16)
  | tapidle
  | goto (st : TapState)
  | strict (on : Bool)
  | chainscan
  | devir (k : BitVec 16) (hex len : Nat)
  | devdrw (k : BitVec 16) (hex len : Nat)
  | devdrrw (k : BitVec 16) (hex len : Nat)
  | unrecognized
deriving DecidableEq, Repr

/-- The number a hex string denotes, most significant digit first (30_encoding.md R71; the digit order is
the spec's own outside knowledge, 93 K5). -/
def hexValue (digits : List (Fin 16)) : Nat := digits.foldl (fun v d => v * 16 + d.val) 0

/-- SIR or SDR from its hex fields: MASK is nested inside TDO (30_encoding.md R62, R71, R72). -/
def scanInstr (f : BitBuffer → Option BitBuffer → Option BitBuffer → Option BitBuffer → Instr)
    (len tdi : Nat) (smask : Option Nat) (tdo : Option (Nat × Option Nat)) : Instr :=
  f (BitBuffer.ofNat len tdi) (smask.map (BitBuffer.ofNat len))
    (tdo.map fun p => BitBuffer.ofNat len p.1)
    ((tdo.bind Prod.snd).map (BitBuffer.ofNat len))

/-- The commands of a directive, in order (30_encoding.md R72). -/
def Directive.expand : Directive → List Command
  | .sir len tdi smask tdo => [encode (scanInstr .sir len tdi smask tdo)]
  | .sdr len tdi smask tdo => [encode (scanInstr .sdr len tdi smask tdo)]
  | .endir st => [encode (.endir st)]
  | .enddr st => [encode (.enddr st)]
  | .state sts => sts.map fun st => encode (.state st)
  | .runtest st n => [encode (.runtest st n)]
  | .frequency hz => [encode (.frequency hz)]
  | .trst on => [encode (.trst on)]
  | .hdr n => [encode (.hdr n)]
  | .tdr n => [encode (.tdr n)]
  | .hir n => [encode (.hir n)]
  | .tir n => [encode (.tir n)]
  | .tapidle => [encode .tapidle]
  | .goto st => [encode (.goto st)]
  | .strict on => [encode (.strict on)]
  | .chainscan => [encode .chainscan]
  | .devir k hex len => [encode (.devir k (BitBuffer.ofNat len hex))]
  | .devdrw k hex len => [encode (.devdrw k (BitBuffer.ofNat len hex))]
  | .devdrrw k hex len => [encode (.devdrrw k (BitBuffer.ofNat len hex))]
  | .unrecognized => [⟨0x00000000, []⟩]

end Sys2Proof
end

