-- ==== Sys2Proof/Safety.lean ====
section
/-! DEFINITION. What counts as a good state (`Inv`), and the words the statements are written in: which cycles a
command asks for, which answers the environment gives them, and which errors a command may record. -/

namespace Sys2Proof

/-- An `XFail` event. -/
def PinEvent.isXfail : PinEvent → Bool
  | .xfail _ _ => true
  | _ => false

/-- A `Clk` event. -/
def PinEvent.isClk : PinEvent → Bool
  | .clk _ _ _ _ => true
  | _ => false

/-- A `Clk` event in which TDO was sampled. -/
def PinEvent.sampled : PinEvent → Bool
  | .clk _ _ sampled _ => sampled
  | _ => false

/-- A `Clk` event holds a TDO bit exactly when it sampled (10_state.md R35). -/
def PinEvent.good : PinEvent → Prop
  | .clk _ _ sampled tdo => tdo.isSome = sampled
  | _ => True

end Sys2Proof

namespace Sys2Proof.Machine

/-! ### Cycles and answers -/

/-- The bits the environment answers the cycles `rs` with when they are driven from `s`; `none` if one of
them fails. A function of the state: the answers lined up, then the free ones (41_tap.md R100). -/
def answers : List CycleReq → State → Option (List Bool)
  | [], _ => some []
  | r :: rs, s =>
    match s.answer r with
    | .fail => none
    | .ok b => (answers rs (s.clocked r b)).map (b :: ·)

/-- The `Clk` events of the cycles `rs` answered with `bs`. -/
def clkEvents (rs : List CycleReq) (bs : List Bool) : List PinEvent := List.zipWith clkEvent rs bs

/-- The TMS levels of some cycles, in clock order. -/
def tmsOf (rs : List CycleReq) : List Bool := rs.map CycleReq.tms

/-- The cycles `rs` driven from `s` and answered with `bs`: their events, one FSM step each when the tracked
state is known, their answers used up (41_tap.md R100). -/
def State.drove (s : State) (rs : List CycleReq) (bs : List Bool) : State :=
  { s with
    trace := s.trace ++ clkEvents rs bs
    tap := s.tap.map fun t => walk t (tmsOf rs)
    env := s.env.drop rs.length
    draws := s.draws + rs.length }

/-- `s` with the cycles `rs` driven and answered with `bs`, the tracked state `t` reached, and one command
executed without an error: what all commands that only move or shift have in common. -/
def State.ranCycles (s : State) (rs : List CycleReq) (bs : List Bool) (t : TapState) : State :=
  { s with
    tap := some t
    trace := s.trace ++ clkEvents rs bs
    env := s.env.drop rs.length
    draws := s.draws + rs.length
    seq := s.seq + 1 }

/-- `s` after a command whose next cycle `r` failed when the cycles `rs` had been answered with `bs`: the
failed cycle is the last event, the tracked state is UNKNOWN, the TRANSPORT error is recorded and playback is
aborted (41_tap.md R100, 60_exceptions.md R153, R155). -/
def State.lostCycle (s : State) (rs : List CycleReq) (bs : List Bool) (r : CycleReq) : State :=
  { s with
    tap := none
    trace := s.trace ++ clkEvents rs bs ++ [.xfail r.tms r.tdi]
    env := s.env.drop (rs.length + 1)
    draws := s.draws + rs.length + 1
    seq := s.seq + 1
    errlog := s.errlog ++ [⟨s.seq, .cycleFail⟩]
    aborted := true }

/-- Of the cycles `rs`, driven from `s`, those before the cycle `r` are answered with `bs` and `r` fails. -/
def failsAt (rs : List CycleReq) (s : State) (pre : List CycleReq) (bs : List Bool) (r : CycleReq) : Prop :=
  (∃ post, rs = pre ++ r :: post) ∧ answers pre s = some bs ∧ (s.drove pre bs).answer r = .fail

/-- The cycles of `ShiftData` from the tracked state `t` (41_tap.md R103). -/
def shiftReqs (tdiIdle : Bool) (t : TapState) (reg : ScanReg) (d : BitBuffer) (capture : Bool)
    (fin : TapState) : List CycleReq :=
  tmsReqs tdiIdle (rom t reg.shift) ++ dataReqs d capture ++ tmsReqs tdiIdle (rom reg.exit1 fin)

/-- The samples of the data cycles among the answers to `shiftReqs`. -/
def dataBits (t : TapState) (reg : ScanReg) (d : BitBuffer) (bs : List Bool) : List Bool :=
  (bs.drop (rom t reg.shift).length).take d.len

/-- The TMS path to `st`: the ROM entry from a known tracked state, RESETSEQ from UNKNOWN, where only RESET is
a valid target (41_tap.md R96). -/
def movePath : Option TapState → TapState → List Bool
  | some t, st => rom t st
  | none, _ => [true, true, true, true, true]

/-- The checks of a SIR or SDR pass up to the tracked state: FM only with FT, at least one bit, every operand
of the same length, tracked state known (43_svf_scan.md R124). -/
def scanReady (tdi : BitBuffer) (smask tdo mask : Option BitBuffer) (s : State) : Prop :=
  (mask ≠ none → tdo ≠ none) ∧ tdi.len ≠ 0 ∧
  (∀ x, smask = some x ∨ tdo = some x ∨ mask = some x → x.len = tdi.len) ∧ s.tap ≠ none

/-- The mask a TDO check of `n` bits uses: the MASK operand, else the sticky mask, else all ones under
ALL_ONES, else none (43_svf_scan.md R125). -/
def usedMask (mask : Option BitBuffer) (n : Nat) (s : State) : Option BitBuffer :=
  match mask, s.mask, s.params.noMaskPolicy with
  | some m, _, _ => some m
  | none, some m, _ => some m
  | none, none, .allOnes => some (BitBuffer.ones n)
  | none, none, .error => none

/-- A per-device command on device `k` passes the checks all three share (42_chain.md R118). -/
def deviceReady (k : Nat) (bits : BitBuffer) (s : State) : Prop :=
  bits.len ≠ 0 ∧ s.tap ≠ none ∧ s.chainv = true ∧ k < s.ndev

/-- The cycles of a CHAINSCAN that finds `n` devices, with `FLUSH_SIZE = f` (42_chain.md R115, R117). -/
def chainscanReqs (tdiIdle : Bool) (f n : Nat) : List CycleReq :=
  tmsReqs tdiIdle idleSeq ++ shiftReqs tdiIdle .idle .ir (BitBuffer.ones f) false .idle
    ++ shiftReqs tdiIdle .idle .dr (flushPattern f) true .idle
    ++ shiftReqs tdiIdle .idle .ir (flushPattern f) true .idle
    ++ tmsReqs tdiIdle idleSeq ++ shiftReqs tdiIdle .idle .dr (BitBuffer.ones (32 * n)) true .idle

/-- `s` after a CHAINSCAN that drove the cycles `rs`, answered with `bs`, and then raised the PROTOCOL error `e`:
no chain table, the tracked state UNKNOWN, the record, and ABORTED by the policy (42_chain.md R116,
60_exceptions.md R153, R155). -/
def State.probeRefused (s : State) (rs : List CycleReq) (bs : List Bool) (e : ErrorCode) : State :=
  { (s.clearChain).ranCycles rs bs .idle with
    tap := none
    errlog := s.errlog ++ [⟨s.seq, e⟩]
    aborted := s.aborted || s.strict }

/-- The samples of a register path of `old.length` cells holding `old` (the cell nearest TDO first) while
`d` is shifted in: its old content, then the bits driven that many cycles earlier (42_chain.md R111, the
spec's own outside knowledge, 93 K9). -/
def pathSamples (old : List Bool) (d : BitBuffer) : List Bool := (old ++ d.bits).take d.len

/-! ### What a command leaves alone -/

/-- `t` has the chain table of `s` (10_state.md R25, R26). -/
def sameChain (s t : State) : Prop :=
  t.chainv = s.chainv ∧ t.ndev = s.ndev ∧ t.irtotal = s.irtotal ∧ t.irmismatch = s.irmismatch ∧ t.dev = s.dev

/-- The pin events of a command: what it appended to TRACE. -/
def newEvents (s t : State) : List PinEvent := t.trace.drop s.trace.length

/-! ### Errors a command may record -/

/-- The errors of a command, row by row of 60_exceptions.md R159. -/
def errorsOf : Instr → List ErrorCode
  | .tapidle => [.reservedField, .badPayload, .cycleFail]
  | .goto _ => [.reservedField, .badPayload, .stateUnknown, .cycleFail]
  | .state _ => [.reservedField, .badPayload, .stateUnknown, .cycleFail]
  | .runtest _ _ => [.reservedField, .badPayload, .badState, .stateUnknown, .cycleFail]
  | .endir _ => [.reservedField, .badPayload, .badState]
  | .enddr _ => [.reservedField, .badPayload, .badState]
  | .frequency _ => [.reservedField, .badPayload, .badValue]
  | .trst _ => [.reservedField, .badPayload]
  | .strict _ => [.reservedField, .badPayload]
  | .sir _ _ _ _ => [.reservedField, .badPayload, .zeroLength, .lengthMismatch, .stateUnknown, .noStickyMask,
      .tdoMismatch, .cycleFail]
  | .sdr _ _ _ _ => [.reservedField, .badPayload, .zeroLength, .lengthMismatch, .stateUnknown, .noStickyMask,
      .tdoMismatch, .cycleFail]
  | .hdr _ => [.reservedField, .badPayload, .unsupportedHeader]
  | .tdr _ => [.reservedField, .badPayload, .unsupportedHeader]
  | .hir _ => [.reservedField, .badPayload, .unsupportedHeader]
  | .tir _ => [.reservedField, .badPayload, .unsupportedHeader]
  | .chainscan => [.reservedField, .badPayload, .flushNone, .flushMulti, .noDevices, .cycleFail]
  | .devir _ _ => [.reservedField, .badPayload, .zeroLength, .stateUnknown, .noChain, .badDevice,
      .lengthMismatch, .cycleFail]
  | .devdrw _ _ => [.reservedField, .badPayload, .zeroLength, .stateUnknown, .noChain, .badDevice, .cycleFail]
  | .devdrrw _ _ => [.reservedField, .badPayload, .zeroLength, .stateUnknown, .noChain, .badDevice, .cycleFail]

/-! ### Refused headers and payloads -/

/-- The OP field of a header (30_encoding.md R60). -/
def opOf (w : Word) : Nat := w.toNat / 2 ^ 24

/-- The assigned opcodes (30_encoding.md R63). -/
def assignedOps : List Nat :=
  [0x01, 0x02, 0x10, 0x11, 0x12, 0x13, 0x14, 0x15, 0x16, 0x20, 0x21, 0x22, 0x23, 0x24, 0x25, 0x30, 0x31,
   0x32, 0x33]

/-- A header bit that the command of this opcode does not use is 1, or RUNTEST has SV = 0 and ST not 0
(30_encoding.md R66): row by row of "header fields used" in R63, as numbers. -/
def reservedBitSet (w : Word) : Prop :=
  (opOf w ∈ [0x01, 0x14, 0x30] ∧ w.toNat % 2 ^ 24 ≠ 0) ∨
  (opOf w ∈ [0x02, 0x10, 0x12, 0x13] ∧ w.toNat % 2 ^ 20 ≠ 0) ∨
  (opOf w = 0x11 ∧ (w.toNat % 2 ^ 19 ≠ 0 ∨ (w.toNat / 2 ^ 19 % 2 = 0 ∧ w.toNat / 2 ^ 20 % 2 ^ 4 ≠ 0))) ∨
  (opOf w ∈ [0x15, 0x16] ∧ 2 ≤ w.toNat % 2 ^ 24) ∨
  (opOf w ∈ [0x20, 0x21] ∧ (w.toNat % 2 ^ 16 ≠ 0 ∨ w.toNat / 2 ^ 19 % 2 ^ 5 ≠ 0)) ∨
  (opOf w ∈ [0x22, 0x23, 0x24, 0x25, 0x31, 0x32, 0x33] ∧ w.toNat / 2 ^ 16 % 2 ^ 8 ≠ 0)

/-- The payload has the shape the header fixes, FM = 1 only with FT = 1 (30_encoding.md R62, 60_exceptions.md
R152 level 3). -/
def payloadFits (c : Command) : Prop :=
  (opOf c.header ∈ [0x01, 0x02, 0x10, 0x12, 0x13, 0x15, 0x16, 0x22, 0x23, 0x24, 0x25, 0x30] ∧ c.payload = []) ∨
  (opOf c.header ∈ [0x11, 0x14] ∧ ∃ w, c.payload = [.word w]) ∨
  (opOf c.header ∈ [0x31, 0x32, 0x33] ∧ ∃ b, c.payload = [.buf b]) ∨
  (opOf c.header ∈ [0x20, 0x21] ∧ ∃ (tdi : BitBuffer) (smask tdo mask : Option BitBuffer),
    c.payload = .buf tdi :: (smask.toList ++ tdo.toList ++ mask.toList).map .buf ∧
    (smask.isSome = true ↔ c.header.toNat / 2 ^ 16 % 2 = 1) ∧
    (tdo.isSome = true ↔ c.header.toNat / 2 ^ 18 % 2 = 1) ∧
    (mask.isSome = true ↔ c.header.toNat / 2 ^ 17 % 2 = 1) ∧
    (mask.isSome = true → tdo.isSome = true))

/-- `s` after a command that raised the FORMAT error `e` and did nothing else: the record, SEQ, and ABORTED
by the policy (60_exceptions.md R150, R153). -/
def State.refusedWith (s : State) (e : ErrorCode) : State :=
  { s with
    errlog := s.errlog ++ [⟨s.seq, e⟩]
    seq := s.seq + 1
    aborted := s.aborted || e.fatal || s.strict }

/-! ### Good states -/

/-- The TMS levels the chain has certainly seen, after one more event: a failed cycle and an asserted test-reset
line lose them (70_reset_and_hazards.md R163, R172). -/
def seenAfter (seen : List Bool) : PinEvent → List Bool
  | .clk tms _ _ _ => seen ++ [tms]
  | .xfail _ _ => []
  | .trst asserted => if asserted then [] else seen
  | .dwell _ => seen

/-- The TMS levels the chain has certainly seen, in order, since the last event that lost them. -/
def knownTms (trace : List PinEvent) : List Bool := trace.foldl seenAfter []

/-- The tracked state is true of every chain that follows the standard FSM: from whatever TAP state the chain
was in, the TMS levels it has seen lead to it (10_state.md R17, R36). -/
def tracksChain (s : State) : Prop :=
  ∀ t, s.tap = some t → ∀ start, walk start (knownTms s.trace) = t

/-- A device record as Identify and the inference leave it (42_chain.md R113, R114). -/
def DevRec.good (d : DevRec) : Prop :=
  (d.known = true → d.inferred = false) ∧
  (d.known = false → d.tabidx = 0xFFFF) ∧
  (d.known = false → d.inferred = false → d.irlen = 0)

/-- The states a run can be in. -/
structure Inv (s : State) : Prop where
  /-- ENDIR is IDLE or IRPAUSE (10_state.md R18) -/
  endir_legal : s.endir = .idle ∨ s.endir = .irpause
  /-- ENDDR is IDLE or DRPAUSE (10_state.md R19) -/
  enddr_legal : s.enddr = .idle ∨ s.enddr = .drpause
  /-- no chain table: NDEV, IRTOTAL, IRMISMATCH are 0 and there are no records (10_state.md R25) -/
  chain_absent : s.chainv = false → s.ndev = 0 ∧ s.irtotal = 0 ∧ s.irmismatch = false ∧ s.dev = []
  /-- a valid chain table has at least one device (42_chain.md R115) -/
  chain_nonempty : s.chainv = true → 0 < s.ndev
  /-- one record a device (10_state.md R26) -/
  chain_length : s.dev.length = s.ndev
  /-- IRMISMATCH is exactly the failed length check (10_state.md R29) -/
  chain_check : s.chainv = true → (s.irmismatch = true ↔ irlenSum s.dev ≠ s.irtotal)
  /-- every record is as CHAINSCAN writes it -/
  dev_good : ∀ d ∈ s.dev, d.good
  /-- at most one record a command, in order (60_exceptions.md R149) -/
  errlog_ordered : (s.errlog.map ErrRec.seq).Pairwise (· < ·)
  /-- records name executed commands (10_state.md R32) -/
  errlog_past : ∀ r ∈ s.errlog, r.seq < s.seq
  /-- playback was aborted by an error (10_state.md R24) -/
  aborted_cause : s.aborted = true → s.errlog ≠ []
  /-- a fatal error has aborted playback (60_exceptions.md R153) -/
  fatal_aborted : s.aborted = false → ∀ r ∈ s.errlog, r.err.fatal = false
  /-- sampled bits stand exactly in sampled cycles (10_state.md R35) -/
  trace_good : ∀ e ∈ s.trace, e.good
  /-- the tracked state is what the chain's FSM has been driven to -/
  tracked : tracksChain s

end Sys2Proof.Machine
end

