-- ==== Sys2Proof/Certificates/Slice0/Obligations.lean ====
section
/-! DEFINITION. The statements about the block, in the words of Safety.lean. Each docstring names the rule of
spec/ it formalises. The block has no data memory (20_memory.md R41): a frame is the equality of the next
state with the old one, updated in the fields named. -/

open Sys2Proof Sys2Proof.Machine

/-! ### Encoding -/

/-- 30_encoding.md R73: each example text is its header word and payload, and decodes to the command it
stands for; and the bytes of one of them. -/
def Obligations.SpecExampleWords : Prop :=
  (∀ x ∈ ([
      (.tapidle, ⟨0x01000000, []⟩, .tapidle),
      (.goto .irshift, ⟨0x02B00000, []⟩, .goto .irshift),
      (.state [.reset], ⟨0x10000000, []⟩, .state .reset),
      (.state [.idle], ⟨0x10100000, []⟩, .state .idle),
      (.runtest none 100, ⟨0x11000000, [.word 100]⟩, .runtest none 100),
      (.runtest (some .idle) 100, ⟨0x11180000, [.word 100]⟩, .runtest (some .idle) 100),
      (.endir .irpause, ⟨0x12D00000, []⟩, .endir .irpause),
      (.enddr .drpause, ⟨0x13600000, []⟩, .enddr .drpause),
      (.frequency 1000000, ⟨0x14000000, [.word 1000000]⟩, .frequency 1000000),
      (.trst true, ⟨0x15000001, []⟩, .trst true),
      (.strict true, ⟨0x16000001, []⟩, .strict true)] : List (Directive × Command × Instr)),
    x.1.expand = [x.2.1] ∧ decode x.2.1 = .ok x.2.2) ∧
  (∀ x ∈ ([
      (.sir 8 0xfe none none, ⟨0x20000000, [.buf (BitBuffer.ofNat 8 0xFE)]⟩,
        .sir (BitBuffer.ofNat 8 0xFE) none none none),
      (.sdr 32 0 none (some (0x12345678, none)),
        ⟨0x21040000, [.buf (BitBuffer.ofNat 32 0), .buf (BitBuffer.ofNat 32 0x12345678)]⟩,
        .sdr (BitBuffer.ofNat 32 0) none (some (BitBuffer.ofNat 32 0x12345678)) none),
      (.sdr 8 0 none (some (0xa5, some 0xfe)),
        ⟨0x21060000, [.buf (BitBuffer.ofNat 8 0), .buf (BitBuffer.ofNat 8 0xA5), .buf (BitBuffer.ofNat 8 0xFE)]⟩,
        .sdr (BitBuffer.ofNat 8 0) none (some (BitBuffer.ofNat 8 0xA5)) (some (BitBuffer.ofNat 8 0xFE))),
      (.sir 6 0x3f (some 0x3f) none,
        ⟨0x20010000, [.buf (BitBuffer.ofNat 6 0x3F), .buf (BitBuffer.ofNat 6 0x3F)]⟩,
        .sir (BitBuffer.ofNat 6 0x3F) (some (BitBuffer.ofNat 6 0x3F)) none none),
      (.hdr 0, ⟨0x22000000, []⟩, .hdr 0),
      (.chainscan, ⟨0x30000000, []⟩, .chainscan),
      (.devir 2 0x09 6, ⟨0x31000002, [.buf (BitBuffer.ofNat 6 0x09)]⟩, .devir 2 (BitBuffer.ofNat 6 0x09)),
      (.devdrrw 1 0 32, ⟨0x33000001, [.buf (BitBuffer.ofNat 32 0)]⟩, .devdrrw 1 (BitBuffer.ofNat 32 0))] :
      List (Directive × Command × Instr)),
    x.1.expand = [x.2.1] ∧ decode x.2.1 = .ok x.2.2) ∧
  (Command.toBytes ⟨0x20000000, [.buf (BitBuffer.ofNat 8 0xFE)]⟩ =
    [0x00, 0x00, 0x00, 0x20, 0x08, 0x00, 0x00, 0x00, 0xFE, 0x00, 0x00, 0x00])

/-- Decode and encode agree on bytes: the bytes of a well-formed command whose operand lengths fit the length
word, whatever bytes follow, decode to that command and leave those bytes (30_encoding.md R61, R62, R69). -/
def Obligations.EncodedBytesDecodeBack : Prop :=
  ∀ (i : Instr) (rest : List Byte), i.wellFormed = true → (encode i).carriable = true →
    decodeBytes ((encode i).toBytes ++ rest) = some (.ok i, rest)

/-- 30_encoding.md R66, R67, R68: an unassigned opcode records UNKNOWN_COMMAND, a 1 in a header bit an assigned
command does not use records RESERVED_FIELD whatever the payload, a payload of another shape records
BAD_PAYLOAD; each is one record, and nothing else of the command runs. -/
def Obligations.RefusedCommandsRecordTheirError : Prop :=
  ∀ (s : State) (c : Command) (rest : List HostInput), s.inputs = .command c :: rest → s.aborted = false →
    (opOf c.header ∉ assignedOps → step s = .next (({ s with inputs := rest }).refusedWith .unknownCommand)) ∧
    (reservedBitSet c.header → step s = .next (({ s with inputs := rest }).refusedWith .reservedField)) ∧
    (opOf c.header ∈ assignedOps → ¬ reservedBitSet c.header → ¬ payloadFits c →
      step s = .next (({ s with inputs := rest }).refusedWith .badPayload))

/-- The parse step accepts exactly the commands that pass levels 1 to 3 of 60_exceptions.md R152, and a command
it accepts is the encoding of what it reads, so no two commands decode to one instruction (30_encoding.md R60,
R62, R63, R66). -/
def Obligations.ParseAcceptsExactlyTheEncodings : Prop :=
  (∀ c : Command, (∃ i, decode c = .ok i) ↔
    (opOf c.header ∈ assignedOps ∧ ¬ reservedBitSet c.header ∧ payloadFits c)) ∧
  (∀ (c : Command) (i : Instr), decode c = .ok i → encode i = c ∧ i.wellFormed = true)

/-- 30_encoding.md R59, R69, 70_reset_and_hazards.md R164: the bytes of a command cut short submit nothing;
the whole of them submit that one command. -/
def Obligations.IncompleteCommandNeverSubmitted : Prop :=
  ∀ (s : State) (i : Instr), (encode i).carriable = true →
    s.submitBytes (encode i).toBytes = (s.submit (encode i), []) ∧
    ∀ n, n < (encode i).toBytes.length →
      s.submitBytes ((encode i).toBytes.take n) = (s, (encode i).toBytes.take n)

/-! ### The step -/

/-- A step runs the decoded command: the oldest pending input is a command that decodes to `i`, playback is
not aborted, and the step is the meaning of `i` with the command consumed. The word of the opcode table that
`withFetchWord` places is such an input. With no input pending the block waits and nothing changes: that is
the model's choice (log 16). -/
def Obligations.StepRunsDecodedCommand : Prop :=
  (∀ (s : State) (c : Command) (rest : List HostInput) (i : Instr), s.inputs = .command c :: rest →
    s.aborted = false → decode c = .ok i → step s = exec i { s with inputs := rest }) ∧
  (∀ (s : State) (nbits w : Nat) (i : Instr), s.aborted = false → decodeTableWord nbits w = some i →
    step (s.withFetchWord nbits w) = exec i s) ∧
  (∀ s : State, s.inputs = [] → step s = .next s)

/-- 60_exceptions.md R154: while ABORTED = 1 a command is consumed and ignored, and only the block reset
clears ABORTED. -/
def Obligations.AbortedBlockIgnoresCommands : Prop :=
  (∀ (s : State) (c : Command) (rest : List HostInput), s.aborted = true → s.inputs = .command c :: rest →
    step s = .next { s with inputs := rest }) ∧
  (∀ s t : State, s.aborted = true → step s = .next t →
    t.aborted = true ∨ s.inputs.head? = some .blockReset)

/-- 10_state.md R39: the value of every piece of state after the block reset. That the two pin levels the rule
leaves unspecified are free values of the cycle count is the model's choice (log 15). -/
def Obligations.ResetValues : Prop :=
  State.reset.tap = none ∧ State.reset.tapCode = 0 ∧ State.reset.endir = .idle ∧ State.reset.enddr = .idle ∧
  State.reset.maskv = false ∧ State.reset.maskbuf = BitBuffer.empty ∧ State.reset.freq = 0 ∧
  State.reset.trst = false ∧ State.reset.strict = false ∧ State.reset.aborted = false ∧
  State.reset.chainv = false ∧ State.reset.ndev = 0 ∧ State.reset.irtotal = 0 ∧
  State.reset.irmismatch = false ∧ State.reset.dev = [] ∧ State.reset.capbuf = BitBuffer.empty ∧
  State.reset.rdbuf = BitBuffer.empty ∧ State.reset.seq = 0 ∧ State.reset.errlog = [] ∧ State.reset.trace = [] ∧
  State.reset.pinTms = Config.idleTms State.reset.draws ∧ State.reset.pinTdi = Config.idleTdi State.reset.draws

/-- 70_reset_and_hazards.md R160: the block reset, asked for between commands, puts every piece of the block's
state at its reset value, drives no cycle and changes no parameter; nTRST is released, with no event. That the
inputs after it stay pending is the model's reading (log 2), and that the environment's `env` and `draws` stay is
how the model says that no cycle is driven (log 2, log 3). -/
def Obligations.BlockResetRestores : Prop :=
  ∀ (s : State) (rest : List HostInput), s.inputs = .blockReset :: rest →
    ∃ t, step s = .next t ∧
      t.tap = none ∧ t.endir = .idle ∧ t.enddr = .idle ∧ t.mask = none ∧ t.freq = 0 ∧ t.trst = false ∧
      t.strict = false ∧ t.aborted = false ∧ t.chainv = false ∧ t.ndev = 0 ∧ t.irtotal = 0 ∧
      t.irmismatch = false ∧ t.dev = [] ∧ t.capbuf = BitBuffer.empty ∧ t.rdbuf = BitBuffer.empty ∧
      t.seq = 0 ∧ t.errlog = [] ∧ t.trace = [] ∧
      t.params = s.params ∧ t.env = s.env ∧ t.draws = s.draws ∧ t.inputs = rest ∧
      (s.params.hasTrst = true → t.nTrst = some true)

/-- 60_exceptions.md R156, R157: an error is a record, never a stop, and no command reaches a model fault. -/
def Obligations.NoCommandStops : Prop :=
  (∀ (i : Instr) (s : State), ∃ t, exec i s = .next t) ∧ (∀ s : State, ∃ t, step s = .next t)

/-! ### Invariants -/

/-- The state after reset is a good state. -/
def Obligations.ResetIsGood : Prop := Inv State.reset

/-- Every step keeps the good states: legal end states, a consistent chain table, an ordered error log, a
well-formed trace, a tracked state the chain has really been driven to. -/
def Obligations.StepKeepsInvariant : Prop :=
  ∀ s t : State, Inv s → step s = .next t → Inv t

/-- 10_state.md R17, 41_tap.md R105: the tracked state, whenever it is known, is the state every standard
TAP FSM has been driven to, whatever state it started in; every step keeps that. -/
def Obligations.TrackedStateFollowsChain : Prop :=
  ∀ s t : State, tracksChain s → step s = .next t → tracksChain t

/-! ### Rules over all commands -/

/-- 60_exceptions.md R149, 10_state.md R32, 20_memory.md R51: an executed command counts once, appends its pin
events to TRACE and at most one record, with its own SEQ, to ERRLOG; it touches neither the inputs nor the
parameters. -/
def Obligations.CommandAppendsTraceAndOneRecord : Prop :=
  ∀ (i : Instr) (s t : State), exec i s = .next t →
    t.seq = s.seq + 1 ∧ (∃ ev, t.trace = s.trace ++ ev) ∧
    (t.errlog = s.errlog ∨ ∃ e, t.errlog = s.errlog ++ [⟨s.seq, e⟩]) ∧
    t.inputs = s.inputs ∧ t.params = s.params

/-- 60_exceptions.md R150: a command that records a FORMAT error does nothing else. -/
def Obligations.FormatErrorHasNoOtherEffect : Prop :=
  ∀ (i : Instr) (s t : State) (e : ErrorCode), exec i s = .next t → t.errlog = s.errlog ++ [⟨s.seq, e⟩] →
    e.kind = kindFormat → t = s.refusedWith e

/-- 60_exceptions.md R153: at the end of every executed command, one refused by the parse step included, SEQ
counts it; ABORTED is set by a TRANSPORT error, by NO_STICKY_MASK, and by any error when STRICT = 1, and by
nothing else. -/
def Obligations.AbortPolicy : Prop :=
  ∀ (s t : State) (c : Command) (rest : List HostInput), s.inputs = .command c :: rest → s.aborted = false →
    step s = .next t →
    t.seq = s.seq + 1 ∧
    (t.aborted = true ↔ ∃ e, t.errlog = s.errlog ++ [⟨s.seq, e⟩] ∧
      (e.kind = kindTransport ∨ e = .noStickyMask ∨ t.strict = true))

/-- 60_exceptions.md R159: which errors each command can record; RUNTEST fails a cycle only with SV = 1 or
under RUNTEST_CLOCKS; an unassigned OP records UNKNOWN_COMMAND and an assigned one never does. -/
def Obligations.ErrorsPerCommand : Prop :=
  (∀ (i : Instr) (s t : State) (e : ErrorCode), exec i s = .next t → t.errlog = s.errlog ++ [⟨s.seq, e⟩] →
    e ∈ errorsOf i ∧
    (∀ n, i = .runtest none n → s.params.runtestClocks = false → e ≠ .cycleFail)) ∧
  (∀ (c : Command) (e : DecodeError), decode c = .error e →
    (e = .unknownCommand ↔ opOf c.header ∉ assignedOps))

/-- 41_tap.md R100, 60_exceptions.md R155, R156: a failed cycle is the command's last pin event, with no other
failed cycle before it; the tracked state is UNKNOWN, the TRANSPORT error is recorded, playback is aborted,
captures are unwritten and, but inside CHAINSCAN, the chain table is unchanged. -/
def Obligations.FailedCycleEndsCommand : Prop :=
  ∀ (i : Instr) (s t : State) (tms tdi : Bool), exec i s = .next t → .xfail tms tdi ∈ newEvents s t →
    (∃ ev, newEvents s t = ev ++ [.xfail tms tdi] ∧ ∀ e ∈ ev, e.isXfail = false) ∧
    t.tap = none ∧ t.errlog = s.errlog ++ [⟨s.seq, .cycleFail⟩] ∧ t.aborted = true ∧
    t.capbuf = s.capbuf ∧ t.rdbuf = s.rdbuf ∧ (i ≠ .chainscan → sameChain s t)

/-- 10_state.md R28: no command other than CHAINSCAN writes a field of the chain table. -/
def Obligations.ChainTableImmutable : Prop :=
  ∀ (i : Instr) (s t : State), exec i s = .next t → i ≠ .chainscan → sameChain s t

/-- Who writes what (10_state.md R18 to R23, R30, R31): each register is unchanged by every command but those
its rule names. -/
def Obligations.RegistersWrittenOnlyByTheirCommands : Prop :=
  ∀ (i : Instr) (s t : State), exec i s = .next t →
    (t.endir = s.endir ∨ ∃ st, i = .endir st) ∧
    (t.enddr = s.enddr ∨ ∃ st, i = .enddr st) ∧
    (t.freq = s.freq ∨ ∃ hz, i = .frequency hz) ∧
    (t.trst = s.trst ∨ ∃ b, i = .trst b) ∧
    (t.strict = s.strict ∨ ∃ b, i = .strict b) ∧
    (t.mask = s.mask ∨ ∃ tdi sm e m, (i = .sir tdi sm (some e) (some m) ∨ i = .sdr tdi sm (some e) (some m)) ∧
      t.mask = some m) ∧
    (t.capbuf = s.capbuf ∨ (∃ tdi sm e m, i = .sir tdi sm (some e) m ∨ i = .sdr tdi sm (some e) m) ∨
      ∃ k b, i = .devdrrw k b) ∧
    (t.rdbuf = s.rdbuf ∨ ∃ k b, i = .devdrrw k b)

/-- 10_state.md R21, 44_svf_control.md R140: no command but FREQUENCY depends on FREQ (two runs that differ in
FREQ alone end in states that differ in FREQ alone); FREQ gives the duration of a wait of `n` periods,
`2 * n / FREQ` seconds, and `2 * n` default half periods while it is 0. -/
def Obligations.FrequencyIsTimingOnly : Prop :=
  (∀ (i : Instr) (s t : State) (f : Word), (∀ hz, i ≠ .frequency hz) → exec i s = .next t →
    exec i { s with freq := f } = .next { t with freq := f }) ∧
  (∀ (s : State) (n : Nat),
    (s.freq ≠ 0 → s.dwellDuration n = ⟨2 * n, s.freq.toNat⟩) ∧
    (s.freq = 0 → s.dwellDuration n =
      ⟨2 * n * s.params.defaultHalfPeriod.num, s.params.defaultHalfPeriod.den⟩))

/-! ### TAP state machine -/

/-- 41_tap.md R95, on the FSM table of R93 (the spec's own outside knowledge, log 7): RESETSEQ and IDLESEQ from
every state; no shorter sequence of ones resets every state, and four ones leave six states short. -/
def Obligations.FiveOnesReset : Prop :=
  resetSeq = [true, true, true, true, true] ∧ idleSeq = [true, true, true, true, true, false] ∧
  (∀ s, walk s [true, true, true, true, true] = .reset) ∧
  (∀ s, walk s [true, true, true, true, true, false] = .idle) ∧
  (∀ n, (∀ s, walk s (List.replicate n true) = .reset) → 5 ≤ n) ∧
  (∀ s, walk s [true, true, true, true] ≠ .reset ↔
    s ∈ [TapState.drcapture, .drshift, .drpause, .ircapture, .irshift, .irpause]) ∧
  walk .drshift [true, true, true, true] = .irselect

/-- 41_tap.md R96, R97, on the FSM table of R93 (the spec's own outside knowledge, log 7): `transition_bits` is
the ROM from a known state, empty where it is already there, and five ones from UNKNOWN to RESET only; every ROM
entry leads where it says and is the one shortest sequence that does. -/
def Obligations.TransitionBitsAreUniqueShortestPaths : Prop :=
  (∀ t, transitionBits none t = if t = .reset then some [true, true, true, true, true] else none) ∧
  (∀ a b : TapState, transitionBits (some a) b = some (rom a b) ∧ rom a a = [] ∧ walk a (rom a b) = b ∧
    ∀ seq, walk a seq = b → (rom a b).length ≤ seq.length ∧ (seq.length = (rom a b).length → seq = rom a b))

/-- 41_tap.md R107: TAPIDLE drives 1,1,1,1,1,0 from every tracked state and ends in IDLE; a failed cycle ends
it there. -/
def Obligations.TapidleResetsToIdle : Prop :=
  decode ⟨0x01000000, []⟩ = .ok .tapidle ∧
  ∀ s : State,
    (∀ bs, answers (tmsReqs s.params.tdiIdle [true, true, true, true, true, false]) s = some bs →
      exec .tapidle s =
        .next (s.ranCycles (tmsReqs s.params.tdiIdle [true, true, true, true, true, false]) bs .idle)) ∧
    (∀ pre bs r, failsAt (tmsReqs s.params.tdiIdle [true, true, true, true, true, false]) s pre bs r →
      exec .tapidle s = .next (s.lostCycle pre bs r))

/-- 41_tap.md R106: GOTO st drives the ROM path (RESETSEQ from UNKNOWN, to RESET only) and ends in st. -/
def Obligations.GotoMovesAlongRom : Prop :=
  ∀ (st : TapState) (s : State),
    (s.tap = none → st ≠ .reset → exec (.goto st) s = .next (s.refusedWith .stateUnknown)) ∧
    ((s.tap = none → st = .reset) →
      (∀ bs, answers (tmsReqs s.params.tdiIdle (movePath s.tap st)) s = some bs →
        exec (.goto st) s = .next (s.ranCycles (tmsReqs s.params.tdiIdle (movePath s.tap st)) bs st)) ∧
      (∀ pre bs r, failsAt (tmsReqs s.params.tdiIdle (movePath s.tap st)) s pre bs r →
        exec (.goto st) s = .next (s.lostCycle pre bs r)))

/-- 44_svf_control.md R138: STATE RESET always drives five ones; STATE st drives the ROM path and needs a known
tracked state. -/
def Obligations.StateMovesTap : Prop :=
  ∀ (st : TapState) (s : State),
    (st ≠ .reset → s.tap = none → exec (.state st) s = .next (s.refusedWith .stateUnknown)) ∧
    ((st ≠ .reset → s.tap ≠ none) →
      let path := if st = .reset then [true, true, true, true, true] else movePath s.tap st
      (∀ bs, answers (tmsReqs s.params.tdiIdle path) s = some bs →
        exec (.state st) s = .next (s.ranCycles (tmsReqs s.params.tdiIdle path) bs st)) ∧
      (∀ pre bs r, failsAt (tmsReqs s.params.tdiIdle path) s pre bs r →
        exec (.state st) s = .next (s.lostCycle pre bs r)))

/-! ### SVF control directives -/

/-- 44_svf_control.md R139: the refusals of RUNTEST, in their order. -/
def Obligations.RuntestRefusals : Prop :=
  ∀ (st : Option TapState) (n : Word) (s : State),
    (∀ t, st = some t → t ∉ [TapState.reset, .idle, .drpause, .irpause] →
      exec (.runtest st n) s = .next (s.refusedWith .badState)) ∧
    (∀ t, st = some t → t ∈ [TapState.reset, .idle, .drpause, .irpause] → t ≠ .reset → s.tap = none →
      exec (.runtest st n) s = .next (s.refusedWith .stateUnknown)) ∧
    (st = none → s.tap = none → exec (.runtest st n) s = .next (s.refusedWith .stateUnknown)) ∧
    (∀ t, st = none → s.tap = some t → t ∉ [TapState.reset, .idle, .drpause, .irpause] →
      exec (.runtest st n) s = .next (s.refusedWith .badState))

/-- 44_svf_control.md R139: RUNTEST moves to its stable state `u`, if one is given, then waits there: one
`Dwell` event, or under RUNTEST_CLOCKS `n` cycles at the level that holds `u`; nothing for a count of 0. -/
def Obligations.RuntestMovesAndWaits : Prop :=
  ∀ (st : Option TapState) (n : Word) (s : State) (u : TapState),
    u ∈ [TapState.reset, .idle, .drpause, .irpause] →
    (st = some u ∧ (s.tap = none → u = .reset)) ∨ (st = none ∧ s.tap = some u) →
    let path := (if st = none then [] else movePath s.tap u)
      ++ (if s.params.runtestClocks then List.replicate n.toNat (u == .reset) else [])
    let waits := if s.params.runtestClocks = false ∧ n ≠ 0 then [PinEvent.dwell n.toNat] else []
    (∀ bs, answers (tmsReqs s.params.tdiIdle path) s = some bs →
      exec (.runtest st n) s =
        .next { s.ranCycles (tmsReqs s.params.tdiIdle path) bs u with
          trace := s.trace ++ clkEvents (tmsReqs s.params.tdiIdle path) bs ++ waits }) ∧
    (∀ pre bs r, failsAt (tmsReqs s.params.tdiIdle path) s pre bs r →
      exec (.runtest st n) s = .next (s.lostCycle pre bs r))

/-- 44_svf_control.md R141, R142: ENDIR and ENDDR set their register to a legal state, refuse any other, drive
nothing and need no known tracked state. -/
def Obligations.EndStatesSetOrRefused : Prop :=
  ∀ (st : TapState) (s : State),
    (st = .idle ∨ st = .irpause → exec (.endir st) s = .next { s with endir := st, seq := s.seq + 1 }) ∧
    (st ≠ .idle → st ≠ .irpause → exec (.endir st) s = .next (s.refusedWith .badState)) ∧
    (st = .idle ∨ st = .drpause → exec (.enddr st) s = .next { s with enddr := st, seq := s.seq + 1 }) ∧
    (st ≠ .idle → st ≠ .drpause → exec (.enddr st) s = .next (s.refusedWith .badState))

/-- 44_svf_control.md R143, R145: FREQUENCY sets FREQ and refuses 0; STRICT sets STRICT; neither changes
anything else but SEQ. -/
def Obligations.FrequencyAndStrictSet : Prop :=
  ∀ (hz : Word) (on : Bool) (s : State),
    (hz ≠ 0 → exec (.frequency hz) s = .next { s with freq := hz, seq := s.seq + 1 }) ∧
    (hz = 0 → exec (.frequency hz) s = .next (s.refusedWith .badValue)) ∧
    exec (.strict on) s = .next { s with strict := on, seq := s.seq + 1 }

/-- 44_svf_control.md R144: TRST drives the line, with an event only when the line exists and changes; ON makes
the tracked state UNKNOWN, OFF keeps it. -/
def Obligations.TrstDrivesLine : Prop :=
  ∀ (on : Bool) (s : State),
    exec (.trst on) s = .next { s with
      trst := on
      tap := if on = true then none else s.tap
      trace := s.trace ++ (if s.params.hasTrst = true ∧ s.trst ≠ on then [.trst on] else [])
      seq := s.seq + 1 }

/-- 43_svf_scan.md R131 to R134: a header or trailer length of 0 has no effect, any other is refused; the
tracked state does not matter. -/
def Obligations.PaddingLengthsOnlyZero : Prop :=
  ∀ (n : BitVec 16) (s : State) (i : Instr), i ∈ [Instr.hdr n, .tdr n, .hir n, .tir n] →
    (n = 0 → exec i s = .next { s with seq := s.seq + 1 }) ∧
    (n ≠ 0 → exec i s = .next (s.refusedWith .unsupportedHeader))

/-! ### SVF scans -/

/-- 43_svf_scan.md R124, R125: the refusals of SIR and SDR, in their order; the last one is fatal. -/
def Obligations.ScanRefusals : Prop :=
  ∀ (tdi : BitBuffer) (smask tdo mask : Option BitBuffer) (s : State) (i : Instr),
    i ∈ [Instr.sir tdi smask tdo mask, .sdr tdi smask tdo mask] →
    (mask ≠ none → tdo = none → exec i s = .next (s.refusedWith .badPayload)) ∧
    ((mask ≠ none → tdo ≠ none) → tdi.len = 0 → exec i s = .next (s.refusedWith .zeroLength)) ∧
    ((mask ≠ none → tdo ≠ none) → tdi.len ≠ 0 →
      (∃ x, (smask = some x ∨ tdo = some x ∨ mask = some x) ∧ x.len ≠ tdi.len) →
      exec i s = .next (s.refusedWith .lengthMismatch)) ∧
    ((mask ≠ none → tdo ≠ none) → tdi.len ≠ 0 →
      (∀ x, smask = some x ∨ tdo = some x ∨ mask = some x → x.len = tdi.len) → s.tap = none →
      exec i s = .next (s.refusedWith .stateUnknown)) ∧
    (scanReady tdi smask tdo mask s → tdo ≠ none → usedMask mask tdi.len s = none →
      exec i s = .next { s.refusedWith .noStickyMask with aborted := true })

/-- 43_svf_scan.md R123, R127, R128: a SIR or SDR without TDO shifts the operand as it is through its register
path and ends in its end state; CAPBUF and the sticky mask are unchanged. -/
def Obligations.WriteOnlyScan : Prop :=
  ∀ (tdi : BitBuffer) (smask : Option BitBuffer) (s : State) (t : TapState),
    scanReady tdi smask none none s → s.tap = some t →
    (∀ bs, answers (shiftReqs s.params.tdiIdle t .ir tdi false s.endir) s = some bs →
      exec (.sir tdi smask none none) s =
        .next (s.ranCycles (shiftReqs s.params.tdiIdle t .ir tdi false s.endir) bs s.endir)) ∧
    (∀ bs, answers (shiftReqs s.params.tdiIdle t .dr tdi false s.enddr) s = some bs →
      exec (.sdr tdi smask none none) s =
        .next (s.ranCycles (shiftReqs s.params.tdiIdle t .dr tdi false s.enddr) bs s.enddr)) ∧
    (∀ pre bs r, failsAt (shiftReqs s.params.tdiIdle t .ir tdi false s.endir) s pre bs r →
      exec (.sir tdi smask none none) s = .next (s.lostCycle pre bs r)) ∧
    (∀ pre bs r, failsAt (shiftReqs s.params.tdiIdle t .dr tdi false s.enddr) s pre bs r →
      exec (.sdr tdi smask none none) s = .next (s.lostCycle pre bs r))

/-- 43_svf_scan.md R125 to R128, R130: a SIR or SDR with TDO samples every data cycle, stores a MASK operand,
writes CAPBUF with sample i at bit i, and reports TDO_MISMATCH exactly when capture and expectation differ
under the mask; STRICT turns the report into an abort. -/
def Obligations.CapturingScan : Prop :=
  ∀ (reg : ScanReg) (tdi e m : BitBuffer) (smask mask : Option BitBuffer) (s : State) (t fin : TapState)
      (i : Instr) (bs : List Bool),
    (reg = .ir ∧ i = .sir tdi smask (some e) mask ∧ fin = s.endir) ∨
      (reg = .dr ∧ i = .sdr tdi smask (some e) mask ∧ fin = s.enddr) →
    scanReady tdi smask (some e) mask s → s.tap = some t → usedMask mask tdi.len s = some m →
    answers (shiftReqs s.params.tdiIdle t reg tdi true fin) s = some bs →
    let c := BitBuffer.ofBits (dataBits t reg tdi bs)
    let bad := c.val &&& m.val ≠ e.val &&& m.val
    exec i s = .next { s.ranCycles (shiftReqs s.params.tdiIdle t reg tdi true fin) bs fin with
      capbuf := c
      mask := if mask = none then s.mask else mask
      errlog := if bad then s.errlog ++ [⟨s.seq, .tdoMismatch⟩] else s.errlog
      aborted := s.aborted || (decide bad && s.strict) }

/-- 43_svf_scan.md R125, R130: a capturing scan whose cycle fails leaves CAPBUF unwritten, and a mask it stored
stays stored. -/
def Obligations.FailedCapturingScan : Prop :=
  ∀ (reg : ScanReg) (tdi e m : BitBuffer) (smask mask : Option BitBuffer) (s : State) (t fin : TapState)
      (i : Instr) (pre : List CycleReq) (bs : List Bool) (r : CycleReq),
    (reg = .ir ∧ i = .sir tdi smask (some e) mask ∧ fin = s.endir) ∨
      (reg = .dr ∧ i = .sdr tdi smask (some e) mask ∧ fin = s.enddr) →
    scanReady tdi smask (some e) mask s → s.tap = some t → usedMask mask tdi.len s = some m →
    failsAt (shiftReqs s.params.tdiIdle t reg tdi true fin) s pre bs r →
    exec i s = .next { s.lostCycle pre bs r with mask := if mask = none then s.mask else mask }

/-- 43_svf_scan.md R126: the comparator reports nothing exactly when every bit the mask selects agrees. -/
def Obligations.MaskSelectsComparedBits : Prop :=
  ∀ c e m : BitBuffer, verify c e m = none ↔ ∀ i, m.bit i = true → c.bit i = e.bit i

/-- 43_svf_scan.md R129: SMASK is checked for length and otherwise ignored: with the length of TDI the command
does exactly what it does without SMASK, with another length it is refused. -/
def Obligations.SmaskIgnored : Prop :=
  ∀ (tdi sm : BitBuffer) (tdo mask : Option BitBuffer) (s : State),
    (sm.len = tdi.len →
      exec (.sir tdi (some sm) tdo mask) s = exec (.sir tdi none tdo mask) s ∧
      exec (.sdr tdi (some sm) tdo mask) s = exec (.sdr tdi none tdo mask) s) ∧
    (sm.len ≠ tdi.len → tdi.len ≠ 0 → (mask ≠ none → tdo ≠ none) →
      exec (.sir tdi (some sm) tdo mask) s = .next (s.refusedWith .lengthMismatch) ∧
      exec (.sdr tdi (some sm) tdo mask) s = .next (s.refusedWith .lengthMismatch))

/-- 41_tap.md R103, R104, 44_svf_control.md R137: the cycles of a scan carry the tracked state to the end state,
whatever path it takes, and the data cycles are exactly the buffer's bits, bit 0 first, TMS = 1 on the last
(the last-bit rule is the spec's own outside knowledge, 93 K8, log 8). -/
def Obligations.ScanCyclesReachEndState : Prop :=
  ∀ (idle : Bool) (t fin : TapState) (reg : ScanReg) (d : BitBuffer) (capture : Bool), d.len ≠ 0 →
    walk t (tmsOf (shiftReqs idle t reg d capture fin)) = fin ∧
    (shiftReqs idle t reg d capture fin).length =
      (rom t reg.shift).length + d.len + (rom reg.exit1 fin).length ∧
    (dataReqs d capture).map CycleReq.tdi = d.bits ∧
    tmsOf (dataReqs d capture) = List.replicate (d.len - 1) false ++ [true] ∧
    (dataReqs d capture).map CycleReq.sample = List.replicate d.len capture

/-! ### Chain discovery -/

/-- 42_chain.md R111: the probe of a register path of at most F cells, whatever they held, measures its length.
How a path of cells answers is the spec's own outside knowledge (93 K9). -/
def Obligations.ProbeMeasuresPath : Prop :=
  ∀ (f : Nat) (old : List Bool), 0 < f → old.length ≤ f →
    probeLength ((BitBuffer.ofBits (pathSamples old (flushPattern f))).dropLsb f) = .ok old.length

/-- 42_chain.md R110: what a probe makes of its remainder. -/
def Obligations.ProbeReadsOneMarker : Prop :=
  ∀ r : BitBuffer,
    (probeLength r = .error .flushNone ↔ r.val = 0) ∧
    (∀ n, probeLength r = .ok n ↔ r.val = 2 ^ n) ∧
    (probeLength r = .error .flushMulti ↔ r.val ≠ 0 ∧ ∀ n, r.val ≠ 2 ^ n)

/-- 42_chain.md R113: the first matching table entry identifies a device, for an index that TABIDX can hold (log
9); no match leaves it unknown. -/
def Obligations.IdentifyTakesFirstMatch : Prop :=
  ∀ (table : List DeviceEntry) (id : Word),
    (∀ j e, table[j]? = some e → id &&& e.mask = e.idcode &&& e.mask →
      (∀ i x, i < j → table[i]? = some x → id &&& x.mask ≠ x.idcode &&& x.mask) → j < 2 ^ 16 →
      identify table id = ⟨id, true, BitVec.ofNat 16 j, e.irLength, false⟩) ∧
    ((∀ e ∈ table, id &&& e.mask ≠ e.idcode &&& e.mask) →
      identify table id = ⟨id, false, 0xFFFF, 0, false⟩)

/-- 42_chain.md R114: with exactly one unknown device and known lengths short of the total, that device gets
the shortfall and the lengths sum to the total; in every other case nothing is assigned. -/
def Obligations.InferenceAssignsShortfall : Prop :=
  ∀ (ds : List DevRec) (irt : Nat),
    (∀ before u after, ds = before ++ u :: after → u.known = false → (∀ d ∈ before ++ after, d.known = true) →
      irlenSum (before ++ after) < irt →
      inferIrlen ds irt = before ++ { u with irlen := irt - irlenSum (before ++ after), inferred := true } :: after
      ∧ irlenSum (inferIrlen ds irt) = irt) ∧
    (unknownCount ds ≠ 1 ∨ irt ≤ knownIrlen ds → inferIrlen ds irt = ds) ∧
    (irMismatch ds irt = true ↔ irlenSum ds ≠ irt)

/-- 42_chain.md R115: a CHAINSCAN whose probes read one marker each and whose cycles all complete makes the chain
table visible, from every tracked state. The samples may be any: `drs` of the DR probe, `irs` of the IR
probe, `ids` of the ID-code capture. -/
def Obligations.ChainscanBuildsTable : Prop :=
  ∀ (s : State) (n irt : Nat) (g1 drs g2 irs g3 ids g4 : List Bool),
    let f := s.params.flushSize
    let reqs := chainscanReqs s.params.tdiIdle f n
    0 < n →
    g1.length = f + 15 → drs.length = 2 * f + 1 → g2.length = 6 → irs.length = 2 * f + 1 → g3.length = 11 →
    ids.length = 32 * n → g4.length = 2 →
    probeLength ((BitBuffer.ofBits drs).dropLsb f) = .ok n →
    probeLength ((BitBuffer.ofBits irs).dropLsb f) = .ok irt →
    answers reqs s = some (g1 ++ drs ++ g2 ++ irs ++ g3 ++ ids ++ g4) →
    let ds := buildDevices s.params.deviceTable (BitBuffer.ofBits ids) n irt
    exec .chainscan s = .next { s.ranCycles reqs (g1 ++ drs ++ g2 ++ irs ++ g3 ++ ids ++ g4) .idle with
      chainv := true, ndev := n, irtotal := irt, dev := ds, irmismatch := decide (irlenSum ds ≠ irt) }

/-- 42_chain.md R111, R112, R115, R122: on a chain of `ids.length` devices, at most F, with one DR cell each in
bypass and `irOld.length` IR cells, at most F, that presents the ID codes `ids` (device 0 nearest TDI) after
reset, CHAINSCAN finds the device count, the IR length and the ID codes, and one record a device. -/
def Obligations.ChainscanMeasuresChain : Prop :=
  ∀ (s : State) (ids : List Word) (drOld irOld g1 g2 g3 g4 : List Bool),
    let f := s.params.flushSize
    let n := ids.length
    0 < n → n ≤ f → irOld.length ≤ f → drOld.length = n →
    g1.length = f + 15 → g2.length = 6 → g3.length = 11 → g4.length = 2 →
    answers (chainscanReqs s.params.tdiIdle f n) s =
      some (g1 ++ pathSamples drOld (flushPattern f) ++ g2 ++ pathSamples irOld (flushPattern f) ++ g3 ++
        (ids.reverse.flatMap fun w => (List.range 32).map fun i => w.getLsbD i) ++ g4) →
    ∃ t, exec .chainscan s = .next t ∧ t.chainv = true ∧ t.ndev = n ∧ t.irtotal = irOld.length ∧
      t.dev.map DevRec.idcode = ids ∧ t.dev = inferIrlen (ids.map (identify s.params.deviceTable)) irOld.length ∧
      (t.irmismatch = true ↔ irlenSum t.dev ≠ irOld.length) ∧ t.tap = some .idle ∧ t.errlog = s.errlog ∧
      t.capbuf = s.capbuf ∧ t.rdbuf = s.rdbuf ∧ t.mask = s.mask ∧ t.endir = s.endir ∧ t.enddr = s.enddr

/-- 42_chain.md R116: after a CHAINSCAN that recorded an error there is no chain table and the tracked state is
UNKNOWN, whatever table there was before; one that recorded none leaves a valid table and IDLE. -/
def Obligations.FailedChainscanLeavesNoTable : Prop :=
  ∀ s t : State, exec .chainscan s = .next t →
    (t.errlog ≠ s.errlog →
      t.chainv = false ∧ t.ndev = 0 ∧ t.irtotal = 0 ∧ t.irmismatch = false ∧ t.dev = [] ∧ t.tap = none) ∧
    (t.errlog = s.errlog → t.chainv = true ∧ 0 < t.ndev ∧ t.dev.length = t.ndev ∧ t.tap = some .idle)

/-- 42_chain.md R110, R115: a DR probe that shows no marker, several, or a chain of no device raises its
PROTOCOL error after the reset, the bypass load and that probe; an IR probe that shows no marker or several
raises its own after the cycles of the IR probe. -/
def Obligations.ChainscanProtocolErrors : Prop :=
  ∀ (s : State) (e : ErrorCode),
    let f := s.params.flushSize
    let drReqs := tmsReqs s.params.tdiIdle [true, true, true, true, true, false]
      ++ shiftReqs s.params.tdiIdle .idle .ir (BitBuffer.ones f) false .idle
      ++ shiftReqs s.params.tdiIdle .idle .dr (flushPattern f) true .idle
    let irReqs := drReqs ++ shiftReqs s.params.tdiIdle .idle .ir (flushPattern f) true .idle
    (∀ g1 drs g2 : List Bool,
      let r := (BitBuffer.ofBits drs).dropLsb f
      g1.length = f + 15 → drs.length = 2 * f + 1 → g2.length = 2 →
      (e = .flushNone ∧ r.val = 0) ∨ (e = .flushMulti ∧ r.val ≠ 0 ∧ ∀ n, r.val ≠ 2 ^ n) ∨
        (e = .noDevices ∧ r.val = 1) →
      answers drReqs s = some (g1 ++ drs ++ g2) →
      exec .chainscan s = .next (s.probeRefused drReqs (g1 ++ drs ++ g2) e)) ∧
    (∀ (n : Nat) (g1 drs g2 irs g3 : List Bool),
      let r := (BitBuffer.ofBits irs).dropLsb f
      0 < n → g1.length = f + 15 → drs.length = 2 * f + 1 → g2.length = 6 → irs.length = 2 * f + 1 →
      g3.length = 2 → ((BitBuffer.ofBits drs).dropLsb f).val = 2 ^ n →
      (e = .flushNone ∧ r.val = 0) ∨ (e = .flushMulti ∧ r.val ≠ 0 ∧ ∀ m, r.val ≠ 2 ^ m) →
      answers irReqs s = some (g1 ++ drs ++ g2 ++ irs ++ g3) →
      exec .chainscan s = .next (s.probeRefused irReqs (g1 ++ drs ++ g2 ++ irs ++ g3) e))

/-- 42_chain.md R115, R116, 41_tap.md R100: a CHAINSCAN whose cycle fails ends there, with the chain table lost.
A failure after the DR probe, which has taken `3 F + 18` cycles and sampled from cycle `F + 15` on, is one of
the discovery of the `n` devices that probe counted; one after the IR probe, `5 F + 25` cycles with samples from
cycle `3 F + 22` on, follows an IR probe that read one marker. -/
def Obligations.ChainscanFailedCycle : Prop :=
  ∀ (s : State) (n : Nat) (pre : List CycleReq) (bs : List Bool) (r : CycleReq),
    let f := s.params.flushSize
    failsAt (chainscanReqs s.params.tdiIdle f n) s pre bs r →
    (3 * f + 18 ≤ pre.length → 0 < n ∧
      ((BitBuffer.ofBits ((bs.drop (f + 15)).take (2 * f + 1))).dropLsb f).val = 2 ^ n) →
    (5 * f + 25 ≤ pre.length → ∃ irt,
      ((BitBuffer.ofBits ((bs.drop (3 * f + 22)).take (2 * f + 1))).dropLsb f).val = 2 ^ irt) →
    exec .chainscan s = .next (s.clearChain.lostCycle pre bs r)

/-- 42_chain.md R117: the pin events of a CHAINSCAN that recorded no error are all `Clk` events, as many as the
rule says, and it sampled TDO in as many of them as the rule says. -/
def Obligations.ChainscanCycleCount : Prop :=
  ∀ s t : State, exec .chainscan s = .next t → t.errlog = s.errlog →
    let f := s.params.flushSize
    (newEvents s t).length = 5 * f + 32 * t.ndev + 36 ∧
    (∀ e ∈ newEvents s t, e.isClk = true) ∧
    (newEvents s t).countP PinEvent.sampled = (2 * f + 1) + (2 * f + 1) + 32 * t.ndev

/-! ### Per-device commands -/

/-- 42_chain.md R118 to R121, 60_exceptions.md R152: the refusals of the per-device commands, in their order. -/
def Obligations.DeviceRefusals : Prop :=
  ∀ (k : BitVec 16) (bits : BitBuffer) (s : State),
    (∀ i ∈ [Instr.devir k bits, .devdrw k bits, .devdrrw k bits],
      (bits.len = 0 → exec i s = .next (s.refusedWith .zeroLength)) ∧
      (bits.len ≠ 0 → s.tap = none → exec i s = .next (s.refusedWith .stateUnknown)) ∧
      (bits.len ≠ 0 → s.tap ≠ none → s.chainv = false → exec i s = .next (s.refusedWith .noChain)) ∧
      (bits.len ≠ 0 → s.tap ≠ none → s.chainv = true → s.ndev ≤ k.toNat →
        exec i s = .next (s.refusedWith .badDevice))) ∧
    (deviceReady k.toNat bits s → s.irlen k.toNat = 0 →
      exec (.devir k bits) s = .next (s.refusedWith .badDevice)) ∧
    (deviceReady k.toNat bits s → s.irlen k.toNat ≠ 0 → bits.len ≠ s.irlen k.toNat →
      exec (.devir k bits) s = .next (s.refusedWith .lengthMismatch))

/-- 10_state.md R27, 42_chain.md R118, 20_memory.md R44: IRBEFORE, IRAFTER and the other offsets of device k, as
sums over the device indices; and the images on the wire, first bit first: the ones of the devices on the TDO
side, the device's bits, the ones of the devices on the TDI side. -/
def Obligations.ImagesPadOthersWithOnes : Prop :=
  ∀ (k : Nat) (bits : BitBuffer) (s : State),
    let len := fun j => ((s.dev[j]?).map DevRec.irlen).getD 0
    s.irBefore k = (((List.range s.ndev).filter fun j => decide (j < k)).map len).sum ∧
    s.irAfter k = (((List.range s.ndev).filter fun j => decide (k < j)).map len).sum ∧
    s.irOff k = s.irAfter k ∧ s.drBefore k = k ∧ s.drAfter k = s.ndev - 1 - k ∧
    (s.irImage k bits).bits =
      List.replicate (s.irAfter k) true ++ bits.bits ++ List.replicate (s.irBefore k) true ∧
    (s.drImage k bits).bits =
      List.replicate (s.ndev - 1 - k) true ++ bits.bits ++ List.replicate k true

/-- 10_state.md R27, R29: in a good state with a consistent chain table, the IR image of a device's full
instruction has the chain's measured length, and the device's bits start at IROFF. -/
def Obligations.IrImageHasChainLength : Prop :=
  ∀ (k : Nat) (bits : BitBuffer) (s : State), Inv s → s.chainv = true → s.irmismatch = false → k < s.ndev →
    bits.len = s.irlen k →
    (s.irImage k bits).len = s.irtotal ∧
    ∀ j, j < bits.len → (s.irImage k bits).bit (s.irOff k + j) = bits.bit j

/-- 42_chain.md R119: DEVIR shifts its IR image, captures nothing, and ends in ENDIR. -/
def Obligations.DevirWritesInstruction : Prop :=
  ∀ (k : BitVec 16) (bits : BitBuffer) (s : State) (t : TapState),
    let reqs := shiftReqs s.params.tdiIdle t .ir (s.irImage k.toNat bits) false s.endir
    deviceReady k.toNat bits s → bits.len = s.irlen k.toNat → s.tap = some t →
    (∀ bs, answers reqs s = some bs → exec (.devir k bits) s = .next (s.ranCycles reqs bs s.endir)) ∧
    (∀ pre bs r, failsAt reqs s pre bs r → exec (.devir k bits) s = .next (s.lostCycle pre bs r))

/-- 42_chain.md R120: DEVDRW shifts its DR image, captures nothing, and ends in ENDDR. -/
def Obligations.DevdrwWritesData : Prop :=
  ∀ (k : BitVec 16) (bits : BitBuffer) (s : State) (t : TapState),
    let reqs := shiftReqs s.params.tdiIdle t .dr (s.drImage k.toNat bits) false s.enddr
    deviceReady k.toNat bits s → s.tap = some t →
    (∀ bs, answers reqs s = some bs → exec (.devdrw k bits) s = .next (s.ranCycles reqs bs s.enddr)) ∧
    (∀ pre bs r, failsAt reqs s pre bs r → exec (.devdrw k bits) s = .next (s.lostCycle pre bs r))

/-- 42_chain.md R121, 41_tap.md R100: DEVDRRW shifts its DR image with capture; the whole capture goes to
CAPBUF and the target's own response, the samples after those of the devices on the TDO side, to RDBUF; one
whose cycle fails writes neither. -/
def Obligations.DevdrrwReadsDeviceSlice : Prop :=
  ∀ (k : BitVec 16) (bits : BitBuffer) (s : State) (t : TapState),
    let reqs := shiftReqs s.params.tdiIdle t .dr (s.drImage k.toNat bits) true s.enddr
    deviceReady k.toNat bits s → s.tap = some t →
    (∀ g1 after own before g2 : List Bool,
      let bs := g1 ++ after ++ own ++ before ++ g2
      g1.length = (rom t .drshift).length → after.length = s.ndev - 1 - k.toNat → own.length = bits.len →
      before.length = k.toNat → answers reqs s = some bs →
      exec (.devdrrw k bits) s = .next { s.ranCycles reqs bs s.enddr with
        capbuf := BitBuffer.ofBits (after ++ own ++ before), rdbuf := BitBuffer.ofBits own }) ∧
    (∀ pre bs r, failsAt reqs s pre bs r → exec (.devdrrw k bits) s = .next (s.lostCycle pre bs r))

/-! ### BitBuffers -/

/-- 40_bitbuffer.md R91: the laws the source lists as testable properties, and the slice law. -/
def Obligations.BitBufferLaws : Prop :=
  (∀ b : BitBuffer, BitBuffer.fromBytes b.len b.asBytes = b) ∧
  (∀ x a b : BitBuffer, (x.append a).append b = x.append (a.append b)) ∧
  (∀ a b : BitBuffer, ((BitBuffer.empty.append a).append b).len = a.len + b.len ∧
    ((BitBuffer.empty.append a).append b).val = (a.val <<< b.len) ||| b.val) ∧
  (∀ (b : BitBuffer) (n : Nat), b.len < n → b.dropLsb n = BitBuffer.empty) ∧
  (∀ a x c : BitBuffer, (((a.append x).append c).dropLsb c.len).dropMsb a.len = x)

/-- 40_bitbuffer.md R77 to R79, R84 to R86 and the capture of 20_memory.md R43, read on the wire order of R42,
first bit first: that form is inferred from the rules' pseudocode. -/
def Obligations.OperationsOnWireOrder : Prop :=
  (∀ b a : BitBuffer, (b.append a).bits = a.bits ++ b.bits) ∧
  (∀ (b : BitBuffer) (x : Bool), (b.shiftIn x).bits = x :: b.bits) ∧
  (∀ (b : BitBuffer) (k : Nat), (b.dropLsb k).bits = b.bits.drop k) ∧
  (∀ (b : BitBuffer) (k : Nat), (b.dropMsb k).bits = b.bits.take (b.len - k)) ∧
  (∀ n, (BitBuffer.ones n).bits = List.replicate n true) ∧
  (∀ n, (BitBuffer.zeroes n).bits = List.replicate n false) ∧
  (∀ bs : List Bool, (BitBuffer.ofBits bs).bits = bs)

/-- 40_bitbuffer.md R83, R87, 60_exceptions.md R157: the two operations that fault on misuse, and what they give
otherwise. -/
def Obligations.MisuseFaults : Prop :=
  (∀ b : BitBuffer, (b.len = 0 → b.shiftOut = .error .emptyShiftOut) ∧
    (∀ x xs, b.bits = x :: xs → b.shiftOut = .ok (x, BitBuffer.ofBits xs))) ∧
  (∀ (b : BitBuffer) (ws : List Nat),
    (ws.sum ≠ b.len → b.scan ws = .error .badFieldWidths) ∧
    (ws.sum = b.len → ∃ fs, b.scan ws = .ok fs ∧ fs.map BitBuffer.len = ws ∧
      fs.foldl BitBuffer.append BitBuffer.empty = b))

/-! ### Host view -/

/-- 10_state.md R38: every field of the STATUS word, and the word after reset. -/
def Obligations.StatusWordFields : Prop :=
  State.reset.readReg 0x000 = 0 ∧
  ∀ s : State, let w := (s.readReg 0x000).toNat
    (∀ t, s.tap = some t → w % 2 ^ 4 = t.codeNat) ∧ (s.tap = none → w % 2 ^ 4 = 0) ∧
    (w / 2 ^ 4 % 2 = 1 ↔ s.tap ≠ none) ∧ (w / 2 ^ 5 % 2 = 1 ↔ s.aborted = true) ∧
    (w / 2 ^ 6 % 2 = 1 ↔ s.chainv = true) ∧ (w / 2 ^ 7 % 2 = 1 ↔ s.irmismatch = true) ∧
    (w / 2 ^ 8 % 2 = 1 ↔ s.mask ≠ none) ∧ (w / 2 ^ 9 % 2 = 1 ↔ s.trst = true) ∧
    (w / 2 ^ 10 % 2 = 1 ↔ s.strict = true) ∧ w / 2 ^ 11 = 0

/-- 10_state.md R37 with R21, R25 to R27, R32 and R34, and 20_memory.md R47: the rest of the register map,
for the naturals that its words hold (log 10). -/
def Obligations.RegisterMap : Prop :=
  ∀ s : State,
    (s.readReg 0x004).toNat = s.endir.codeNat + 16 * s.enddr.codeNat ∧
    s.readReg 0x008 = s.freq ∧ (s.readReg 0x00C).toNat = s.seq % 2 ^ 32 ∧
    (s.readReg 0x010).toNat = min s.errlog.length (2 ^ 32 - 1) ∧
    (s.errlog = [] → s.readReg 0x014 = 0 ∧ s.readReg 0x018 = 0) ∧
    (∀ l r, s.errlog = l ++ [r] → (s.readReg 0x014).toNat = r.err.sub + 256 * r.err.kind ∧
      (s.readReg 0x018).toNat = r.seq % 2 ^ 32) ∧
    (s.ndev < 2 ^ 32 → (s.readReg 0x01C).toNat = s.ndev) ∧
    (s.irtotal < 2 ^ 32 → (s.readReg 0x020).toNat = s.irtotal) ∧
    (∀ k d, k < s.ndev → s.dev[k]? = some d →
      s.readReg (0x100 + 16 * k) = d.idcode ∧
      (d.irlen < 2 ^ 32 → (s.readReg (0x104 + 16 * k)).toNat = d.irlen) ∧
      (s.readReg (0x108 + 16 * k)).toNat =
        d.tabidx.toNat + 2 ^ 16 * d.known.toNat + 2 ^ 17 * d.inferred.toNat ∧
      (s.irAfter k < 2 ^ 32 → (s.readReg (0x10C + 16 * k)).toNat = s.irAfter k)) ∧
    (∀ k off, s.ndev ≤ k → off < 16 → s.readReg (0x100 + 16 * k + off) = 0) ∧
    (∀ a, a % 4 ≠ 0 → s.readReg a = 0) ∧ (∀ a, 0x024 ≤ a → a < 0x100 → s.readReg a = 0)
end

