-- ==== Sys2Proof/Laws/BitBuffer.lean ====
section
/-! SUPPORT. The BitBuffer operations through the bits they hold: one lemma per operation. -/

namespace Sys2Proof

/-- Two buffers are equal when length and value are. -/
theorem BitBuffer.ext_val {a b : BitBuffer} (hl : a.len = b.len) (hv : a.val = b.val) : a = b := by
  cases a; cases b; simp_all

@[simp] theorem BitBuffer.ofNat_len (n v : Nat) : (BitBuffer.ofNat n v).len = n := rfl

@[simp] theorem BitBuffer.ofNat_val (n v : Nat) : (BitBuffer.ofNat n v).val = v % 2 ^ n := rfl

@[simp] theorem BitBuffer.empty_len : BitBuffer.empty.len = 0 := rfl

@[simp] theorem BitBuffer.empty_val : BitBuffer.empty.val = 0 := rfl

/-- A buffer is the one its length and value make. -/
theorem BitBuffer.ofNat_self (b : BitBuffer) : BitBuffer.ofNat b.len b.val = b :=
  BitBuffer.ext_val rfl (Nat.mod_eq_of_lt b.lt)

theorem BitBuffer.ofNat_bit (n v i : Nat) :
    (BitBuffer.ofNat n v).bit i = (decide (i < n) && v.testBit i) := by
  simp [BitBuffer.bit, Nat.testBit_mod_two_pow]

/-- No bit at or above the length is set. -/
theorem BitBuffer.bit_of_len_le (b : BitBuffer) {i : Nat} (h : b.len ≤ i) : b.bit i = false :=
  Nat.testBit_lt_two_pow (Nat.lt_of_lt_of_le b.lt (Nat.pow_le_pow_right (by decide) h))

/-- Two buffers of one length with the same bits are equal. -/
theorem BitBuffer.ext_bit {a b : BitBuffer} (hl : a.len = b.len) (hb : ∀ i, a.bit i = b.bit i) : a = b :=
  BitBuffer.ext_val hl (Nat.eq_of_testBit_eq hb)

@[simp] theorem BitBuffer.bits_length (b : BitBuffer) : b.bits.length = b.len := by
  simp [BitBuffer.bits]

theorem BitBuffer.bits_getElem (b : BitBuffer) (i : Nat) (h : i < b.bits.length) : b.bits[i] = b.bit i := by
  simp [BitBuffer.bits]

theorem BitBuffer.bits_getD (b : BitBuffer) (i : Nat) : b.bits.getD i false = b.bit i := by
  by_cases h : i < b.len
  · simp [BitBuffer.bits, List.getD, h]
  · simp [BitBuffer.bits, List.getD, h, b.bit_of_len_le (Nat.le_of_not_lt h)]

/-- Two buffers with the same bits in wire order are equal. -/
theorem BitBuffer.eq_of_bits {a b : BitBuffer} (h : a.bits = b.bits) : a = b := by
  have hl : a.len = b.len := by simpa using congrArg List.length h
  refine BitBuffer.ext_bit hl fun i => ?_
  rw [← a.bits_getD, ← b.bits_getD, h]

theorem bitsValue_lt (bs : List Bool) : bitsValue bs < 2 ^ bs.length := by
  induction bs with
  | nil => simp [bitsValue]
  | cons b bs ih => cases b <;> simp [bitsValue, Nat.pow_succ] <;> omega

theorem bitsValue_testBit (bs : List Bool) (i : Nat) : (bitsValue bs).testBit i = bs.getD i false := by
  induction bs generalizing i with
  | nil => simp [bitsValue]
  | cons b bs ih =>
    cases i with
    | zero => cases b <;> simp [bitsValue, Nat.testBit_zero]
    | succ i =>
      have hdiv : (b.toNat + 2 * bitsValue bs) / 2 = bitsValue bs := by
        cases b <;> simp only [Bool.toNat_false, Bool.toNat_true] <;> omega
      simp [bitsValue, Nat.testBit_succ, hdiv, ih]

@[simp] theorem BitBuffer.ofBits_len (bs : List Bool) : (BitBuffer.ofBits bs).len = bs.length := rfl

theorem BitBuffer.ofBits_val (bs : List Bool) : (BitBuffer.ofBits bs).val = bitsValue bs :=
  Nat.mod_eq_of_lt (bitsValue_lt bs)

theorem BitBuffer.ofBits_bit (bs : List Bool) (i : Nat) : (BitBuffer.ofBits bs).bit i = bs.getD i false := by
  rw [BitBuffer.bit, BitBuffer.ofBits_val, bitsValue_testBit]

theorem BitBuffer.append_bit (b a : BitBuffer) (i : Nat) :
    (b.append a).bit i = if i < a.len then a.bit i else b.bit (i - a.len) := by
  by_cases h : i < a.len
  · have h2 : i < b.len + a.len := by omega
    have h3 : ¬ a.len ≤ i := by omega
    simp [BitBuffer.append, Nat.testBit_or, Nat.testBit_shiftLeft, h, h2, h3, BitBuffer.bit]
  · have ha : a.val.testBit i = false := a.bit_of_len_le (by omega)
    by_cases h2 : i < b.len + a.len
    · have h3 : a.len ≤ i := by omega
      simp [BitBuffer.append, Nat.testBit_or, Nat.testBit_shiftLeft, h, h2, h3, ha, BitBuffer.bit]
    · have hb : b.bit (i - a.len) = false := b.bit_of_len_le (by omega)
      simp [BitBuffer.append, BitBuffer.ofNat_bit, h, h2, hb]

@[simp] theorem BitBuffer.append_len (b a : BitBuffer) : (b.append a).len = b.len + a.len := rfl

@[simp] theorem BitBuffer.ones_len (n : Nat) : (BitBuffer.ones n).len = n := rfl

@[simp] theorem BitBuffer.zeroes_len (n : Nat) : (BitBuffer.zeroes n).len = n := rfl

theorem BitBuffer.ones_bit (n i : Nat) : (BitBuffer.ones n).bit i = decide (i < n) := by
  simp [BitBuffer.ones, BitBuffer.ofNat_bit, Nat.testBit_two_pow_sub_one]

theorem BitBuffer.zeroes_bit (n i : Nat) : (BitBuffer.zeroes n).bit i = false := by
  simp [BitBuffer.zeroes, BitBuffer.ofNat_bit]

theorem BitBuffer.dropLsb_len (b : BitBuffer) (k : Nat) : (b.dropLsb k).len = b.len - k := by
  unfold BitBuffer.dropLsb; split <;> simp; omega

theorem BitBuffer.dropLsb_bit (b : BitBuffer) (k i : Nat) : (b.dropLsb k).bit i = b.bit (i + k) := by
  unfold BitBuffer.dropLsb
  split
  · rename_i h
    rw [b.bit_of_len_le (by omega)]
    exact BitBuffer.bit_of_len_le _ (by simp)
  · by_cases hi : i < b.len - k
    · simp [hi, BitBuffer.bit, Nat.testBit_shiftRight, Nat.add_comm]
    · rw [b.bit_of_len_le (by omega)]
      simp [BitBuffer.ofNat_bit, hi]

theorem BitBuffer.dropMsb_len (b : BitBuffer) (k : Nat) : (b.dropMsb k).len = b.len - k := by
  unfold BitBuffer.dropMsb; split <;> simp; omega

theorem BitBuffer.dropMsb_bit (b : BitBuffer) (k i : Nat) :
    (b.dropMsb k).bit i = (decide (i < b.len - k) && b.bit i) := by
  unfold BitBuffer.dropMsb
  split
  · have : b.len - k = 0 := by omega
    simp [this, BitBuffer.bit]
  · by_cases hi : i < b.len - k
    · simp [hi, BitBuffer.bit, Nat.testBit_mod_two_pow]
    · simp [BitBuffer.ofNat_bit, hi]

theorem BitBuffer.shiftIn_bit (b : BitBuffer) (x : Bool) (i : Nat) :
    (b.shiftIn x).bit i = if i = 0 then x else b.bit (i - 1) := by
  cases i with
  | zero => cases x <;> simp [BitBuffer.shiftIn, BitBuffer.ofNat_bit]
  | succ i =>
    have hx : x.toNat.testBit (i + 1) = false := by cases x <;> simp [Nat.testBit_succ]
    by_cases hi : i < b.len
    · simp [BitBuffer.shiftIn, Nat.testBit_or, Nat.testBit_shiftLeft, hx, hi, BitBuffer.bit]
    · simp [BitBuffer.shiftIn, BitBuffer.ofNat_bit, hi, b.bit_of_len_le (Nat.le_of_not_lt hi)]

end Sys2Proof
end

