-- ==== Sys2Proof/Laws/State.lean ====
section
/-! SUPPORT. One lemma per field per named update of State, true by rfl, so that no proof unfolds a record
update. -/

namespace Sys2Proof.Machine

/-! ### clocked -/

@[simp] theorem State.clocked_tap (s : State) (r : CycleReq) (b : Bool) :
    (s.clocked r b).tap = s.tap.map fun t => next t r.tms := rfl
@[simp] theorem State.clocked_endir (s : State) (r : CycleReq) (b : Bool) :
    (s.clocked r b).endir = s.endir := rfl
@[simp] theorem State.clocked_enddr (s : State) (r : CycleReq) (b : Bool) :
    (s.clocked r b).enddr = s.enddr := rfl
@[simp] theorem State.clocked_mask (s : State) (r : CycleReq) (b : Bool) :
    (s.clocked r b).mask = s.mask := rfl
@[simp] theorem State.clocked_freq (s : State) (r : CycleReq) (b : Bool) :
    (s.clocked r b).freq = s.freq := rfl
@[simp] theorem State.clocked_trst (s : State) (r : CycleReq) (b : Bool) :
    (s.clocked r b).trst = s.trst := rfl
@[simp] theorem State.clocked_strict (s : State) (r : CycleReq) (b : Bool) :
    (s.clocked r b).strict = s.strict := rfl
@[simp] theorem State.clocked_aborted (s : State) (r : CycleReq) (b : Bool) :
    (s.clocked r b).aborted = s.aborted := rfl
@[simp] theorem State.clocked_chainv (s : State) (r : CycleReq) (b : Bool) :
    (s.clocked r b).chainv = s.chainv := rfl
@[simp] theorem State.clocked_ndev (s : State) (r : CycleReq) (b : Bool) :
    (s.clocked r b).ndev = s.ndev := rfl
@[simp] theorem State.clocked_irtotal (s : State) (r : CycleReq) (b : Bool) :
    (s.clocked r b).irtotal = s.irtotal := rfl
@[simp] theorem State.clocked_irmismatch (s : State) (r : CycleReq) (b : Bool) :
    (s.clocked r b).irmismatch = s.irmismatch := rfl
@[simp] theorem State.clocked_dev (s : State) (r : CycleReq) (b : Bool) : (s.clocked r b).dev = s.dev := rfl
@[simp] theorem State.clocked_capbuf (s : State) (r : CycleReq) (b : Bool) :
    (s.clocked r b).capbuf = s.capbuf := rfl
@[simp] theorem State.clocked_rdbuf (s : State) (r : CycleReq) (b : Bool) :
    (s.clocked r b).rdbuf = s.rdbuf := rfl
@[simp] theorem State.clocked_seq (s : State) (r : CycleReq) (b : Bool) : (s.clocked r b).seq = s.seq := rfl
@[simp] theorem State.clocked_errlog (s : State) (r : CycleReq) (b : Bool) :
    (s.clocked r b).errlog = s.errlog := rfl
@[simp] theorem State.clocked_trace (s : State) (r : CycleReq) (b : Bool) :
    (s.clocked r b).trace = s.trace ++ [clkEvent r b] := rfl
@[simp] theorem State.clocked_params (s : State) (r : CycleReq) (b : Bool) :
    (s.clocked r b).params = s.params := rfl
@[simp] theorem State.clocked_inputs (s : State) (r : CycleReq) (b : Bool) :
    (s.clocked r b).inputs = s.inputs := rfl
@[simp] theorem State.clocked_env (s : State) (r : CycleReq) (b : Bool) :
    (s.clocked r b).env = s.env.tail := rfl
@[simp] theorem State.clocked_draws (s : State) (r : CycleReq) (b : Bool) :
    (s.clocked r b).draws = s.draws + 1 := rfl

/-! ### failed -/

@[simp] theorem State.failed_tap (s : State) (r : CycleReq) : (s.failed r).tap = none := rfl
@[simp] theorem State.failed_endir (s : State) (r : CycleReq) : (s.failed r).endir = s.endir := rfl
@[simp] theorem State.failed_enddr (s : State) (r : CycleReq) : (s.failed r).enddr = s.enddr := rfl
@[simp] theorem State.failed_mask (s : State) (r : CycleReq) : (s.failed r).mask = s.mask := rfl
@[simp] theorem State.failed_freq (s : State) (r : CycleReq) : (s.failed r).freq = s.freq := rfl
@[simp] theorem State.failed_trst (s : State) (r : CycleReq) : (s.failed r).trst = s.trst := rfl
@[simp] theorem State.failed_strict (s : State) (r : CycleReq) : (s.failed r).strict = s.strict := rfl
@[simp] theorem State.failed_aborted (s : State) (r : CycleReq) : (s.failed r).aborted = s.aborted := rfl
@[simp] theorem State.failed_chainv (s : State) (r : CycleReq) : (s.failed r).chainv = s.chainv := rfl
@[simp] theorem State.failed_ndev (s : State) (r : CycleReq) : (s.failed r).ndev = s.ndev := rfl
@[simp] theorem State.failed_irtotal (s : State) (r : CycleReq) : (s.failed r).irtotal = s.irtotal := rfl
@[simp] theorem State.failed_irmismatch (s : State) (r : CycleReq) :
    (s.failed r).irmismatch = s.irmismatch := rfl
@[simp] theorem State.failed_dev (s : State) (r : CycleReq) : (s.failed r).dev = s.dev := rfl
@[simp] theorem State.failed_capbuf (s : State) (r : CycleReq) : (s.failed r).capbuf = s.capbuf := rfl
@[simp] theorem State.failed_rdbuf (s : State) (r : CycleReq) : (s.failed r).rdbuf = s.rdbuf := rfl
@[simp] theorem State.failed_seq (s : State) (r : CycleReq) : (s.failed r).seq = s.seq := rfl
@[simp] theorem State.failed_errlog (s : State) (r : CycleReq) : (s.failed r).errlog = s.errlog := rfl
@[simp] theorem State.failed_trace (s : State) (r : CycleReq) :
    (s.failed r).trace = s.trace ++ [.xfail r.tms r.tdi] := rfl
@[simp] theorem State.failed_params (s : State) (r : CycleReq) : (s.failed r).params = s.params := rfl
@[simp] theorem State.failed_inputs (s : State) (r : CycleReq) : (s.failed r).inputs = s.inputs := rfl
@[simp] theorem State.failed_env (s : State) (r : CycleReq) : (s.failed r).env = s.env.tail := rfl
@[simp] theorem State.failed_draws (s : State) (r : CycleReq) : (s.failed r).draws = s.draws + 1 := rfl

/-! ### setTap -/

@[simp] theorem State.setTap_tap (s : State) (t : TapState) : (s.setTap t).tap = some t := rfl
@[simp] theorem State.setTap_endir (s : State) (t : TapState) : (s.setTap t).endir = s.endir := rfl
@[simp] theorem State.setTap_enddr (s : State) (t : TapState) : (s.setTap t).enddr = s.enddr := rfl
@[simp] theorem State.setTap_mask (s : State) (t : TapState) : (s.setTap t).mask = s.mask := rfl
@[simp] theorem State.setTap_freq (s : State) (t : TapState) : (s.setTap t).freq = s.freq := rfl
@[simp] theorem State.setTap_trst (s : State) (t : TapState) : (s.setTap t).trst = s.trst := rfl
@[simp] theorem State.setTap_strict (s : State) (t : TapState) : (s.setTap t).strict = s.strict := rfl
@[simp] theorem State.setTap_aborted (s : State) (t : TapState) : (s.setTap t).aborted = s.aborted := rfl
@[simp] theorem State.setTap_chainv (s : State) (t : TapState) : (s.setTap t).chainv = s.chainv := rfl
@[simp] theorem State.setTap_ndev (s : State) (t : TapState) : (s.setTap t).ndev = s.ndev := rfl
@[simp] theorem State.setTap_irtotal (s : State) (t : TapState) : (s.setTap t).irtotal = s.irtotal := rfl
@[simp] theorem State.setTap_irmismatch (s : State) (t : TapState) :
    (s.setTap t).irmismatch = s.irmismatch := rfl
@[simp] theorem State.setTap_dev (s : State) (t : TapState) : (s.setTap t).dev = s.dev := rfl
@[simp] theorem State.setTap_capbuf (s : State) (t : TapState) : (s.setTap t).capbuf = s.capbuf := rfl
@[simp] theorem State.setTap_rdbuf (s : State) (t : TapState) : (s.setTap t).rdbuf = s.rdbuf := rfl
@[simp] theorem State.setTap_seq (s : State) (t : TapState) : (s.setTap t).seq = s.seq := rfl
@[simp] theorem State.setTap_errlog (s : State) (t : TapState) : (s.setTap t).errlog = s.errlog := rfl
@[simp] theorem State.setTap_trace (s : State) (t : TapState) : (s.setTap t).trace = s.trace := rfl
@[simp] theorem State.setTap_params (s : State) (t : TapState) : (s.setTap t).params = s.params := rfl
@[simp] theorem State.setTap_inputs (s : State) (t : TapState) : (s.setTap t).inputs = s.inputs := rfl
@[simp] theorem State.setTap_env (s : State) (t : TapState) : (s.setTap t).env = s.env := rfl
@[simp] theorem State.setTap_draws (s : State) (t : TapState) : (s.setTap t).draws = s.draws := rfl

/-! ### recordError -/

@[simp] theorem State.recordError_tap (s : State) (e : ErrorCode) : (s.recordError e).tap = s.tap := rfl
@[simp] theorem State.recordError_endir (s : State) (e : ErrorCode) : (s.recordError e).endir = s.endir := rfl
@[simp] theorem State.recordError_enddr (s : State) (e : ErrorCode) : (s.recordError e).enddr = s.enddr := rfl
@[simp] theorem State.recordError_mask (s : State) (e : ErrorCode) : (s.recordError e).mask = s.mask := rfl
@[simp] theorem State.recordError_freq (s : State) (e : ErrorCode) : (s.recordError e).freq = s.freq := rfl
@[simp] theorem State.recordError_trst (s : State) (e : ErrorCode) : (s.recordError e).trst = s.trst := rfl
@[simp] theorem State.recordError_strict (s : State) (e : ErrorCode) :
    (s.recordError e).strict = s.strict := rfl
@[simp] theorem State.recordError_aborted (s : State) (e : ErrorCode) :
    (s.recordError e).aborted = s.aborted := rfl
@[simp] theorem State.recordError_chainv (s : State) (e : ErrorCode) :
    (s.recordError e).chainv = s.chainv := rfl
@[simp] theorem State.recordError_ndev (s : State) (e : ErrorCode) : (s.recordError e).ndev = s.ndev := rfl
@[simp] theorem State.recordError_irtotal (s : State) (e : ErrorCode) :
    (s.recordError e).irtotal = s.irtotal := rfl
@[simp] theorem State.recordError_irmismatch (s : State) (e : ErrorCode) :
    (s.recordError e).irmismatch = s.irmismatch := rfl
@[simp] theorem State.recordError_dev (s : State) (e : ErrorCode) : (s.recordError e).dev = s.dev := rfl
@[simp] theorem State.recordError_capbuf (s : State) (e : ErrorCode) :
    (s.recordError e).capbuf = s.capbuf := rfl
@[simp] theorem State.recordError_rdbuf (s : State) (e : ErrorCode) : (s.recordError e).rdbuf = s.rdbuf := rfl
@[simp] theorem State.recordError_seq (s : State) (e : ErrorCode) : (s.recordError e).seq = s.seq := rfl
@[simp] theorem State.recordError_errlog (s : State) (e : ErrorCode) :
    (s.recordError e).errlog = s.errlog ++ [⟨s.seq, e⟩] := rfl
@[simp] theorem State.recordError_trace (s : State) (e : ErrorCode) : (s.recordError e).trace = s.trace := rfl
@[simp] theorem State.recordError_params (s : State) (e : ErrorCode) :
    (s.recordError e).params = s.params := rfl
@[simp] theorem State.recordError_inputs (s : State) (e : ErrorCode) :
    (s.recordError e).inputs = s.inputs := rfl
@[simp] theorem State.recordError_env (s : State) (e : ErrorCode) : (s.recordError e).env = s.env := rfl
@[simp] theorem State.recordError_draws (s : State) (e : ErrorCode) : (s.recordError e).draws = s.draws := rfl

/-! ### takeError -/

@[simp] theorem State.takeError_tap (s : State) (e : ErrorCode) :
    (s.takeError e).tap = if e.kind = kindProtocol ∨ e.kind = kindTransport then none else s.tap := rfl
@[simp] theorem State.takeError_endir (s : State) (e : ErrorCode) : (s.takeError e).endir = s.endir := rfl
@[simp] theorem State.takeError_enddr (s : State) (e : ErrorCode) : (s.takeError e).enddr = s.enddr := rfl
@[simp] theorem State.takeError_mask (s : State) (e : ErrorCode) : (s.takeError e).mask = s.mask := rfl
@[simp] theorem State.takeError_freq (s : State) (e : ErrorCode) : (s.takeError e).freq = s.freq := rfl
@[simp] theorem State.takeError_trst (s : State) (e : ErrorCode) : (s.takeError e).trst = s.trst := rfl
@[simp] theorem State.takeError_strict (s : State) (e : ErrorCode) : (s.takeError e).strict = s.strict := rfl
@[simp] theorem State.takeError_aborted (s : State) (e : ErrorCode) :
    (s.takeError e).aborted = s.aborted := rfl
@[simp] theorem State.takeError_chainv (s : State) (e : ErrorCode) : (s.takeError e).chainv = s.chainv := rfl
@[simp] theorem State.takeError_ndev (s : State) (e : ErrorCode) : (s.takeError e).ndev = s.ndev := rfl
@[simp] theorem State.takeError_irtotal (s : State) (e : ErrorCode) :
    (s.takeError e).irtotal = s.irtotal := rfl
@[simp] theorem State.takeError_irmismatch (s : State) (e : ErrorCode) :
    (s.takeError e).irmismatch = s.irmismatch := rfl
@[simp] theorem State.takeError_dev (s : State) (e : ErrorCode) : (s.takeError e).dev = s.dev := rfl
@[simp] theorem State.takeError_capbuf (s : State) (e : ErrorCode) : (s.takeError e).capbuf = s.capbuf := rfl
@[simp] theorem State.takeError_rdbuf (s : State) (e : ErrorCode) : (s.takeError e).rdbuf = s.rdbuf := rfl
@[simp] theorem State.takeError_seq (s : State) (e : ErrorCode) : (s.takeError e).seq = s.seq := rfl
@[simp] theorem State.takeError_errlog (s : State) (e : ErrorCode) :
    (s.takeError e).errlog = s.errlog ++ [⟨s.seq, e⟩] := rfl
@[simp] theorem State.takeError_trace (s : State) (e : ErrorCode) : (s.takeError e).trace = s.trace := rfl
@[simp] theorem State.takeError_params (s : State) (e : ErrorCode) : (s.takeError e).params = s.params := rfl
@[simp] theorem State.takeError_inputs (s : State) (e : ErrorCode) : (s.takeError e).inputs = s.inputs := rfl
@[simp] theorem State.takeError_env (s : State) (e : ErrorCode) : (s.takeError e).env = s.env := rfl
@[simp] theorem State.takeError_draws (s : State) (e : ErrorCode) : (s.takeError e).draws = s.draws := rfl

/-! ### endCommand -/

@[simp] theorem State.endCommand_tap (s : State) (e : Option ErrorCode) : (s.endCommand e).tap = s.tap := rfl
@[simp] theorem State.endCommand_endir (s : State) (e : Option ErrorCode) :
    (s.endCommand e).endir = s.endir := rfl
@[simp] theorem State.endCommand_enddr (s : State) (e : Option ErrorCode) :
    (s.endCommand e).enddr = s.enddr := rfl
@[simp] theorem State.endCommand_mask (s : State) (e : Option ErrorCode) :
    (s.endCommand e).mask = s.mask := rfl
@[simp] theorem State.endCommand_freq (s : State) (e : Option ErrorCode) :
    (s.endCommand e).freq = s.freq := rfl
@[simp] theorem State.endCommand_trst (s : State) (e : Option ErrorCode) :
    (s.endCommand e).trst = s.trst := rfl
@[simp] theorem State.endCommand_strict (s : State) (e : Option ErrorCode) :
    (s.endCommand e).strict = s.strict := rfl
@[simp] theorem State.endCommand_aborted (s : State) (e : Option ErrorCode) :
    (s.endCommand e).aborted = (s.aborted || (match e with
      | none => false
      | some e => e.fatal || s.strict)) := rfl
@[simp] theorem State.endCommand_chainv (s : State) (e : Option ErrorCode) :
    (s.endCommand e).chainv = s.chainv := rfl
@[simp] theorem State.endCommand_ndev (s : State) (e : Option ErrorCode) :
    (s.endCommand e).ndev = s.ndev := rfl
@[simp] theorem State.endCommand_irtotal (s : State) (e : Option ErrorCode) :
    (s.endCommand e).irtotal = s.irtotal := rfl
@[simp] theorem State.endCommand_irmismatch (s : State) (e : Option ErrorCode) :
    (s.endCommand e).irmismatch = s.irmismatch := rfl
@[simp] theorem State.endCommand_dev (s : State) (e : Option ErrorCode) : (s.endCommand e).dev = s.dev := rfl
@[simp] theorem State.endCommand_capbuf (s : State) (e : Option ErrorCode) :
    (s.endCommand e).capbuf = s.capbuf := rfl
@[simp] theorem State.endCommand_rdbuf (s : State) (e : Option ErrorCode) :
    (s.endCommand e).rdbuf = s.rdbuf := rfl
@[simp] theorem State.endCommand_seq (s : State) (e : Option ErrorCode) :
    (s.endCommand e).seq = s.seq + 1 := rfl
@[simp] theorem State.endCommand_errlog (s : State) (e : Option ErrorCode) :
    (s.endCommand e).errlog = s.errlog := rfl
@[simp] theorem State.endCommand_trace (s : State) (e : Option ErrorCode) :
    (s.endCommand e).trace = s.trace := rfl
@[simp] theorem State.endCommand_params (s : State) (e : Option ErrorCode) :
    (s.endCommand e).params = s.params := rfl
@[simp] theorem State.endCommand_inputs (s : State) (e : Option ErrorCode) :
    (s.endCommand e).inputs = s.inputs := rfl
@[simp] theorem State.endCommand_env (s : State) (e : Option ErrorCode) : (s.endCommand e).env = s.env := rfl
@[simp] theorem State.endCommand_draws (s : State) (e : Option ErrorCode) :
    (s.endCommand e).draws = s.draws := rfl

/-! ### clearChain -/

@[simp] theorem State.clearChain_tap (s : State) : (s.clearChain).tap = s.tap := rfl
@[simp] theorem State.clearChain_endir (s : State) : (s.clearChain).endir = s.endir := rfl
@[simp] theorem State.clearChain_enddr (s : State) : (s.clearChain).enddr = s.enddr := rfl
@[simp] theorem State.clearChain_mask (s : State) : (s.clearChain).mask = s.mask := rfl
@[simp] theorem State.clearChain_freq (s : State) : (s.clearChain).freq = s.freq := rfl
@[simp] theorem State.clearChain_trst (s : State) : (s.clearChain).trst = s.trst := rfl
@[simp] theorem State.clearChain_strict (s : State) : (s.clearChain).strict = s.strict := rfl
@[simp] theorem State.clearChain_aborted (s : State) : (s.clearChain).aborted = s.aborted := rfl
@[simp] theorem State.clearChain_chainv (s : State) : (s.clearChain).chainv = false := rfl
@[simp] theorem State.clearChain_ndev (s : State) : (s.clearChain).ndev = 0 := rfl
@[simp] theorem State.clearChain_irtotal (s : State) : (s.clearChain).irtotal = 0 := rfl
@[simp] theorem State.clearChain_irmismatch (s : State) : (s.clearChain).irmismatch = false := rfl
@[simp] theorem State.clearChain_dev (s : State) : (s.clearChain).dev = [] := rfl
@[simp] theorem State.clearChain_capbuf (s : State) : (s.clearChain).capbuf = s.capbuf := rfl
@[simp] theorem State.clearChain_rdbuf (s : State) : (s.clearChain).rdbuf = s.rdbuf := rfl
@[simp] theorem State.clearChain_seq (s : State) : (s.clearChain).seq = s.seq := rfl
@[simp] theorem State.clearChain_errlog (s : State) : (s.clearChain).errlog = s.errlog := rfl
@[simp] theorem State.clearChain_trace (s : State) : (s.clearChain).trace = s.trace := rfl
@[simp] theorem State.clearChain_params (s : State) : (s.clearChain).params = s.params := rfl
@[simp] theorem State.clearChain_inputs (s : State) : (s.clearChain).inputs = s.inputs := rfl
@[simp] theorem State.clearChain_env (s : State) : (s.clearChain).env = s.env := rfl
@[simp] theorem State.clearChain_draws (s : State) : (s.clearChain).draws = s.draws := rfl

/-! ### commitChain -/

@[simp] theorem State.commitChain_tap (s : State) (c : BitBuffer) (n irt : Nat) :
    (s.commitChain c n irt).tap = s.tap := rfl
@[simp] theorem State.commitChain_endir (s : State) (c : BitBuffer) (n irt : Nat) :
    (s.commitChain c n irt).endir = s.endir := rfl
@[simp] theorem State.commitChain_enddr (s : State) (c : BitBuffer) (n irt : Nat) :
    (s.commitChain c n irt).enddr = s.enddr := rfl
@[simp] theorem State.commitChain_mask (s : State) (c : BitBuffer) (n irt : Nat) :
    (s.commitChain c n irt).mask = s.mask := rfl
@[simp] theorem State.commitChain_freq (s : State) (c : BitBuffer) (n irt : Nat) :
    (s.commitChain c n irt).freq = s.freq := rfl
@[simp] theorem State.commitChain_trst (s : State) (c : BitBuffer) (n irt : Nat) :
    (s.commitChain c n irt).trst = s.trst := rfl
@[simp] theorem State.commitChain_strict (s : State) (c : BitBuffer) (n irt : Nat) :
    (s.commitChain c n irt).strict = s.strict := rfl
@[simp] theorem State.commitChain_aborted (s : State) (c : BitBuffer) (n irt : Nat) :
    (s.commitChain c n irt).aborted = s.aborted := rfl
@[simp] theorem State.commitChain_chainv (s : State) (c : BitBuffer) (n irt : Nat) :
    (s.commitChain c n irt).chainv = true := rfl
@[simp] theorem State.commitChain_ndev (s : State) (c : BitBuffer) (n irt : Nat) :
    (s.commitChain c n irt).ndev = n := rfl
@[simp] theorem State.commitChain_irtotal (s : State) (c : BitBuffer) (n irt : Nat) :
    (s.commitChain c n irt).irtotal = irt := rfl
@[simp] theorem State.commitChain_irmismatch (s : State) (c : BitBuffer) (n irt : Nat) :
    (s.commitChain c n irt).irmismatch = irMismatch (buildDevices s.params.deviceTable c n irt) irt := rfl
@[simp] theorem State.commitChain_dev (s : State) (c : BitBuffer) (n irt : Nat) :
    (s.commitChain c n irt).dev = buildDevices s.params.deviceTable c n irt := rfl
@[simp] theorem State.commitChain_capbuf (s : State) (c : BitBuffer) (n irt : Nat) :
    (s.commitChain c n irt).capbuf = s.capbuf := rfl
@[simp] theorem State.commitChain_rdbuf (s : State) (c : BitBuffer) (n irt : Nat) :
    (s.commitChain c n irt).rdbuf = s.rdbuf := rfl
@[simp] theorem State.commitChain_seq (s : State) (c : BitBuffer) (n irt : Nat) :
    (s.commitChain c n irt).seq = s.seq := rfl
@[simp] theorem State.commitChain_errlog (s : State) (c : BitBuffer) (n irt : Nat) :
    (s.commitChain c n irt).errlog = s.errlog := rfl
@[simp] theorem State.commitChain_trace (s : State) (c : BitBuffer) (n irt : Nat) :
    (s.commitChain c n irt).trace = s.trace := rfl
@[simp] theorem State.commitChain_params (s : State) (c : BitBuffer) (n irt : Nat) :
    (s.commitChain c n irt).params = s.params := rfl
@[simp] theorem State.commitChain_inputs (s : State) (c : BitBuffer) (n irt : Nat) :
    (s.commitChain c n irt).inputs = s.inputs := rfl
@[simp] theorem State.commitChain_env (s : State) (c : BitBuffer) (n irt : Nat) :
    (s.commitChain c n irt).env = s.env := rfl
@[simp] theorem State.commitChain_draws (s : State) (c : BitBuffer) (n irt : Nat) :
    (s.commitChain c n irt).draws = s.draws := rfl

/-! ### drove -/

@[simp] theorem State.drove_tap (s : State) (rs : List CycleReq) (bs : List Bool) :
    (s.drove rs bs).tap = s.tap.map fun t => walk t (tmsOf rs) := rfl
@[simp] theorem State.drove_endir (s : State) (rs : List CycleReq) (bs : List Bool) :
    (s.drove rs bs).endir = s.endir := rfl
@[simp] theorem State.drove_enddr (s : State) (rs : List CycleReq) (bs : List Bool) :
    (s.drove rs bs).enddr = s.enddr := rfl
@[simp] theorem State.drove_mask (s : State) (rs : List CycleReq) (bs : List Bool) :
    (s.drove rs bs).mask = s.mask := rfl
@[simp] theorem State.drove_freq (s : State) (rs : List CycleReq) (bs : List Bool) :
    (s.drove rs bs).freq = s.freq := rfl
@[simp] theorem State.drove_trst (s : State) (rs : List CycleReq) (bs : List Bool) :
    (s.drove rs bs).trst = s.trst := rfl
@[simp] theorem State.drove_strict (s : State) (rs : List CycleReq) (bs : List Bool) :
    (s.drove rs bs).strict = s.strict := rfl
@[simp] theorem State.drove_aborted (s : State) (rs : List CycleReq) (bs : List Bool) :
    (s.drove rs bs).aborted = s.aborted := rfl
@[simp] theorem State.drove_chainv (s : State) (rs : List CycleReq) (bs : List Bool) :
    (s.drove rs bs).chainv = s.chainv := rfl
@[simp] theorem State.drove_ndev (s : State) (rs : List CycleReq) (bs : List Bool) :
    (s.drove rs bs).ndev = s.ndev := rfl
@[simp] theorem State.drove_irtotal (s : State) (rs : List CycleReq) (bs : List Bool) :
    (s.drove rs bs).irtotal = s.irtotal := rfl
@[simp] theorem State.drove_irmismatch (s : State) (rs : List CycleReq) (bs : List Bool) :
    (s.drove rs bs).irmismatch = s.irmismatch := rfl
@[simp] theorem State.drove_dev (s : State) (rs : List CycleReq) (bs : List Bool) :
    (s.drove rs bs).dev = s.dev := rfl
@[simp] theorem State.drove_capbuf (s : State) (rs : List CycleReq) (bs : List Bool) :
    (s.drove rs bs).capbuf = s.capbuf := rfl
@[simp] theorem State.drove_rdbuf (s : State) (rs : List CycleReq) (bs : List Bool) :
    (s.drove rs bs).rdbuf = s.rdbuf := rfl
@[simp] theorem State.drove_seq (s : State) (rs : List CycleReq) (bs : List Bool) :
    (s.drove rs bs).seq = s.seq := rfl
@[simp] theorem State.drove_errlog (s : State) (rs : List CycleReq) (bs : List Bool) :
    (s.drove rs bs).errlog = s.errlog := rfl
@[simp] theorem State.drove_trace (s : State) (rs : List CycleReq) (bs : List Bool) :
    (s.drove rs bs).trace = s.trace ++ clkEvents rs bs := rfl
@[simp] theorem State.drove_params (s : State) (rs : List CycleReq) (bs : List Bool) :
    (s.drove rs bs).params = s.params := rfl
@[simp] theorem State.drove_inputs (s : State) (rs : List CycleReq) (bs : List Bool) :
    (s.drove rs bs).inputs = s.inputs := rfl
@[simp] theorem State.drove_env (s : State) (rs : List CycleReq) (bs : List Bool) :
    (s.drove rs bs).env = s.env.drop rs.length := rfl
@[simp] theorem State.drove_draws (s : State) (rs : List CycleReq) (bs : List Bool) :
    (s.drove rs bs).draws = s.draws + rs.length := rfl

/-! ### blockReset -/

@[simp] theorem State.blockReset_tap (s : State) : (s.blockReset).tap = none := rfl
@[simp] theorem State.blockReset_endir (s : State) : (s.blockReset).endir = .idle := rfl
@[simp] theorem State.blockReset_enddr (s : State) : (s.blockReset).enddr = .idle := rfl
@[simp] theorem State.blockReset_mask (s : State) : (s.blockReset).mask = none := rfl
@[simp] theorem State.blockReset_freq (s : State) : (s.blockReset).freq = 0 := rfl
@[simp] theorem State.blockReset_trst (s : State) : (s.blockReset).trst = false := rfl
@[simp] theorem State.blockReset_strict (s : State) : (s.blockReset).strict = false := rfl
@[simp] theorem State.blockReset_aborted (s : State) : (s.blockReset).aborted = false := rfl
@[simp] theorem State.blockReset_chainv (s : State) : (s.blockReset).chainv = false := rfl
@[simp] theorem State.blockReset_ndev (s : State) : (s.blockReset).ndev = 0 := rfl
@[simp] theorem State.blockReset_irtotal (s : State) : (s.blockReset).irtotal = 0 := rfl
@[simp] theorem State.blockReset_irmismatch (s : State) : (s.blockReset).irmismatch = false := rfl
@[simp] theorem State.blockReset_dev (s : State) : (s.blockReset).dev = [] := rfl
@[simp] theorem State.blockReset_capbuf (s : State) : (s.blockReset).capbuf = BitBuffer.empty := rfl
@[simp] theorem State.blockReset_rdbuf (s : State) : (s.blockReset).rdbuf = BitBuffer.empty := rfl
@[simp] theorem State.blockReset_seq (s : State) : (s.blockReset).seq = 0 := rfl
@[simp] theorem State.blockReset_errlog (s : State) : (s.blockReset).errlog = [] := rfl
@[simp] theorem State.blockReset_trace (s : State) : (s.blockReset).trace = [] := rfl
@[simp] theorem State.blockReset_params (s : State) : (s.blockReset).params = s.params := rfl
@[simp] theorem State.blockReset_inputs (s : State) : (s.blockReset).inputs = s.inputs := rfl
@[simp] theorem State.blockReset_env (s : State) : (s.blockReset).env = s.env := rfl
@[simp] theorem State.blockReset_draws (s : State) : (s.blockReset).draws = s.draws := rfl

end Sys2Proof.Machine
end

