-- ==== Sys2Proof/Laws/Tap.lean ====
section
/-! SUPPORT. The TAP state machine: codes, walks and the ROM. -/

namespace Sys2Proof

@[simp] theorem TapState.ofCode_code (t : TapState) : TapState.ofCode t.code = t := by cases t <;> rfl

theorem TapState.code_ofCode (c : BitVec 4) : (TapState.ofCode c).code = c := by revert c; decide

theorem TapState.codeNat_lt (t : TapState) : t.codeNat < 16 := by cases t <;> decide

theorem walk_append (s : TapState) (p q : List Bool) : walk s (p ++ q) = walk (walk s p) q := by
  induction p generalizing s with
  | nil => rfl
  | cons b p ih => exact ih _

theorem walk_resetSeq (s : TapState) : walk s resetSeq = .reset := by cases s <;> rfl

theorem walk_rom (a b : TapState) : walk a (rom a b) = b := by cases a <;> cases b <;> rfl

@[simp] theorem rom_self (a : TapState) : rom a a = [] := by cases a <;> rfl

/-- From a known state, T is the ROM entry. -/
@[simp] theorem transitionBits_some (a b : TapState) : transitionBits (some a) b = some (rom a b) := by
  by_cases h : a = b
  · subst h; simp [transitionBits]
  · simp [transitionBits, h]

/-- Whatever T gives leads where it says, from any state it may be used in. -/
theorem transitionBits_none {b : TapState} {p : List Bool} (h : transitionBits none b = some p) :
    b = .reset ∧ p = resetSeq := by
  cases b <;> simp_all [transitionBits]

/-- A stable state is held by its level. -/
theorem walk_hold {t : TapState} (h : t.stable = true) (n : Nat) :
    walk t (List.replicate n t.hold) = t := by
  induction n with
  | zero => rfl
  | succ n ih =>
    have : next t t.hold = t := by cases t <;> revert h <;> decide
    rw [List.replicate_succ, walk, this, ih]

/-- The shift states stay in the shift state while TMS is 0 and leave to Exit1 on 1. -/
theorem walk_data (reg : ScanReg) (n : Nat) :
    walk reg.shift (List.replicate n false ++ [true]) = reg.exit1 := by
  induction n with
  | zero => cases reg <;> rfl
  | succ n ih => rw [List.replicate_succ, List.cons_append, walk]; cases reg <;> exact ih

end Sys2Proof
end

