-- ==== Sys2Proof/Laws/Cycle.lean ====
section
/-! SUPPORT. Driving cycles: when all are answered the state is `drove`, when one fails it is the failed state;
and ShiftTMS, ShiftData and HardReset through these two cases. -/

namespace Sys2Proof.Machine

@[simp] theorem Res.bind_done {α β : Type} (a : α) (s : State) (f : α → State → Res β) :
    (Res.done a s).bind f = f a s := rfl

@[simp] theorem Res.bind_raised {α β : Type} (e : ErrorCode) (s : State) (f : α → State → Res β) :
    (Res.raised e s).bind f = .raised e s := rfl

/-- Composing steps is associative. -/
theorem Res.bind_assoc {α β γ : Type} (r : Res α) (f : α → State → Res β) (g : β → State → Res γ) :
    (r.bind f).bind g = r.bind fun a s => (f a s).bind g := by cases r <;> rfl

/-- The answer of the environment depends on what is lined up, the count of cycles and the trace alone. -/
theorem State.answer_congr {s t : State} (he : s.env = t.env) (hd : s.draws = t.draws)
    (ht : s.trace = t.trace) (r : CycleReq) : s.answer r = t.answer r := by
  simp [State.answer, he, hd, ht]

theorem answers_congr {s t : State} (he : s.env = t.env) (hd : s.draws = t.draws) (ht : s.trace = t.trace)
    (rs : List CycleReq) : answers rs s = answers rs t := by
  induction rs generalizing s t with
  | nil => rfl
  | cons r rs ih =>
    rw [answers, answers, State.answer_congr he hd ht]
    cases t.answer r with
    | fail => rfl
    | ok b => simp only [ih (s := s.clocked r b) (t := t.clocked r b) (by simp [he]) (by simp [hd])
        (by simp [ht])]

theorem answers_length {rs : List CycleReq} {s : State} {bs : List Bool} (h : answers rs s = some bs) :
    bs.length = rs.length := by
  induction rs generalizing s bs with
  | nil => simp_all [answers]
  | cons r rs ih =>
    rw [answers] at h
    cases hr : s.answer r with
    | fail => simp [hr] at h
    | ok b =>
      rw [hr] at h
      obtain ⟨cs, hcs, rfl⟩ := Option.map_eq_some_iff.1 h
      simp [ih hcs]

@[simp] theorem State.drove_nil (s : State) : s.drove [] [] = s := by
  cases s; simp [State.drove, clkEvents, tmsOf, walk]

theorem State.drove_cons (s : State) (r : CycleReq) (b : Bool) (rs : List CycleReq) (bs : List Bool) :
    (s.clocked r b).drove rs bs = s.drove (r :: rs) (b :: bs) := by
  simp [State.drove, State.clocked, clkEvents, tmsOf, walk, Function.comp_def, Nat.add_comm,
    Nat.add_left_comm]

theorem clkEvents_append {rs qs : List CycleReq} {bs cs : List Bool} (h : bs.length = rs.length) :
    clkEvents (rs ++ qs) (bs ++ cs) = clkEvents rs bs ++ clkEvents qs cs :=
  List.zipWith_append h.symm

@[simp] theorem tmsOf_append (rs qs : List CycleReq) : tmsOf (rs ++ qs) = tmsOf rs ++ tmsOf qs := by
  simp [tmsOf]

@[simp] theorem tmsOf_tmsReqs (idle : Bool) (seq : List Bool) : tmsOf (tmsReqs idle seq) = seq := by
  simp [tmsOf, tmsReqs, tmsReq, Function.comp_def]

@[simp] theorem tmsReqs_length (idle : Bool) (seq : List Bool) : (tmsReqs idle seq).length = seq.length := by
  simp [tmsReqs]

theorem tmsReqs_append (idle : Bool) (p q : List Bool) :
    tmsReqs idle (p ++ q) = tmsReqs idle p ++ tmsReqs idle q := by simp [tmsReqs]

theorem State.drove_drove (s : State) {rs qs : List CycleReq} {bs cs : List Bool}
    (h : bs.length = rs.length) : (s.drove rs bs).drove qs cs = s.drove (rs ++ qs) (bs ++ cs) := by
  simp [State.drove, clkEvents_append h, walk_append, Function.comp_def, Nat.add_assoc]

/-- Answers to a sequence of cycles are those to its first part, then those to the rest. -/
theorem answers_append {rs qs : List CycleReq} {s : State} {ds : List Bool} :
    answers (rs ++ qs) s = some ds ↔
      ∃ bs cs, ds = bs ++ cs ∧ answers rs s = some bs ∧ answers qs (s.drove rs bs) = some cs := by
  induction rs generalizing s ds with
  | nil => simp [answers]
  | cons r rs ih =>
    simp only [List.cons_append, answers]
    cases s.answer r with
    | fail => simp
    | ok b =>
      constructor
      · intro h
        obtain ⟨es, hes, rfl⟩ := Option.map_eq_some_iff.1 h
        obtain ⟨bs, cs, rfl, hb, hc⟩ := ih.1 hes
        exact ⟨b :: bs, cs, rfl, by simp [hb], by rwa [State.drove_cons] at hc⟩
      · rintro ⟨bs', cs, rfl, hb, hc⟩
        obtain ⟨bs, hbs, rfl⟩ := Option.map_eq_some_iff.1 hb
        refine Option.map_eq_some_iff.2 ⟨bs ++ cs, ih.2 ⟨bs, cs, rfl, hbs, ?_⟩, rfl⟩
        rwa [State.drove_cons]

/-- All cycles answered. -/
theorem runCycles_ok {rs : List CycleReq} {s : State} {bs : List Bool} (h : answers rs s = some bs) :
    runCycles rs s = .done bs (s.drove rs bs) := by
  induction rs generalizing s bs with
  | nil => obtain rfl : bs = [] := by simpa [answers] using h.symm
           simp [runCycles]
  | cons r rs ih =>
    rw [answers] at h
    cases hr : s.answer r with
    | fail => simp [hr] at h
    | ok b =>
      rw [hr] at h
      obtain ⟨cs, hcs, rfl⟩ := Option.map_eq_some_iff.1 h
      simp [runCycles, cycle, hr, ih hcs, State.drove_cons]

/-- A cycle fails. -/
theorem runCycles_fail {rs pre : List CycleReq} {s : State} {bs : List Bool} {r : CycleReq}
    (h : failsAt rs s pre bs r) : runCycles rs s = .raised .cycleFail ((s.drove pre bs).failed r) := by
  obtain ⟨⟨post, rfl⟩, hp, hr⟩ := h
  induction pre generalizing s bs with
  | nil =>
    obtain rfl : bs = [] := by simpa [answers] using hp.symm
    rw [State.drove_nil] at hr
    simp [runCycles, cycle, hr]
  | cons q pre ih =>
    rw [answers] at hp
    cases hq : s.answer q with
    | fail => simp [hq] at hp
    | ok b =>
      rw [hq] at hp
      obtain ⟨cs, hcs, rfl⟩ := Option.map_eq_some_iff.1 hp
      rw [← State.drove_cons] at hr
      simp [runCycles, cycle, hq, ih hcs hr, State.drove_cons]

/-- Every run of cycles is one of the two. -/
theorem runCycles_cases (rs : List CycleReq) (s : State) :
    (∃ bs, answers rs s = some bs) ∨ ∃ pre bs r, failsAt rs s pre bs r := by
  induction rs generalizing s with
  | nil => exact .inl ⟨[], rfl⟩
  | cons r rs ih =>
    cases hr : s.answer r with
    | fail => exact .inr ⟨[], [], r, ⟨rs, rfl⟩, rfl, by simpa using hr⟩
    | ok b =>
      rcases ih (s.clocked r b) with ⟨bs, h⟩ | ⟨pre, bs, q, ⟨post, rfl⟩, hp, hq⟩
      · exact .inl ⟨b :: bs, by simp [answers, hr, h]⟩
      · exact .inr ⟨r :: pre, b :: bs, q, ⟨post, rfl⟩, by simp [answers, hr, hp],
          by rwa [State.drove_cons] at hq⟩

/-- A failure in the first part of a sequence of cycles is a failure of the sequence. -/
theorem failsAt.append {rs pre : List CycleReq} {s : State} {bs : List Bool} {r : CycleReq}
    (h : failsAt rs s pre bs r) (qs : List CycleReq) : failsAt (rs ++ qs) s pre bs r := by
  obtain ⟨⟨post, rfl⟩, hp, hr⟩ := h
  exact ⟨⟨post ++ qs, by simp⟩, hp, hr⟩

/-- A failure of a sequence of cycles lies in its first part or, that answered, in the rest. -/
theorem failsAt_append {rs qs pre : List CycleReq} {s : State} {bs : List Bool} {r : CycleReq}
    (h : failsAt (rs ++ qs) s pre bs r) :
    failsAt rs s pre bs r ∨ ∃ cs pre2 bs2, answers rs s = some cs ∧ pre = rs ++ pre2 ∧ bs = cs ++ bs2 ∧
      failsAt qs (s.drove rs cs) pre2 bs2 r := by
  obtain ⟨⟨post, hpost⟩, hp, hr⟩ := h
  rcases List.append_eq_append_iff.1 hpost with ⟨as, rfl, hqs⟩ | ⟨cs, rfl, hcs⟩
  · obtain ⟨b1, b2, rfl, h1, h2⟩ := answers_append.1 hp
    refine .inr ⟨b1, as, b2, h1, rfl, rfl, ⟨post, hqs⟩, h2, ?_⟩
    rwa [State.drove_drove _ (answers_length h1)]
  · cases cs with
    | nil => exact .inr ⟨bs, [], [], by simpa using hp, by simp, by simp, ⟨post, by simpa using hcs.symm⟩,
        rfl, by simpa using hr⟩
    | cons c cs =>
      obtain ⟨rfl, -⟩ := List.cons.inj hcs
      exact .inl ⟨⟨cs, rfl⟩, hp, hr⟩

/-! ### ShiftTMS -/

theorem shiftTMS_ok {seq : List Bool} {s : State} {bs : List Bool}
    (h : answers (tmsReqs s.params.tdiIdle seq) s = some bs) :
    shiftTMS seq s = .done () (s.drove (tmsReqs s.params.tdiIdle seq) bs) := by
  simp [shiftTMS, runCycles_ok h]

theorem shiftTMS_fail {seq : List Bool} {s : State} {pre : List CycleReq} {bs : List Bool} {r : CycleReq}
    (h : failsAt (tmsReqs s.params.tdiIdle seq) s pre bs r) :
    shiftTMS seq s = .raised .cycleFail ((s.drove pre bs).failed r) := by
  simp [shiftTMS, runCycles_fail h]

/-! ### ShiftData -/

@[simp] theorem dataReqs_length (d : BitBuffer) (capture : Bool) : (dataReqs d capture).length = d.len := by
  simp [dataReqs]

/-- The TMS levels of the data cycles: 0 but on the last one. -/
theorem tmsOf_dataReqs (d : BitBuffer) (capture : Bool) (h : d.len ≠ 0) :
    tmsOf (dataReqs d capture) = List.replicate (d.len - 1) false ++ [true] := by
  apply List.ext_getElem
  · simp [tmsOf]; omega
  · intro i h1 h2
    simp only [tmsOf, dataReqs, List.map_map, List.length_map, List.length_range] at h1
    simp only [tmsOf, dataReqs, List.getElem_map, List.getElem_range, List.getElem_append,
      List.length_replicate, List.getElem_replicate]
    split
    · simp; omega
    · simp; omega

/-- The cycles of a scan lead to its end state. -/
theorem walk_shiftReqs (idle : Bool) (t fin : TapState) (reg : ScanReg) (d : BitBuffer) (capture : Bool)
    (h : d.len ≠ 0) : walk t (tmsOf (shiftReqs idle t reg d capture fin)) = fin := by
  rw [shiftReqs, tmsOf_append, tmsOf_append, tmsOf_tmsReqs, tmsOf_tmsReqs, tmsOf_dataReqs d capture h,
    walk_append, walk_append, walk_rom, walk_data, walk_rom]

/-- A scan all of whose cycles are answered. -/
theorem shiftData_ok {reg : ScanReg} {d : BitBuffer} {capture : Bool} {fin t : TapState} {s : State}
    {bs : List Bool} (ht : s.tap = some t)
    (h : answers (shiftReqs s.params.tdiIdle t reg d capture fin) s = some bs) :
    shiftData reg d capture fin s =
      .done (if capture then BitBuffer.ofBits (dataBits t reg d bs) else BitBuffer.empty)
        (s.drove (shiftReqs s.params.tdiIdle t reg d capture fin) bs) := by
  obtain ⟨b12, b3, rfl, h12, h3⟩ := answers_append.1 h
  obtain ⟨b1, b2, rfl, h1, h2⟩ := answers_append.1 h12
  have l1 := answers_length h1
  have l2 := answers_length h2
  have l12 := answers_length h12
  have e2 : (s.drove (tmsReqs s.params.tdiIdle (rom t reg.shift)) b1).params = s.params := rfl
  rw [← State.drove_drove s l1] at h3
  have d1 : dataBits t reg d (b1 ++ b2 ++ b3) = b2 := by
    simp only [dataBits, tmsReqs_length, dataReqs_length] at l1 l2 ⊢
    rw [List.append_assoc, ← l1, List.drop_left, ← l2, List.take_left]
  simp only [shiftData, ht, transitionBits_some]
  rw [shiftTMS_ok h1, Res.bind_done, runCycles_ok h2, Res.bind_done, shiftTMS_ok h3, Res.bind_done, d1,
    State.drove_drove s l1]
  simp only [State.drove_params]
  rw [State.drove_drove s l12]
  rfl

/-- A scan a cycle of which fails. -/
theorem shiftData_fail {reg : ScanReg} {d : BitBuffer} {capture : Bool} {fin t : TapState} {s : State}
    {pre : List CycleReq} {bs : List Bool} {r : CycleReq} (ht : s.tap = some t)
    (h : failsAt (shiftReqs s.params.tdiIdle t reg d capture fin) s pre bs r) :
    shiftData reg d capture fin s = .raised .cycleFail ((s.drove pre bs).failed r) := by
  simp only [shiftData, ht, transitionBits_some]
  rcases failsAt_append h with h12 | ⟨c12, pre3, b3, h12, rfl, rfl, h3⟩
  · rcases failsAt_append h12 with h1 | ⟨c1, pre2, b2, h1, rfl, rfl, h2⟩
    · simp [shiftTMS_fail h1]
    · rw [shiftTMS_ok h1, Res.bind_done, runCycles_fail h2, Res.bind_raised,
        State.drove_drove s (answers_length h1)]
  · obtain ⟨c1, c2, rfl, h1, h2⟩ := answers_append.1 h12
    rw [shiftTMS_ok h1, Res.bind_done, runCycles_ok h2, Res.bind_done]
    rw [← State.drove_drove s (answers_length h1)] at h3
    rw [shiftTMS_fail h3, Res.bind_raised, State.drove_drove s (answers_length h1),
      State.drove_drove s (answers_length h12)]

/-- A scan from a known tracked state ends in one of the two. -/
theorem shiftData_cases (reg : ScanReg) (d : BitBuffer) (capture : Bool) (fin : TapState) {t : TapState}
    {s : State} (ht : s.tap = some t) :
    (∃ bs, answers (shiftReqs s.params.tdiIdle t reg d capture fin) s = some bs ∧
      shiftData reg d capture fin s =
        .done (if capture then BitBuffer.ofBits (dataBits t reg d bs) else BitBuffer.empty)
          (s.drove (shiftReqs s.params.tdiIdle t reg d capture fin) bs)) ∨
    (∃ pre bs r, failsAt (shiftReqs s.params.tdiIdle t reg d capture fin) s pre bs r ∧
      shiftData reg d capture fin s = .raised .cycleFail ((s.drove pre bs).failed r)) := by
  rcases runCycles_cases (shiftReqs s.params.tdiIdle t reg d capture fin) s with ⟨bs, h⟩ | ⟨pre, bs, r, h⟩
  · exact .inl ⟨bs, h, shiftData_ok ht h⟩
  · exact .inr ⟨pre, bs, r, h, shiftData_fail ht h⟩

/-! ### HardReset -/

/-- The two halves of HardReset drive the cycles of IDLESEQ. -/
theorem tmsReqs_idleSeq (idle : Bool) :
    tmsReqs idle idleSeq = tmsReqs idle resetSeq ++ tmsReqs idle [false] := rfl

theorem hardReset_ok {s : State} {bs : List Bool} (h : answers (tmsReqs s.params.tdiIdle idleSeq) s = some bs) :
    hardReset s = .done () ((s.drove (tmsReqs s.params.tdiIdle idleSeq) bs).setTap .idle) := by
  rw [tmsReqs_idleSeq] at h
  obtain ⟨b1, b2, rfl, h1, h2⟩ := answers_append.1 h
  have h2' : answers (tmsReqs ((s.drove (tmsReqs s.params.tdiIdle resetSeq) b1).setTap .reset).params.tdiIdle
      [false]) ((s.drove (tmsReqs s.params.tdiIdle resetSeq) b1).setTap .reset) = some b2 := by
    rw [← h2]; exact answers_congr rfl rfl rfl _
  rw [hardReset, shiftTMS_ok h1, Res.bind_done, shiftTMS_ok h2', tmsReqs_idleSeq,
    ← State.drove_drove s (answers_length h1)]
  rfl

theorem hardReset_fail {s : State} {pre : List CycleReq} {bs : List Bool} {r : CycleReq}
    (h : failsAt (tmsReqs s.params.tdiIdle idleSeq) s pre bs r) :
    hardReset s = .raised .cycleFail ((s.drove pre bs).failed r) := by
  rw [tmsReqs_idleSeq] at h
  rcases failsAt_append h with h1 | ⟨c1, pre2, b2, h1, rfl, rfl, h2⟩
  · simp [hardReset, shiftTMS_fail h1]
  · have h2' : failsAt (tmsReqs ((s.drove (tmsReqs s.params.tdiIdle resetSeq) c1).setTap .reset).params.tdiIdle
        [false]) ((s.drove (tmsReqs s.params.tdiIdle resetSeq) c1).setTap .reset) pre2 b2 r := by
      obtain ⟨hp, ha, hr⟩ := h2
      refine ⟨hp, ?_, ?_⟩
      · exact (answers_congr (s := (s.drove _ c1).setTap .reset) (t := s.drove _ c1) rfl rfl rfl _).trans ha
      · exact (State.answer_congr (s := ((s.drove _ c1).setTap .reset).drove pre2 b2)
          (t := (s.drove _ c1).drove pre2 b2) rfl rfl rfl r).trans hr
    rw [hardReset, shiftTMS_ok h1, Res.bind_done, shiftTMS_fail h2', ← State.drove_drove s (answers_length h1)]
    rfl

end Sys2Proof.Machine
end

