-- ==== Sys2Proof/Laws/Command.lean ====
section
/-! SUPPORT. The ways a command ends, and the shared bodies through them: a move, the checks of a scan, the
resolved mask, the checks of a per-device command. -/

namespace Sys2Proof.Machine

/-! ### Ends of a command -/

/-- No error: SEQ counts, nothing else. -/
@[simp] theorem complete_done (s : State) : complete (.done none s) = .next { s with seq := s.seq + 1 } := by
  simp [complete, finish, State.endCommand]

/-- A reported TDO mismatch: one record; an abort under STRICT only. -/
theorem complete_mismatch (s : State) :
    complete (.done (some .tdoMismatch) s) = .next { s with
      errlog := s.errlog ++ [⟨s.seq, .tdoMismatch⟩], seq := s.seq + 1, aborted := s.aborted || s.strict } := by
  have h : ErrorCode.tdoMismatch.fatal = false := rfl
  simp [complete, finish, State.endCommand, State.recordError, h]

/-- A raised FORMAT error does nothing but record itself. -/
theorem complete_format (s : State) (e : ErrorCode) (h : e.kind = kindFormat) :
    complete (.raised e s) = .next (s.refusedWith e) := by
  have h1 : ¬ (e.kind = kindProtocol ∨ e.kind = kindTransport) := by rw [h]; decide
  simp [complete, finish, State.endCommand, State.takeError, State.recordError, State.refusedWith, h1,
    Bool.or_assoc]

/-- A raised PROTOCOL error loses the tracked state. -/
theorem complete_protocol (s : State) (e : ErrorCode) (h : e.kind = kindProtocol) :
    complete (.raised e s) = .next { s with
      tap := none, errlog := s.errlog ++ [⟨s.seq, e⟩], seq := s.seq + 1, aborted := s.aborted || s.strict } := by
  have hf : e.fatal = false := by cases e <;> simp_all [ErrorCode.kind, kindProtocol, kindFormat, kindVerify,
    kindTransport, ErrorCode.fatal]
  simp [complete, finish, State.endCommand, State.takeError, State.recordError, h, hf]

/-- A failed cycle. -/
theorem complete_fail (s : State) (pre : List CycleReq) (bs : List Bool) (r : CycleReq) :
    complete (.raised .cycleFail ((s.drove pre bs).failed r)) = .next (s.lostCycle pre bs r) := by
  simp [complete, finish, State.endCommand, State.takeError, State.recordError, State.lostCycle, State.failed,
    State.drove, ErrorCode.kind, ErrorCode.fatal, kindProtocol, kindTransport]

/-- Every FORMAT error of the parse step and of the checks is one of these. -/
theorem kind_decodeErrorCode (e : DecodeError) : (decodeErrorCode e).kind = kindFormat := by cases e <;> rfl

/-! ### Congruence -/

/-- A failure depends on what is lined up, the count of cycles and the trace alone. -/
theorem failsAt_congr {s t : State} (he : s.env = t.env) (hd : s.draws = t.draws) (ht : s.trace = t.trace)
    {rs pre : List CycleReq} {bs : List Bool} {r : CycleReq} (h : failsAt rs s pre bs r) :
    failsAt rs t pre bs r := by
  obtain ⟨hp, ha, hf⟩ := h
  refine ⟨hp, (answers_congr he hd ht _).symm.trans ha, ?_⟩
  exact (State.answer_congr (s := t.drove pre bs) (t := s.drove pre bs) (by simp [State.drove, he])
    (by simp [State.drove, hd]) (by simp [State.drove, ht]) r).trans hf

/-! ### Moves -/

theorem moveTo_ok {st : TapState} {s : State} (hk : s.tap = none → st = .reset) {bs : List Bool}
    (h : answers (tmsReqs s.params.tdiIdle (movePath s.tap st)) s = some bs) :
    moveTo st s =
      .done () ((s.drove (tmsReqs s.params.tdiIdle (movePath s.tap st)) bs).setTap st) := by
  cases ht : s.tap with
  | none =>
    rw [ht] at h
    have h' : answers (tmsReqs s.params.tdiIdle resetSeq) s = some bs := h
    simp only [moveTo, ht, hk ht, transitionBits, shiftTMS_ok h', Res.bind_done]; rfl
  | some t =>
    rw [ht] at h
    simp only [movePath] at h ⊢
    simp only [moveTo, ht, transitionBits_some]
    rw [shiftTMS_ok h]; rfl

theorem moveTo_fail {st : TapState} {s : State} (hk : s.tap = none → st = .reset) {pre : List CycleReq}
    {bs : List Bool} {r : CycleReq}
    (h : failsAt (tmsReqs s.params.tdiIdle (movePath s.tap st)) s pre bs r) :
    moveTo st s = .raised .cycleFail ((s.drove pre bs).failed r) := by
  cases ht : s.tap with
  | none =>
    rw [ht] at h
    have h' : failsAt (tmsReqs s.params.tdiIdle resetSeq) s pre bs r := h
    simp only [moveTo, ht, hk ht, transitionBits, shiftTMS_fail h']; rfl
  | some t =>
    rw [ht] at h
    simp only [movePath] at h ⊢
    simp only [moveTo, ht, transitionBits_some]
    rw [shiftTMS_fail h]; rfl

theorem moveTo_unknown {st : TapState} {s : State} (ht : s.tap = none) (h : st ≠ .reset) :
    moveTo st s = .raised .stateUnknown s := by
  cases st <;> simp_all [moveTo, transitionBits]

/-! ### Scans -/

theorem lengthsAgree_iff (n : Nat) (smask tdo mask : Option BitBuffer) :
    lengthsAgree n smask tdo mask = true ↔
      ∀ x, smask = some x ∨ tdo = some x ∨ mask = some x → x.len = n := by
  cases smask <;> cases tdo <;> cases mask <;> simp [lengthsAgree, or_imp, forall_and]

theorem checkScan_ready {tdi : BitBuffer} {smask tdo mask : Option BitBuffer} {s : State}
    (h : scanReady tdi smask tdo mask s) : checkScan tdi smask tdo mask s = none := by
  obtain ⟨h1, h2, h3, h4⟩ := h
  have ha : (mask.isSome && tdo.isNone) = false := by cases mask <;> cases tdo <;> simp_all
  have ht : s.tap.isNone = false := by cases h : s.tap <;> simp_all
  simp [checkScan, ha, h2, (lengthsAgree_iff _ _ _ _).2 h3, ht]

/-- A scan that passes the checks is ready. -/
theorem scanReady_of_checkScan {tdi : BitBuffer} {smask tdo mask : Option BitBuffer} {s : State}
    (h : checkScan tdi smask tdo mask s = none) : scanReady tdi smask tdo mask s := by
  unfold checkScan at h
  split at h
  · cases h
  rename_i h1
  split at h
  · cases h
  rename_i h2
  split at h
  · cases h
  rename_i h3
  split at h
  · cases h
  rename_i h4
  refine ⟨?_, h2, (lengthsAgree_iff _ _ _ _).1 (by simpa using h3), ?_⟩
  · cases mask <;> cases tdo <;> simp_all
  · cases ht : s.tap <;> simp_all

/-- The errors of CheckScan. -/
theorem checkScan_error {tdi : BitBuffer} {smask tdo mask : Option BitBuffer} {s : State} {e : ErrorCode}
    (h : checkScan tdi smask tdo mask s = some e) :
    e = .badPayload ∨ e = .zeroLength ∨ e = .lengthMismatch ∨ e = .stateUnknown := by
  unfold checkScan at h
  split at h
  · simp_all
  split at h
  · simp_all
  split at h
  · simp_all
  split at h <;> simp_all

/-- ResolveMask gives the used mask and stores a MASK operand. -/
theorem resolveMask_some {mask : Option BitBuffer} {n : Nat} {s : State} {m : BitBuffer}
    (h : usedMask mask n s = some m) :
    resolveMask n mask s = .done m { s with mask := if mask = none then s.mask else mask } := by
  cases mask with
  | some m' => simp only [usedMask, Option.some.injEq] at h; simp [resolveMask, h]
  | none =>
    cases hm : s.mask with
    | some m' =>
      simp only [usedMask, hm, Option.some.injEq] at h
      subst h
      cases s; simp_all [resolveMask]
    | none =>
      cases hp : s.params.noMaskPolicy with
      | error => simp [usedMask, hm, hp] at h
      | allOnes =>
        simp only [usedMask, hm, hp, Option.some.injEq] at h
        subst h
        cases s; simp_all [resolveMask]

/-- With no mask to use ResolveMask raises NO_STICKY_MASK. -/
theorem resolveMask_none {mask : Option BitBuffer} {n : Nat} {s : State} (h : usedMask mask n s = none) :
    mask = none ∧ resolveMask n mask s = .raised .noStickyMask s := by
  cases mask with
  | some m' => simp [usedMask] at h
  | none =>
    cases hm : s.mask with
    | some m' => simp [usedMask, hm] at h
    | none => cases hp : s.params.noMaskPolicy <;> simp_all [usedMask, resolveMask]

/-! ### Devices -/

theorem checkChain_ready {bits : BitBuffer} {s : State} (h1 : bits.len ≠ 0) (h2 : s.tap ≠ none)
    (h3 : s.chainv = true) : checkChain bits s = none := by
  have ht : s.tap.isNone = false := by cases h : s.tap <;> simp_all
  simp [checkChain, h1, ht, h3]

theorem checkDevDr_ready {k : Nat} {bits : BitBuffer} {s : State} (h : deviceReady k bits s) :
    checkDevDr k bits s = none := by
  obtain ⟨h1, h2, h3, h4⟩ := h
  simp [checkDevDr, checkChain_ready h1 h2 h3, Nat.not_le.2 h4]

theorem checkDevIr_ready {k : Nat} {bits : BitBuffer} {s : State} (h : deviceReady k bits s)
    (hl : bits.len = s.irlen k) : checkDevIr k bits s = none := by
  obtain ⟨h1, h2, h3, h4⟩ := h
  have h5 : s.irlen k ≠ 0 := hl ▸ h1
  simp [checkDevIr, checkChain_ready h1 h2 h3, Nat.not_le.2 h4, h5, hl]

/-- The errors of the checks common to the per-device commands. -/
theorem checkChain_error {bits : BitBuffer} {s : State} {e : ErrorCode} (h : checkChain bits s = some e) :
    e = .zeroLength ∨ e = .stateUnknown ∨ e = .noChain := by
  unfold checkChain at h
  split at h
  · simp_all
  split at h
  · simp_all
  split at h <;> simp_all

theorem deviceReady_of_checkDevDr {k : Nat} {bits : BitBuffer} {s : State}
    (h : checkDevDr k bits s = none) : deviceReady k bits s := by
  unfold checkDevDr at h
  split at h
  · cases h
  rename_i hc
  split at h
  · cases h
  rename_i hk
  unfold checkChain at hc
  split at hc
  · cases hc
  rename_i h1
  split at hc
  · cases hc
  rename_i h2
  split at hc
  · cases hc
  rename_i h3
  exact ⟨h1, by cases ht : s.tap <;> simp_all, by simpa using h3, by omega⟩

theorem deviceReady_of_checkDevIr {k : Nat} {bits : BitBuffer} {s : State}
    (h : checkDevIr k bits s = none) : deviceReady k bits s ∧ bits.len = s.irlen k := by
  unfold checkDevIr at h
  split at h
  · cases h
  rename_i hc
  split at h
  · cases h
  rename_i hk
  split at h
  · cases h
  rename_i hl
  rw [not_or] at hk
  exact ⟨deviceReady_of_checkDevDr (k := k) (by simp [checkDevDr, hc, hk.1]), by simpa using hl⟩

end Sys2Proof.Machine
end

