-- ==== Sys2Proof/Laws/Decode.lean ====
section
/-! SUPPORT. The header word and its fields, the byte carriage of words and buffers, and the payload readers: each
undoes its writer. -/

namespace Sys2Proof

/-! ### Header -/

theorem Header.ofWord_toWord (h : Header) : Header.ofWord h.toWord = h := by
  obtain ⟨op, st, sv, ft, fm, fs, imm⟩ := h
  have h1 := op.isLt
  have h2 := st.isLt
  have h3 := imm.isLt
  have hb : ∀ b : Bool, b.toNat < 2 := fun b => Bool.toNat_lt b
  have := hb sv
  have := hb ft
  have := hb fm
  have := hb fs
  have hbit : ∀ (n : Nat) (b : Bool), n = b.toNat → (n == 1) = b := by
    intro n b h; subst h; cases b <;> rfl
  simp only [Header.ofWord, Header.toWord, bitField, BitVec.toNat_ofNat, Header.mk.injEq]
  refine ⟨?_, ?_, hbit _ _ ?_, hbit _ _ ?_, hbit _ _ ?_, hbit _ _ ?_, ?_⟩
  · apply BitVec.eq_of_toNat_eq; simp only [BitVec.toNat_ofNat]; omega
  · apply BitVec.eq_of_toNat_eq; simp only [BitVec.toNat_ofNat]; omega
  · omega
  · omega
  · omega
  · omega
  · apply BitVec.eq_of_toNat_eq; simp only [BitVec.toNat_ofNat]; omega

theorem toNat_bit_of_mod (n : Nat) : (n % 2 == 1).toNat = n % 2 := by
  rcases Nat.mod_two_eq_zero_or_one n with h | h <;> simp [h]

theorem Header.toWord_ofWord (w : Word) : (Header.ofWord w).toWord = w := by
  have h := w.isLt
  apply BitVec.eq_of_toNat_eq
  simp only [Header.toWord, Header.ofWord, bitField, BitVec.toNat_ofNat, Nat.pow_one, toNat_bit_of_mod]
  omega

/-! ### Bytes -/

@[simp] theorem wordBytes_length (w : Word) : (wordBytes w).length = 4 := by simp [wordBytes]

theorem bytesValue_append (a b : List Byte) : bytesValue (a ++ b) = bytesValue a + 2 ^ (8 * a.length) * bytesValue b := by
  induction a with
  | nil => simp [bytesValue]
  | cons x a ih =>
    simp only [List.cons_append, bytesValue, ih, List.length_cons, Nat.mul_add, Nat.mul_one, Nat.pow_add]
    ring

/-- The little-endian bytes of a number, as many as are asked for, hold it modulo their capacity. -/
theorem bytesValue_range (v n : Nat) :
    bytesValue ((List.range n).map fun j => BitVec.ofNat 8 (v >>> (8 * j))) = v % 2 ^ (8 * n) := by
  induction n with
  | zero => simp [bytesValue, Nat.mod_one]
  | succ n ih =>
    rw [List.range_succ, List.map_append, bytesValue_append, ih]
    simp only [List.length_map, List.length_range, List.map_cons, List.map_nil, bytesValue, BitVec.toNat_ofNat,
      Nat.mul_zero, Nat.add_zero, Nat.shiftRight_eq_div_pow, Nat.mul_add, Nat.mul_one, Nat.pow_add]
    rw [← Nat.mod_mul]

theorem bytesValue_wordBytes (w : Word) : bytesValue (wordBytes w) = w.toNat := by
  rw [wordBytes, bytesValue_range]; exact Nat.mod_eq_of_lt w.isLt

theorem takeBytes_append (a rest : List Byte) : takeBytes a.length (a ++ rest) = some (a, rest) := by
  simp [takeBytes]

theorem takeWord_wordBytes (w : Word) (rest : List Byte) : takeWord (wordBytes w ++ rest) = some (w, rest) := by
  have h := takeBytes_append (wordBytes w) rest
  rw [wordBytes_length] at h
  simp [takeWord, h, bytesValue_wordBytes]

theorem BitBuffer.asBytes_length (b : BitBuffer) : b.asBytes.length = byteCount b.len := by
  simp [BitBuffer.asBytes]

/-- `as_bytes` loses nothing. -/
theorem BitBuffer.fromBytes_asBytes (b : BitBuffer) : BitBuffer.fromBytes b.len b.asBytes = b := by
  have hle : 2 ^ b.len ∣ 2 ^ (8 * byteCount b.len) := Nat.pow_dvd_pow 2 (by simp only [byteCount]; omega)
  refine BitBuffer.ext_val rfl ?_
  simp only [BitBuffer.fromBytes, BitBuffer.asBytes, BitBuffer.ofNat_val, bytesValue_range]
  rw [Nat.mod_mod_of_dvd _ hle, Nat.mod_eq_of_lt b.lt]

theorem takeBufOperand_toBytes (b : BitBuffer) (h : b.len < 2 ^ 32) (rest : List Byte) :
    takeBufOperand ((Operand.buf b).toBytes ++ rest) = some (.buf b, rest) := by
  have hl : (BitVec.ofNat 32 b.len).toNat = b.len := by
    simp only [BitVec.toNat_ofNat]; exact Nat.mod_eq_of_lt h
  have hd := takeBytes_append (b.asBytes ++ List.replicate (padCount (byteCount b.len)) 0) rest
  simp only [List.length_append, BitBuffer.asBytes_length, List.length_replicate] at hd
  have ht : (b.asBytes ++ List.replicate (padCount (byteCount b.len)) (0 : Byte)).take (byteCount b.len)
      = b.asBytes := by
    rw [← b.asBytes_length, List.take_left]
  rw [Operand.toBytes, List.append_assoc, List.append_assoc, takeBufOperand, takeWord_wordBytes]
  simp only [hl]
  rw [← List.append_assoc, hd]
  simp only [ht, b.fromBytes_asBytes]

/-- The kind of an operand; `true` is a BUF. -/
def Operand.isBuf : Operand → Bool
  | .word _ => false
  | .buf _ => true

theorem takeOperands_toBytes (os : List Operand) (h : ∀ o ∈ os, o.carriable = true) (rest : List Byte) :
    takeOperands (os.map Operand.isBuf) (os.flatMap Operand.toBytes ++ rest) = some (os, rest) := by
  induction os with
  | nil => rfl
  | cons o os ih =>
    have ih' := ih fun x hx => h x (List.mem_cons_of_mem _ hx)
    cases o with
    | word w =>
      simp [takeOperands, Operand.isBuf, Operand.toBytes, takeWord_wordBytes, ih']
    | buf b =>
      have hb : b.len < 2 ^ 32 := by simpa [Operand.carriable] using h _ List.mem_cons_self
      simp [takeOperands, Operand.isBuf, takeBufOperand_toBytes b hb, ih']

/-- A command whose operands have the kinds its header fixes is read back from its bytes. -/
theorem takeCommand_toBytes (c : Command) (hk : payloadShape (Header.ofWord c.header) = c.payload.map Operand.isBuf)
    (hc : c.carriable = true) (rest : List Byte) : takeCommand (c.toBytes ++ rest) = some (c, rest) := by
  have hos := takeOperands_toBytes c.payload (by simpa [Command.carriable] using hc) rest
  simp [takeCommand, Command.toBytes, List.append_assoc, takeWord_wordBytes, hk, hos]

/-! ### Decode by the fields of the header -/

/-- A command whose header is in its format decodes by its payload. -/
theorem decode_of_fields {w : Word} {p : List Operand} {h : Header} {f : Format} {i : Instr}
    (hw : Header.ofWord w = h) (hf : opFormat h.op = some f) (hr : f.reservedClear h = true)
    (hp : decodePayload h p = .ok i) : decode ⟨w, p⟩ = .ok i := by
  subst hw
  simp only [decode, hf, hr, hp, if_true]

/-! ### Operands of the scans -/

@[simp] theorem takeBuf_isSome (b : Option BitBuffer) (p : List Operand) :
    takeBuf b.isSome (b.toList.map Operand.buf ++ p) = some (b, p) := by cases b <;> rfl

theorem takeScanBufs_scanOperands (op : BitVec 8) (tdi : BitBuffer) (smask tdo mask : Option BitBuffer) :
    takeScanBufs (scanHeader op smask tdo mask) (scanOperands tdi smask tdo mask) =
      some (tdi, smask, tdo, mask) := by
  cases smask <;> cases tdo <;> cases mask <;> rfl

/-- The kinds of the operands an encoded command has are those its header fixes. -/
theorem payloadShape_encode (i : Instr) :
    payloadShape (encodeFields i).1 = (encodeFields i).2.map Operand.isBuf := by
  cases i with
  | runtest st n => cases st <;> rfl
  | sir tdi smask tdo mask => cases smask <;> cases tdo <;> cases mask <;> rfl
  | sdr tdi smask tdo mask => cases smask <;> cases tdo <;> cases mask <;> rfl
  | _ => rfl

end Sys2Proof
end

