-- ==== Sys2Proof/Laws/Frame.lean ====
section
/-! SUPPORT. What a command may have done when it ends: one lemma over all commands (`body_spec`), built from the
specs of the shared operations by a small logic of outcomes (`Res.ends`). -/

namespace Sys2Proof.Machine

/-! ### Outcomes -/

/-- A course that ends satisfies `Q` of its value and state, one that raised satisfies `E`. -/
def Res.ends {α : Type} (r : Res α) (Q : α → State → Prop) (E : ErrorCode → State → Prop) : Prop :=
  match r with
  | .done a s => Q a s
  | .raised e s => E e s

theorem Res.ends_bind {α β : Type} {r : Res α} {f : α → State → Res β} {Q : α → State → Prop}
    {Q' : β → State → Prop} {E : ErrorCode → State → Prop} (h : r.ends Q E)
    (hf : ∀ a s, Q a s → (f a s).ends Q' E) : (r.bind f).ends Q' E := by
  cases r with
  | done a s => exact hf a s h
  | raised e s => exact h

theorem Res.ends_mono {α : Type} {r : Res α} {Q Q' : α → State → Prop} {E E' : ErrorCode → State → Prop}
    (h : r.ends Q E) (hQ : ∀ a s, Q a s → Q' a s) (hE : ∀ e s, E e s → E' e s) : r.ends Q' E' := by
  cases r with
  | done a s => exact hQ a s h
  | raised e s => exact hE e s h

/-! ### What the chain has seen -/

theorem knownTms_append (a b : List PinEvent) : knownTms (a ++ b) = b.foldl seenAfter (knownTms a) := by
  simp [knownTms, List.foldl_append]

theorem knownTms_clkEvents (tr : List PinEvent) {rs : List CycleReq} {bs : List Bool}
    (h : bs.length = rs.length) : knownTms (tr ++ clkEvents rs bs) = knownTms tr ++ tmsOf rs := by
  induction rs generalizing tr bs with
  | nil => simp [clkEvents, tmsOf]
  | cons r rs ih =>
    cases bs with
    | nil => simp at h
    | cons b bs =>
      have hcons : tr ++ clkEvents (r :: rs) (b :: bs) = (tr ++ [clkEvent r b]) ++ clkEvents rs bs := by
        simp [clkEvents]
      rw [hcons, ih _ (by simpa using h), knownTms_append]
      simp [clkEvent, seenAfter, tmsOf]

theorem clkEvents_good (rs : List CycleReq) (bs : List Bool) :
    ∀ e ∈ clkEvents rs bs, e.isXfail = false ∧ e.good := by
  intro e he
  obtain ⟨i, hi, rfl⟩ := List.getElem_of_mem he
  simp only [clkEvents, List.getElem_zipWith, clkEvent, PinEvent.isXfail, PinEvent.good, true_and]
  split <;> simp_all

/-- The events of answered cycles: one `Clk` event a cycle, sampled where the cycle samples. -/
theorem clkEvents_counts {rs : List CycleReq} {bs : List Bool} (h : bs.length = rs.length) :
    (clkEvents rs bs).length = rs.length ∧ (∀ e ∈ clkEvents rs bs, e.isClk = true) ∧
    (clkEvents rs bs).countP PinEvent.sampled = rs.countP CycleReq.sample := by
  induction rs generalizing bs with
  | nil => simp [clkEvents]
  | cons r rs ih =>
    cases bs with
    | nil => simp at h
    | cons b bs =>
      obtain ⟨h1, h2, h3⟩ := ih (Nat.succ.inj h)
      simp only [clkEvents, List.zipWith_cons_cons, List.length_cons, List.mem_cons, List.countP_cons] at *
      refine ⟨by omega, ?_, by rw [h3]; rfl⟩
      rintro e (rfl | he)
      · rfl
      · exact h2 e he

/-! ### Following -/

/-- `t` is `s` after cycles that completed, and waits: nothing else changed, and the tracked state is true of
the chain if it was. -/
structure Follows (s t : State) : Prop where
  kept : t = { s with tap := t.tap, trace := t.trace, env := t.env, draws := t.draws }
  events : ∃ ev, t.trace = s.trace ++ ev ∧ ∀ e ∈ ev, e.isXfail = false ∧ e.good
  tracks : tracksChain s → tracksChain t

theorem Follows.refl (s : State) : Follows s s := ⟨rfl, ⟨[], by simp⟩, id⟩

theorem Follows.trans {s t u : State} (h : Follows s t) (g : Follows t u) : Follows s u := by
  obtain ⟨ev, he, hg⟩ := h.events
  obtain ⟨ev', he', hg'⟩ := g.events
  refine ⟨?_, ⟨ev ++ ev', by rw [he', he, List.append_assoc], fun e hm => ?_⟩, g.tracks ∘ h.tracks⟩
  · rw [g.kept, h.kept]
  · rcases List.mem_append.1 hm with hm | hm
    · exact hg e hm
    · exact hg' e hm

/-- Cycles that completed. -/
theorem Follows.drove (s : State) {rs : List CycleReq} {bs : List Bool} (h : bs.length = rs.length) :
    Follows s (s.drove rs bs) := by
  refine ⟨rfl, ⟨clkEvents rs bs, rfl, clkEvents_good rs bs⟩, fun hs t ht start => ?_⟩
  cases hst : s.tap with
  | none => simp [State.drove, hst] at ht
  | some u =>
    have hu : walk u (tmsOf rs) = t := by simpa [State.drove, hst] using ht
    show walk start (knownTms (s.trace ++ clkEvents rs bs)) = t
    rw [knownTms_clkEvents _ h, walk_append, hs u hst, hu]

/-- Setting the tracked state to what the cycles just completed lead to from everywhere. -/
theorem Follows.drove_setTap (s : State) {rs : List CycleReq} {bs : List Bool} {t : TapState}
    (h : bs.length = rs.length) (ht : (∀ start, walk start (tmsOf rs) = t) ∨
      ∃ u, s.tap = some u ∧ walk u (tmsOf rs) = t) : Follows s ((s.drove rs bs).setTap t) := by
  refine ⟨rfl, ⟨clkEvents rs bs, rfl, clkEvents_good rs bs⟩, fun hs v hv start => ?_⟩
  obtain rfl : t = v := by simpa [State.setTap] using hv
  show walk start (knownTms (s.trace ++ clkEvents rs bs)) = t
  rw [knownTms_clkEvents _ h, walk_append]
  rcases ht with ht | ⟨u, hu, ht⟩
  · exact ht _
  · rw [hs u hu, ht]

/-- A failed cycle after cycles that completed. -/
def Lost (s : State) (e : ErrorCode) (t : State) : Prop :=
  e = .cycleFail ∧ ∃ u r, Follows s u ∧ t = u.failed r

theorem Lost.of_follows {s t u : State} {e : ErrorCode} (h : Follows s t) (g : Lost t e u) : Lost s e u := by
  obtain ⟨he, v, r, hv, hu⟩ := g
  exact ⟨he, v, r, h.trans hv, hu⟩

theorem Lost.of_failsAt {rs pre : List CycleReq} {s : State} {bs : List Bool} {r : CycleReq}
    (h : failsAt rs s pre bs r) : Lost s .cycleFail ((s.drove pre bs).failed r) :=
  ⟨rfl, _, r, Follows.drove s (answers_length h.2.1), rfl⟩

/-! ### The shared operations -/

theorem runCycles_spec (rs : List CycleReq) (s : State) :
    (runCycles rs s).ends (fun bs t => bs.length = rs.length ∧ t = s.drove rs bs) (Lost s) := by
  rcases runCycles_cases rs s with ⟨bs, h⟩ | ⟨pre, bs, r, h⟩
  · rw [runCycles_ok h]; exact ⟨answers_length h, rfl⟩
  · rw [runCycles_fail h]; exact Lost.of_failsAt h

theorem shiftTMS_spec (seq : List Bool) (s : State) :
    (shiftTMS seq s).ends (fun _ t => ∃ bs, bs.length = seq.length ∧
      t = s.drove (tmsReqs s.params.tdiIdle seq) bs) (Lost s) :=
  Res.ends_bind (runCycles_spec _ s) fun bs _ h => ⟨bs, by simpa using h.1, h.2⟩

theorem hardReset_spec (s : State) :
    (hardReset s).ends (fun _ t => Follows s t ∧ t.tap = some .idle) (Lost s) := by
  rcases runCycles_cases (tmsReqs s.params.tdiIdle idleSeq) s with ⟨bs, h⟩ | ⟨pre, bs, r, h⟩
  · rw [hardReset_ok h]
    refine ⟨Follows.drove_setTap s (answers_length h) (.inl fun start => ?_), rfl⟩
    rw [tmsOf_tmsReqs]; cases start <;> rfl
  · rw [hardReset_fail h]; exact Lost.of_failsAt h

theorem moveTo_spec (st : TapState) (s : State) :
    (moveTo st s).ends (fun _ t => Follows s t ∧ t.tap = some st)
      (fun e t => Lost s e t ∨ (e = .stateUnknown ∧ t = s)) := by
  by_cases hk : s.tap = none → st = .reset
  · rcases runCycles_cases (tmsReqs s.params.tdiIdle (movePath s.tap st)) s with ⟨bs, h⟩ | ⟨pre, bs, r, h⟩
    · rw [moveTo_ok hk h]
      refine ⟨Follows.drove_setTap s (answers_length h) ?_, rfl⟩
      rw [tmsOf_tmsReqs]
      cases ht : s.tap with
      | none =>
        refine .inl fun start => ?_
        rw [hk ht]; exact walk_resetSeq start
      | some u => exact .inr ⟨u, rfl, walk_rom u st⟩
    · rw [moveTo_fail hk h]; exact .inl (Lost.of_failsAt h)
  · rw [Classical.not_imp] at hk
    rw [moveTo_unknown hk.1 hk.2]; exact .inr ⟨rfl, rfl⟩

theorem stateBody_spec (st : TapState) (s : State) :
    (stateBody st s).ends (fun _ t => Follows s t ∧ t.tap = some st)
      (fun e t => Lost s e t ∨ (e = .stateUnknown ∧ t = s)) := by
  unfold stateBody
  split
  · rename_i h
    subst h
    refine Res.ends_bind (Res.ends_mono (shiftTMS_spec resetSeq s) (fun _ _ h => h) fun e t h => .inl h) ?_
    rintro _ _ ⟨bs, hl, rfl⟩
    refine ⟨Follows.drove_setTap s (by simpa using hl) (.inl fun start => ?_), rfl⟩
    rw [tmsOf_tmsReqs]; exact walk_resetSeq start
  · exact moveTo_spec st s

/-- A wait changes nothing but the trace. -/
theorem Follows.waited (s : State) (n : Nat) : Follows s { s with trace := s.trace ++ [.dwell n] } := by
  refine ⟨rfl, ⟨[.dwell n], rfl, by simp [PinEvent.isXfail, PinEvent.good]⟩, fun hs t ht start => ?_⟩
  show walk start (knownTms (s.trace ++ [.dwell n])) = t
  rw [knownTms_append]; exact hs t ht start

theorem dwell_spec {t : TapState} (ht : t.stable = true) (n : Nat) (s : State) (hs : s.tap = some t) :
    (dwell t n s).ends (fun _ u => Follows s u ∧ u.tap = some t)
      (fun e u => Lost s e u ∧ n ≠ 0 ∧ s.params.runtestClocks = true) := by
  unfold dwell
  split
  · exact ⟨Follows.refl s, hs⟩
  rename_i hn
  split
  · rename_i hr
    refine Res.ends_mono (shiftTMS_spec _ s) ?_ fun e u h => ⟨h, hn, hr⟩
    rintro _ _ ⟨bs, hl, rfl⟩
    refine ⟨Follows.drove s (by simpa using hl), ?_⟩
    simp [State.drove, hs, walk_hold ht]
  · exact ⟨Follows.waited s n, hs⟩

theorem runtestBody_spec (st : Option TapState) (n : Nat) (s : State) :
    (runtestBody st n s).ends (fun _ t => Follows s t)
      (fun e t => (Lost s e t ∧ (st ≠ none ∨ s.params.runtestClocks = true)) ∨
        ((e = .badState ∨ e = .stateUnknown) ∧ t = s)) := by
  unfold runtestBody
  cases st with
  | some t =>
    dsimp only
    split
    · exact .inr ⟨.inl rfl, rfl⟩
    · rename_i hst
      refine Res.ends_bind (Res.ends_mono (moveTo_spec t s) (fun _ _ h => h) ?_) ?_
      · rintro e u (h | h)
        · exact .inl ⟨h, .inl (by simp)⟩
        · exact .inr ⟨.inr h.1, h.2⟩
      · rintro _ u ⟨hf, hu⟩
        refine Res.ends_mono (dwell_spec (by simpa using hst) n u hu) (fun _ v hv => hf.trans hv.1) ?_
        rintro e v ⟨hv, -⟩
        exact .inl ⟨Lost.of_follows hf hv, .inl (by simp)⟩
  | none =>
    dsimp only
    cases ht : s.tap with
    | none => exact .inr ⟨.inr rfl, rfl⟩
    | some t =>
      dsimp only
      split
      · exact .inr ⟨.inl rfl, rfl⟩
      · rename_i hst
        refine Res.ends_mono (dwell_spec (by simpa using hst) n s ht) (fun _ v hv => hv.1) ?_
        rintro e v ⟨hv, -, hr⟩
        exact .inl ⟨hv, .inr hr⟩

/-- A scan of a non-empty buffer from a known tracked state ends in its end state. -/
theorem shiftData_spec (reg : ScanReg) (d : BitBuffer) (capture : Bool) (fin : TapState) {s : State}
    (hd : d.len ≠ 0) (hs : s.tap ≠ none) :
    (shiftData reg d capture fin s).ends
      (fun c t => Follows s t ∧ t.tap = some fin ∧ (capture = true → c.len = d.len)) (Lost s) := by
  obtain ⟨u, hu⟩ := Option.ne_none_iff_exists'.1 hs
  rcases shiftData_cases reg d capture fin hu with ⟨bs, h, he⟩ | ⟨pre, bs, r, h, he⟩
  · rw [he]
    have hl := answers_length h
    refine ⟨Follows.drove s hl, ?_, fun hc => ?_⟩
    · simp [State.drove, hu, walk_shiftReqs _ _ _ _ _ _ hd]
    · simp only [hc, if_true, BitBuffer.ofBits_len, dataBits, List.length_take, List.length_drop, hl, shiftReqs,
        List.length_append, tmsReqs_length, dataReqs_length]
      omega
  · rw [he]; exact Lost.of_failsAt h

/-! ### The scans -/

/-- The state a scan with these operands starts its cycles in. -/
def State.withMask (s : State) (mask : Option BitBuffer) : State :=
  { s with mask := if mask = none then s.mask else mask }

/-- SIR and SDR. -/
theorem scanBody_spec (reg : ScanReg) (tdi : BitBuffer) (smask tdo mask : Option BitBuffer) (s : State) :
    (scanBody reg tdi smask tdo mask s).ends
      (fun o t => scanReady tdi smask tdo mask s ∧ t.tap = some (s.endState reg) ∧
        ((tdo = none ∧ o = none ∧ Follows s t) ∨
          (tdo ≠ none ∧ (o = none ∨ o = some .tdoMismatch) ∧
            ∃ u, Follows (s.withMask mask) u ∧ t = { u with capbuf := t.capbuf })))
      (fun e t => (e ∈ [ErrorCode.badPayload, .zeroLength, .lengthMismatch, .stateUnknown, .noStickyMask] ∧ t = s) ∨
        (scanReady tdi smask tdo mask s ∧ (tdo = none → Lost s e t) ∧ (tdo ≠ none → Lost (s.withMask mask) e t))) := by
  unfold scanBody
  cases hc : checkScan tdi smask tdo mask s with
  | some e =>
    dsimp only
    refine .inl ⟨?_, rfl⟩
    rcases checkScan_error hc with rfl | rfl | rfl | rfl <;> simp
  | none =>
    have hr := scanReady_of_checkScan hc
    dsimp only
    cases tdo with
    | none =>
      dsimp only
      refine Res.ends_bind (Res.ends_mono (shiftData_spec reg tdi false (s.endState reg) hr.2.1 hr.2.2.2)
        (fun _ _ h => h) fun e t h => .inr ⟨hr, fun _ => h, fun hn => absurd rfl hn⟩) ?_
      rintro _ t ⟨hf, ht, -⟩
      exact ⟨hr, ht, .inl ⟨rfl, rfl, hf⟩⟩
    | some ex =>
      dsimp only
      unfold scanAndVerify
      cases hm : usedMask mask tdi.len s with
      | none =>
        rw [(resolveMask_none hm).2]
        exact .inl ⟨by simp, rfl⟩
      | some m =>
        rw [resolveMask_some hm, Res.bind_done]
        have he : State.endState (s.withMask mask) reg = s.endState reg := by cases reg <;> rfl
        show (Res.bind (shiftData reg tdi true ((s.withMask mask).endState reg) (s.withMask mask)) _).ends _ _
        refine Res.ends_bind (Res.ends_mono
          (shiftData_spec reg tdi true ((s.withMask mask).endState reg) (s := s.withMask mask) hr.2.1 hr.2.2.2)
          (fun _ _ h => h) fun e t h => .inr ⟨hr, fun hn => absurd hn (by simp), fun _ => h⟩) ?_
        rintro c t ⟨hf, ht, -⟩
        refine ⟨hr, by rw [← he]; exact ht, .inr ⟨by simp, ?_, t, hf, rfl⟩⟩
        unfold verify
        split
        · exact .inl rfl
        · exact .inr rfl

/-! ### The per-device commands -/

theorem irImage_len (s : State) (k : Nat) (bits : BitBuffer) :
    (s.irImage k bits).len = s.irBefore k + bits.len + s.irAfter k := by
  simp [State.irImage, BitBuffer.appendOnes]

theorem drImage_len (s : State) (k : Nat) (bits : BitBuffer) :
    (s.drImage k bits).len = s.drBefore k + bits.len + s.drAfter k := by
  simp [State.drImage, BitBuffer.appendOnes]

theorem checkDevDr_error {k : Nat} {bits : BitBuffer} {s : State} {e : ErrorCode}
    (h : checkDevDr k bits s = some e) :
    e ∈ [ErrorCode.zeroLength, .stateUnknown, .noChain, .badDevice] := by
  unfold checkDevDr at h
  split at h
  · rename_i hc
    cases h
    rcases checkChain_error hc with rfl | rfl | rfl <;> simp
  · split at h <;> simp_all

theorem checkDevIr_error {k : Nat} {bits : BitBuffer} {s : State} {e : ErrorCode}
    (h : checkDevIr k bits s = some e) :
    e ∈ [ErrorCode.zeroLength, .stateUnknown, .noChain, .badDevice, .lengthMismatch] := by
  unfold checkDevIr at h
  split at h
  · rename_i hc
    cases h
    rcases checkChain_error hc with rfl | rfl | rfl <;> simp
  · split at h
    · simp_all
    · split at h <;> simp_all

theorem devirBody_spec (k : Nat) (bits : BitBuffer) (s : State) :
    (devirBody k bits s).ends (fun _ t => Follows s t)
      (fun e t => Lost s e t ∨
        (e ∈ [ErrorCode.zeroLength, .stateUnknown, .noChain, .badDevice, .lengthMismatch] ∧ t = s)) := by
  unfold devirBody
  cases hc : checkDevIr k bits s with
  | some e => exact .inr ⟨checkDevIr_error hc, rfl⟩
  | none =>
    have hr := (deviceReady_of_checkDevIr hc).1
    dsimp only
    refine Res.ends_bind (Res.ends_mono (shiftData_spec .ir (s.irImage k bits) false s.endir
      (by rw [irImage_len]; have := hr.1; omega) hr.2.1) (fun _ _ h => h) fun e t h => .inl h) ?_
    exact fun _ t h => h.1

theorem devdrwBody_spec (k : Nat) (bits : BitBuffer) (s : State) :
    (devdrwBody k bits s).ends (fun _ t => Follows s t)
      (fun e t => Lost s e t ∨ (e ∈ [ErrorCode.zeroLength, .stateUnknown, .noChain, .badDevice] ∧ t = s)) := by
  unfold devdrwBody
  cases hc : checkDevDr k bits s with
  | some e => exact .inr ⟨checkDevDr_error hc, rfl⟩
  | none =>
    have hr := deviceReady_of_checkDevDr hc
    dsimp only
    refine Res.ends_bind (Res.ends_mono (shiftData_spec .dr (s.drImage k bits) false s.enddr
      (by rw [drImage_len]; have := hr.1; omega) hr.2.1) (fun _ _ h => h) fun e t h => .inl h) ?_
    exact fun _ t h => h.1

theorem devdrrwBody_spec (k : Nat) (bits : BitBuffer) (s : State) :
    (devdrrwBody k bits s).ends (fun _ t => ∃ u, Follows s u ∧ t = { u with capbuf := t.capbuf, rdbuf := t.rdbuf })
      (fun e t => Lost s e t ∨ (e ∈ [ErrorCode.zeroLength, .stateUnknown, .noChain, .badDevice] ∧ t = s)) := by
  unfold devdrrwBody
  cases hc : checkDevDr k bits s with
  | some e => exact .inr ⟨checkDevDr_error hc, rfl⟩
  | none =>
    have hr := deviceReady_of_checkDevDr hc
    dsimp only
    refine Res.ends_bind (Res.ends_mono (shiftData_spec .dr (s.drImage k bits) true s.enddr
      (by rw [drImage_len]; have := hr.1; omega) hr.2.1) (fun _ _ h => h) fun e t h => .inl h) ?_
    exact fun _ t h => ⟨t, h.1, rfl⟩

/-! ### CHAINSCAN -/

@[simp] theorem idcodes_length (c : BitBuffer) (n : Nat) : (idcodes c n).length = n := by
  have h : ∀ (v hi : Nat) (ws : List Nat), (fieldsFrom v hi ws).length = ws.length := by
    intro v hi ws
    induction ws generalizing hi with
    | nil => rfl
    | cons w ws ih => simp [fieldsFrom, ih]
  simp [idcodes, h]

@[simp] theorem inferIrlen_length (ds : List DevRec) (irt : Nat) : (inferIrlen ds irt).length = ds.length := by
  unfold inferIrlen; split <;> simp

@[simp] theorem buildDevices_length (table : List DeviceEntry) (c : BitBuffer) (n irt : Nat) :
    (buildDevices table c n irt).length = n := by simp [buildDevices]

@[simp] theorem flushPattern_len (f : Nat) : (flushPattern f).len = 2 * f + 1 := by
  simp [flushPattern]; omega

theorem probeLength_error {r : BitBuffer} {e : ErrorCode} (h : probeLength r = .error e) :
    e = .flushNone ∨ e = .flushMulti := by
  unfold probeLength at h
  split at h
  · cases h; simp
  · split at h <;> cases h
    simp

theorem probe_spec (reg : ScanReg) {s : State} (hs : s.tap ≠ none) :
    (probe reg s).ends (fun _ t => Follows s t ∧ t.tap = some .idle)
      (fun e t => Lost s e t ∨ ((e = .flushNone ∨ e = .flushMulti) ∧ Follows s t)) := by
  unfold probe
  refine Res.ends_bind (Res.ends_mono (shiftData_spec reg (flushPattern s.params.flushSize) true .idle
    (by simp) hs) (fun _ _ h => h) fun e t h => .inl h) ?_
  rintro c t ⟨hf, ht, -⟩
  cases hp : probeLength (c.dropLsb s.params.flushSize) with
  | error e => exact .inr ⟨probeLength_error hp, hf⟩
  | ok n => exact ⟨hf, ht⟩

theorem Follows.params {s t : State} (h : Follows s t) : t.params = s.params := by rw [h.kept]

/-- CHAINSCAN: the table is cleared; then cycles; then the table of a chain of at least one device. -/
theorem chainscanBody_spec (s : State) :
    (chainscanBody s).ends
      (fun _ t => ∃ u c n irt, Follows s.clearChain u ∧ u.tap = some .idle ∧ 0 < n ∧ c.len = 32 * n ∧
        t = u.commitChain c n irt)
      (fun e t => Lost s.clearChain e t ∨
        (e ∈ [ErrorCode.flushNone, .flushMulti, .noDevices] ∧ Follows s.clearChain t)) := by
  unfold chainscanBody
  refine Res.ends_bind (Res.ends_mono (hardReset_spec s.clearChain) (fun _ _ h => h) fun e t h => .inl h) ?_
  rintro _ s1 ⟨f1, t1⟩
  refine Res.ends_bind (Res.ends_mono (shiftData_spec .ir (BitBuffer.ones s1.params.flushSize) false .idle
    (by rw [BitBuffer.ones_len]; exact Nat.pos_iff_ne_zero.1 s1.params.flushSize_pos) (by simp [t1]))
    (fun _ _ h => h) fun e t h => .inl (Lost.of_follows f1 h)) ?_
  rintro _ s2 ⟨f2, t2, -⟩
  have f12 := f1.trans f2
  refine Res.ends_bind (Res.ends_mono (probe_spec .dr (s := s2) (by simp [t2])) (fun _ _ h => h) ?_) ?_
  · rintro e t (h | ⟨h, g⟩)
    · exact .inl (Lost.of_follows f12 h)
    · exact .inr ⟨by rcases h with rfl | rfl <;> simp, f12.trans g⟩
  rintro n s3 ⟨f3, t3⟩
  have f13 := f12.trans f3
  split
  · exact .inr ⟨by simp, f13⟩
  rename_i hn
  refine Res.ends_bind (Res.ends_mono (probe_spec .ir (s := s3) (by simp [t3])) (fun _ _ h => h) ?_) ?_
  · rintro e t (h | ⟨h, g⟩)
    · exact .inl (Lost.of_follows f13 h)
    · exact .inr ⟨by rcases h with rfl | rfl <;> simp, f13.trans g⟩
  rintro irt s4 ⟨f4, t4⟩
  have f14 := f13.trans f4
  refine Res.ends_bind (Res.ends_mono (hardReset_spec s4) (fun _ _ h => h)
    fun e t h => .inl (Lost.of_follows f14 h)) ?_
  rintro _ s5 ⟨f5, t5⟩
  have f15 := f14.trans f5
  refine Res.ends_bind (Res.ends_mono (shiftData_spec .dr (BitBuffer.ones (32 * n)) true .idle
    (by rw [BitBuffer.ones_len]; omega) (by simp [t5])) (fun _ _ h => h)
    fun e t h => .inl (Lost.of_follows f15 h)) ?_
  rintro c s6 ⟨f6, t6, hc⟩
  exact ⟨s6, c, n, irt, f15.trans f6, t6, Nat.pos_of_ne_zero hn, by simpa using hc rfl, rfl⟩

/-! ### All commands -/

/-- The course of each command. -/
def body : Instr → State → Res (Option ErrorCode)
  | .tapidle, s => (hardReset s).quiet
  | .goto st, s => (moveTo st s).quiet
  | .state st, s => (stateBody st s).quiet
  | .runtest st n, s => (runtestBody st n.toNat s).quiet
  | .endir st, s => if st = .idle ∨ st = .irpause then .done none { s with endir := st } else .raised .badState s
  | .enddr st, s => if st = .idle ∨ st = .drpause then .done none { s with enddr := st } else .raised .badState s
  | .frequency hz, s => if hz = 0 then .raised .badValue s else .done none { s with freq := hz }
  | .trst on, s => .done none { s with
      trace := if s.params.hasTrst && s.trst != on then s.trace ++ [.trst on] else s.trace
      trst := on
      tap := if on then none else s.tap }
  | .strict on, s => .done none { s with strict := on }
  | .sir tdi smask tdo mask, s => scanBody .ir tdi smask tdo mask s
  | .sdr tdi smask tdo mask, s => scanBody .dr tdi smask tdo mask s
  | .hdr n, s => paddingBody n s
  | .tdr n, s => paddingBody n s
  | .hir n, s => paddingBody n s
  | .tir n, s => paddingBody n s
  | .chainscan, s => (chainscanBody s).quiet
  | .devir k bits, s => (devirBody k.toNat bits s).quiet
  | .devdrw k bits, s => (devdrwBody k.toNat bits s).quiet
  | .devdrrw k bits, s => (devdrrwBody k.toNat bits s).quiet

/-- Every meaning is the end of its course. -/
theorem exec_eq_complete (i : Instr) (s : State) : exec i s = complete (body i s) := by cases i <;> rfl

theorem Res.quiet_ends {r : Res Unit} {Q : Unit → State → Prop} {E : ErrorCode → State → Prop}
    (h : r.ends Q E) : r.quiet.ends (fun o t => o = none ∧ Q () t) E :=
  Res.ends_bind h fun _ _ h => ⟨rfl, h⟩

/-- What every command leaves to its end: the log, the count, the policy, the inputs and the parameters. -/
structure Running (s t : State) : Prop where
  seq : t.seq = s.seq
  errlog : t.errlog = s.errlog
  aborted : t.aborted = s.aborted
  inputs : t.inputs = s.inputs
  params : t.params = s.params

/-- Which registers command `i` may have written when its course is at `t`. -/
structure Wrote (i : Instr) (s t : State) : Prop where
  endir : t.endir = s.endir ∨ (i = .endir t.endir ∧ (t.endir = .idle ∨ t.endir = .irpause))
  enddr : t.enddr = s.enddr ∨ (i = .enddr t.enddr ∧ (t.enddr = .idle ∨ t.enddr = .drpause))
  freq : t.freq = s.freq ∨ i = .frequency t.freq
  trst : t.trst = s.trst ∨ i = .trst t.trst
  strict : t.strict = s.strict ∨ i = .strict t.strict
  mask : t.mask = s.mask ∨ ∃ tdi sm e m,
    (i = .sir tdi sm (some e) (some m) ∨ i = .sdr tdi sm (some e) (some m)) ∧ t.mask = some m
  capbuf : t.capbuf = s.capbuf ∨ (∃ tdi sm e m, i = .sir tdi sm (some e) m ∨ i = .sdr tdi sm (some e) m) ∨
    ∃ k b, i = .devdrrw k b
  rdbuf : t.rdbuf = s.rdbuf ∨ ∃ k b, i = .devdrrw k b
  chain : i ≠ .chainscan → sameChain s t

theorem Running.refl (s : State) : Running s s := ⟨rfl, rfl, rfl, rfl, rfl⟩

theorem Running.trans {s t u : State} (h : Running s t) (g : Running t u) : Running s u :=
  ⟨g.seq.trans h.seq, g.errlog.trans h.errlog, g.aborted.trans h.aborted, g.inputs.trans h.inputs,
    g.params.trans h.params⟩

theorem Follows.running {s t : State} (h : Follows s t) : Running s t := by
  constructor <;> rw [h.kept]

theorem Wrote.refl (i : Instr) (s : State) : Wrote i s s :=
  ⟨.inl rfl, .inl rfl, .inl rfl, .inl rfl, .inl rfl, .inl rfl, .inl rfl, .inl rfl,
    fun _ => ⟨rfl, rfl, rfl, rfl, rfl⟩⟩

/-- Cycles write no register. -/
theorem Wrote.follows {i : Instr} {s t u : State} (h : Wrote i s t) (g : Follows t u) : Wrote i s u := by
  have hg := g.kept
  obtain ⟨h1, h2, h3, h4, h5, h6, h7, h8, h9⟩ := h
  have e1 : u.endir = t.endir := by rw [hg]
  have e2 : u.enddr = t.enddr := by rw [hg]
  have e3 : u.freq = t.freq := by rw [hg]
  have e4 : u.trst = t.trst := by rw [hg]
  have e5 : u.strict = t.strict := by rw [hg]
  have e6 : u.mask = t.mask := by rw [hg]
  have e7 : u.capbuf = t.capbuf := by rw [hg]
  have e8 : u.rdbuf = t.rdbuf := by rw [hg]
  refine ⟨by rwa [e1], by rwa [e2], by rwa [e3], by rwa [e4], by rwa [e5], by rwa [e6], by rwa [e7], by rwa [e8],
    fun hi => ?_⟩
  obtain ⟨c1, c2, c3, c4, c5⟩ := h9 hi
  refine ⟨?_, ?_, ?_, ?_, ?_⟩ <;> rw [hg] <;> assumption

/-- A failed cycle writes no register. -/
theorem Wrote.failed {i : Instr} {s t : State} (h : Wrote i s t) (r : CycleReq) : Wrote i s (t.failed r) :=
  ⟨h.endir, h.enddr, h.freq, h.trst, h.strict, h.mask, h.capbuf, h.rdbuf, h.chain⟩

/-- The state a command is in before its first cycle. -/
def Instr.start (i : Instr) (s : State) : State :=
  match i with
  | .sir _ _ (some _) mask => s.withMask mask
  | .sdr _ _ (some _) mask => s.withMask mask
  | .chainscan => s.clearChain
  | _ => s

/-- The course of command `i` from `s` came to its end at `t`, reporting `o`. -/
structure Ended (i : Instr) (s : State) (o : Option ErrorCode) (t : State) : Prop where
  running : Running s t
  wrote : Wrote i s t
  events : ∃ ev, t.trace = s.trace ++ ev ∧ ∀ e ∈ ev, e.isXfail = false ∧ e.good
  tracks : tracksChain s → tracksChain t
  report : o = none ∨ (o = some .tdoMismatch ∧ .tdoMismatch ∈ errorsOf i)

/-- The course of command `i` from `s` raised `e` at `t`: a FORMAT error with no effect, a failed cycle, or one
of CHAINSCAN's PROTOCOL errors. -/
def RaisedAt (i : Instr) (s : State) (e : ErrorCode) (t : State) : Prop :=
  e ∈ errorsOf i ∧
    ((e.kind = kindFormat ∧ t = s) ∨
      (Lost (Instr.start i s) e t ∧ ∀ n, i = .runtest none n → s.params.runtestClocks = true) ∨
      (e.kind = kindProtocol ∧ i = .chainscan ∧ Follows s.clearChain t))

theorem Ended.of_follows {i : Instr} {s t : State} (h : Follows s t) : Ended i s none t :=
  ⟨h.running, (Wrote.refl i s).follows h, h.events, h.tracks, .inl rfl⟩

/-- The mask operand of a capturing scan, and then cycles, and then the capture. -/
theorem Ended.of_scan {i : Instr} {s t u : State} {tdi e : BitBuffer} {sm mask : Option BitBuffer}
    {o : Option ErrorCode} (hi : i = .sir tdi sm (some e) mask ∨ i = .sdr tdi sm (some e) mask)
    (h : Follows (s.withMask mask) u) (ht : t = { u with capbuf := t.capbuf })
    (ho : o = none ∨ o = some .tdoMismatch) : Ended i s o t := by
  have hw : Wrote i s (s.withMask mask) := by
    refine ⟨.inl rfl, .inl rfl, .inl rfl, .inl rfl, .inl rfl, ?_, .inl rfl, .inl rfl,
      fun _ => ⟨rfl, rfl, rfl, rfl, rfl⟩⟩
    cases mask with
    | none => exact .inl rfl
    | some m => exact .inr ⟨tdi, sm, e, m, hi, rfl⟩
  have hu := hw.follows h
  have hr := h.running
  have hre : o = none ∨ (o = some .tdoMismatch ∧ .tdoMismatch ∈ errorsOf i) := by
    rcases ho with ho | ho
    · exact .inl ho
    · exact .inr ⟨ho, by rcases hi with rfl | rfl <;> simp [errorsOf]⟩
  rw [ht]
  refine ⟨⟨hr.seq, hr.errlog, hr.aborted, hr.inputs, hr.params⟩,
    ⟨hu.endir, hu.enddr, hu.freq, hu.trst, hu.strict, hu.mask, .inr (.inl ⟨tdi, sm, e, mask, hi⟩), hu.rdbuf,
      hu.chain⟩, h.events, fun hs => ?_, hre⟩
  exact h.tracks hs

theorem body_scan_spec (reg : ScanReg) (tdi : BitBuffer) (smask tdo mask : Option BitBuffer) (s : State) (i : Instr)
    (hi : (reg = .ir ∧ i = .sir tdi smask tdo mask) ∨ (reg = .dr ∧ i = .sdr tdi smask tdo mask)) :
    (scanBody reg tdi smask tdo mask s).ends (Ended i s) (RaisedAt i s) := by
  have hcf : ErrorCode.cycleFail ∈ errorsOf i := by rcases hi with ⟨-, rfl⟩ | ⟨-, rfl⟩ <;> simp [errorsOf]
  have hnr : ∀ n, i ≠ .runtest none n := by rcases hi with ⟨-, rfl⟩ | ⟨-, rfl⟩ <;> simp
  refine Res.ends_mono (scanBody_spec reg tdi smask tdo mask s) ?_ ?_
  · rintro o t ⟨-, -, ⟨-, rfl, hf⟩ | ⟨hn, ho, u, hu, ht⟩⟩
    · exact .of_follows hf
    · obtain ⟨e, rfl⟩ := Option.ne_none_iff_exists'.1 hn
      exact .of_scan (tdi := tdi) (e := e) (sm := smask) (mask := mask) (hi.imp And.right And.right) hu ht ho
  · rintro e t (⟨he, rfl⟩ | ⟨-, h1, h2⟩)
    · have hee : e ∈ errorsOf i ∧ e.kind = kindFormat := by
        simp only [List.mem_cons, List.not_mem_nil, or_false] at he
        rcases hi with ⟨-, rfl⟩ | ⟨-, rfl⟩ <;> rcases he with rfl | rfl | rfl | rfl | rfl <;>
          exact ⟨by simp [errorsOf], rfl⟩
      exact ⟨hee.1, .inl ⟨hee.2, rfl⟩⟩
    · have hl : Lost (Instr.start i s) e t := by
        cases tdo with
        | none => rcases hi with ⟨-, rfl⟩ | ⟨-, rfl⟩ <;> exact h1 rfl
        | some ex => rcases hi with ⟨-, rfl⟩ | ⟨-, rfl⟩ <;> exact h2 (by simp)
      exact ⟨hl.1 ▸ hcf, .inr (.inl ⟨hl, fun n hn => absurd hn (hnr n)⟩)⟩

/-- A course of cycles only, with errors of the checks before it. -/
theorem body_quiet_spec {r : Res Unit} {i : Instr} {s : State} {es : List ErrorCode} (hst : Instr.start i s = s)
    (hcf : ErrorCode.cycleFail ∈ errorsOf i) (hnr : ∀ n, i ≠ .runtest none n)
    (hes : ∀ e ∈ es, e ∈ errorsOf i ∧ e.kind = kindFormat)
    (h : r.ends (fun _ t => Follows s t) (fun e t => Lost s e t ∨ (e ∈ es ∧ t = s))) :
    r.quiet.ends (Ended i s) (RaisedAt i s) := by
  refine Res.ends_mono (Res.quiet_ends h) ?_ ?_
  · rintro o t ⟨rfl, h⟩; exact .of_follows h
  · rintro e t (hl | ⟨hm, ht⟩)
    · exact ⟨hl.1 ▸ hcf, .inr (.inl ⟨by rwa [hst], fun n hn => absurd hn (hnr n)⟩)⟩
    · exact ⟨(hes e hm).1, .inl ⟨(hes e hm).2, ht⟩⟩

theorem body_padding_spec (n : BitVec 16) (s : State) (i : Instr) (hi : .unsupportedHeader ∈ errorsOf i) :
    (paddingBody n s).ends (Ended i s) (RaisedAt i s) := by
  unfold paddingBody
  split
  · exact .of_follows (.refl s)
  · exact ⟨hi, .inl ⟨rfl, rfl⟩⟩

/-- Everything a command can do. -/
theorem body_spec (i : Instr) (s : State) : (body i s).ends (Ended i s) (RaisedAt i s) := by
  cases i with
  | tapidle =>
    exact body_quiet_spec (es := []) rfl (by simp [errorsOf]) (by simp) (by simp)
      (Res.ends_mono (hardReset_spec s) (fun _ _ h => h.1) fun _ _ h => .inl h)
  | goto st =>
    exact body_quiet_spec (es := [.stateUnknown]) rfl (by simp [errorsOf]) (by simp)
      (by simp [errorsOf, ErrorCode.kind])
      (Res.ends_mono (moveTo_spec st s) (fun _ _ h => h.1) fun _ _ h => h.imp id (by simp))
  | state st =>
    exact body_quiet_spec (es := [.stateUnknown]) rfl (by simp [errorsOf]) (by simp)
      (by simp [errorsOf, ErrorCode.kind])
      (Res.ends_mono (stateBody_spec st s) (fun _ _ h => h.1) fun _ _ h => h.imp id (by simp))
  | runtest st n =>
    refine Res.ends_mono (Res.quiet_ends (runtestBody_spec st n.toNat s)) ?_ ?_
    · rintro o t ⟨rfl, h⟩; exact .of_follows h
    · rintro e t (⟨h, hc⟩ | ⟨h, rfl⟩)
      · refine ⟨h.1 ▸ by simp [errorsOf], .inr (.inl ⟨h, fun m hm => ?_⟩)⟩
        cases hm; simpa using hc
      · refine ⟨?_, .inl ⟨?_, rfl⟩⟩ <;> rcases h with rfl | rfl <;> simp [errorsOf, ErrorCode.kind]
  | endir st =>
    dsimp only [body]
    split
    · rename_i h
      exact ⟨⟨rfl, rfl, rfl, rfl, rfl⟩, ⟨.inr ⟨rfl, h⟩, .inl rfl, .inl rfl, .inl rfl, .inl rfl, .inl rfl, .inl rfl, .inl rfl,
        fun _ => ⟨rfl, rfl, rfl, rfl, rfl⟩⟩, ⟨[], by simp⟩, id, .inl rfl⟩
    · exact ⟨by simp [errorsOf], .inl ⟨rfl, rfl⟩⟩
  | enddr st =>
    dsimp only [body]
    split
    · rename_i h
      exact ⟨⟨rfl, rfl, rfl, rfl, rfl⟩, ⟨.inl rfl, .inr ⟨rfl, h⟩, .inl rfl, .inl rfl, .inl rfl, .inl rfl, .inl rfl, .inl rfl,
        fun _ => ⟨rfl, rfl, rfl, rfl, rfl⟩⟩, ⟨[], by simp⟩, id, .inl rfl⟩
    · exact ⟨by simp [errorsOf], .inl ⟨rfl, rfl⟩⟩
  | frequency hz =>
    dsimp only [body]
    split
    · exact ⟨by simp [errorsOf], .inl ⟨rfl, rfl⟩⟩
    · exact ⟨⟨rfl, rfl, rfl, rfl, rfl⟩, ⟨.inl rfl, .inl rfl, .inr rfl, .inl rfl, .inl rfl, .inl rfl, .inl rfl, .inl rfl,
        fun _ => ⟨rfl, rfl, rfl, rfl, rfl⟩⟩, ⟨[], by simp⟩, id, .inl rfl⟩
  | trst on =>
    refine ⟨⟨rfl, rfl, rfl, rfl, rfl⟩, ⟨.inl rfl, .inl rfl, .inl rfl, .inr rfl, .inl rfl, .inl rfl, .inl rfl, .inl rfl,
        fun _ => ⟨rfl, rfl, rfl, rfl, rfl⟩⟩, ?_, fun hs t ht start => ?_, .inl rfl⟩
    · dsimp only
      split
      · exact ⟨[.trst on], rfl, by simp [PinEvent.isXfail, PinEvent.good]⟩
      · exact ⟨[], by simp⟩
    · cases on with
      | true => simp at ht
      | false =>
        have h0 := hs t (by simpa using ht) start
        dsimp only
        split
        · rw [knownTms_append]; exact h0
        · exact h0
  | strict on =>
    exact ⟨⟨rfl, rfl, rfl, rfl, rfl⟩, ⟨.inl rfl, .inl rfl, .inl rfl, .inl rfl, .inr rfl, .inl rfl, .inl rfl, .inl rfl,
        fun _ => ⟨rfl, rfl, rfl, rfl, rfl⟩⟩, ⟨[], by simp⟩, id, .inl rfl⟩
  | sir tdi smask tdo mask => exact body_scan_spec .ir tdi smask tdo mask s _ (.inl ⟨rfl, rfl⟩)
  | sdr tdi smask tdo mask => exact body_scan_spec .dr tdi smask tdo mask s _ (.inr ⟨rfl, rfl⟩)
  | hdr n => exact body_padding_spec n s _ (by simp [errorsOf])
  | tdr n => exact body_padding_spec n s _ (by simp [errorsOf])
  | hir n => exact body_padding_spec n s _ (by simp [errorsOf])
  | tir n => exact body_padding_spec n s _ (by simp [errorsOf])
  | chainscan =>
    refine Res.ends_mono (Res.quiet_ends (chainscanBody_spec s)) ?_ ?_
    · rintro o t ⟨rfl, u, c, n, irt, hf, -, -, -, rfl⟩
      have hr := hf.running
      have hk := hf.kept
      refine ⟨⟨hr.seq, hr.errlog, hr.aborted, hr.inputs, hr.params⟩, ?_, hf.events, fun hs => hf.tracks hs, .inl rfl⟩
      refine ⟨.inl ?_, .inl ?_, .inl ?_, .inl ?_, .inl ?_, .inl ?_, .inl ?_, .inl ?_, fun h => absurd rfl h⟩
      · show u.endir = _; rw [hk]; rfl
      · show u.enddr = _; rw [hk]; rfl
      · show u.freq = _; rw [hk]; rfl
      · show u.trst = _; rw [hk]; rfl
      · show u.strict = _; rw [hk]; rfl
      · show u.mask = _; rw [hk]; rfl
      · show u.capbuf = _; rw [hk]; rfl
      · show u.rdbuf = _; rw [hk]; rfl
    · rintro e t (h | ⟨h, hf⟩)
      · exact ⟨h.1 ▸ by simp [errorsOf], .inr (.inl ⟨h, by simp⟩)⟩
      · simp only [List.mem_cons, List.not_mem_nil, or_false] at h
        refine ⟨?_, .inr (.inr ⟨?_, rfl, hf⟩)⟩ <;> rcases h with rfl | rfl | rfl <;> simp [errorsOf, ErrorCode.kind]
  | devir k bits =>
    exact body_quiet_spec (es := [.zeroLength, .stateUnknown, .noChain, .badDevice, .lengthMismatch]) rfl
      (by simp [errorsOf]) (by simp) (by simp [errorsOf, ErrorCode.kind]) (devirBody_spec k.toNat bits s)
  | devdrw k bits =>
    exact body_quiet_spec (es := [.zeroLength, .stateUnknown, .noChain, .badDevice]) rfl (by simp [errorsOf])
      (by simp) (by simp [errorsOf, ErrorCode.kind]) (devdrwBody_spec k.toNat bits s)
  | devdrrw k bits =>
    refine Res.ends_mono (Res.quiet_ends (devdrrwBody_spec k.toNat bits s)) ?_ ?_
    · rintro o t ⟨rfl, u, hf, ht⟩
      have hr := hf.running
      have hu := (Wrote.refl (.devdrrw k bits) s).follows hf
      rw [ht]
      exact ⟨⟨hr.seq, hr.errlog, hr.aborted, hr.inputs, hr.params⟩,
        ⟨hu.endir, hu.enddr, hu.freq, hu.trst, hu.strict, hu.mask, .inr (.inr ⟨k, bits, rfl⟩), .inr ⟨k, bits, rfl⟩,
          hu.chain⟩, hf.events, fun hs => hf.tracks hs, .inl rfl⟩
    · rintro e t (h | ⟨h, rfl⟩)
      · exact ⟨h.1 ▸ by simp [errorsOf], .inr (.inl ⟨h, by simp⟩)⟩
      · simp only [List.mem_cons, List.not_mem_nil, or_false] at h
        refine ⟨?_, .inl ⟨?_, rfl⟩⟩ <;> rcases h with rfl | rfl | rfl | rfl <;> simp [errorsOf, ErrorCode.kind]

/-! ### How exec ends -/

theorem start_running (i : Instr) (s : State) : Running s (Instr.start i s) := by
  cases i <;>
    first | exact ⟨rfl, rfl, rfl, rfl, rfl⟩ | (unfold Instr.start; split <;> exact ⟨rfl, rfl, rfl, rfl, rfl⟩)

theorem start_trace (i : Instr) (s : State) : (Instr.start i s).trace = s.trace := by
  cases i <;> first | rfl | (unfold Instr.start; split <;> rfl)

theorem start_capbuf (i : Instr) (s : State) : (Instr.start i s).capbuf = s.capbuf := by
  cases i <;> first | rfl | (unfold Instr.start; split <;> rfl)

theorem start_rdbuf (i : Instr) (s : State) : (Instr.start i s).rdbuf = s.rdbuf := by
  cases i <;> first | rfl | (unfold Instr.start; split <;> rfl)

theorem start_scan_wrote {i : Instr} {tdi : BitBuffer} {sm tdo mask : Option BitBuffer}
    (hi : i = .sir tdi sm tdo mask ∨ i = .sdr tdi sm tdo mask) (s : State) : Wrote i s (Instr.start i s) := by
  cases tdo with
  | none => rcases hi with rfl | rfl <;> exact .refl _ _
  | some e =>
    have hs : Instr.start i s = s.withMask mask := by rcases hi with rfl | rfl <;> rfl
    rw [hs]
    refine ⟨.inl rfl, .inl rfl, .inl rfl, .inl rfl, .inl rfl, ?_, .inl rfl, .inl rfl,
      fun _ => ⟨rfl, rfl, rfl, rfl, rfl⟩⟩
    cases mask with
    | none => exact .inl rfl
    | some m => exact .inr ⟨tdi, sm, e, m, hi, rfl⟩

/-- Before its first cycle a command has written nothing but the sticky mask and, CHAINSCAN, the chain table. -/
theorem start_wrote (i : Instr) (s : State) : Wrote i s (Instr.start i s) := by
  cases i with
  | sir tdi sm tdo mask => exact start_scan_wrote (.inl rfl) s
  | sdr tdi sm tdo mask => exact start_scan_wrote (.inr rfl) s
  | chainscan =>
    exact ⟨.inl rfl, .inl rfl, .inl rfl, .inl rfl, .inl rfl, .inl rfl, .inl rfl, .inl rfl, fun h => absurd rfl h⟩
  | _ => exact .refl _ _

/-- The five ways a command ends: without an error, with a reported mismatch, with a FORMAT error and no other
effect, with a failed cycle, or (CHAINSCAN) with a PROTOCOL error. -/
theorem exec_cases {i : Instr} {s t : State} (h : exec i s = .next t) :
    (∃ u, Ended i s none u ∧ t = { u with seq := s.seq + 1 }) ∨
    (∃ u, Ended i s (some .tdoMismatch) u ∧ .tdoMismatch ∈ errorsOf i ∧ t = { u with
      errlog := s.errlog ++ [⟨s.seq, .tdoMismatch⟩], seq := s.seq + 1, aborted := s.aborted || u.strict }) ∨
    (∃ e, e ∈ errorsOf i ∧ e.kind = kindFormat ∧ t = s.refusedWith e) ∨
    (∃ u r, Follows (Instr.start i s) u ∧ (∀ n, i = .runtest none n → s.params.runtestClocks = true) ∧
      .cycleFail ∈ errorsOf i ∧ t = { u.failed r with
        errlog := s.errlog ++ [⟨s.seq, .cycleFail⟩], seq := s.seq + 1, aborted := true }) ∨
    (∃ u e, e ∈ errorsOf i ∧ e.kind = kindProtocol ∧ i = .chainscan ∧ Follows s.clearChain u ∧
      t = { u with tap := none, errlog := s.errlog ++ [⟨s.seq, e⟩], seq := s.seq + 1,
                   aborted := s.aborted || s.strict }) := by
  rw [exec_eq_complete] at h
  have hb := body_spec i s
  cases hr : body i s with
  | done o u =>
    rw [hr] at h hb
    have hb' : Ended i s o u := hb
    rcases hb'.report with rfl | ⟨rfl, hm⟩
    · rw [complete_done] at h; cases h
      refine .inl ⟨u, hb', by rw [hb'.running.seq]⟩
    · rw [complete_mismatch] at h; cases h
      refine .inr (.inl ⟨u, hb', hm, ?_⟩)
      rw [hb'.running.seq, hb'.running.errlog, hb'.running.aborted]
  | raised e u =>
    rw [hr] at h hb
    obtain ⟨he, hb'⟩ : RaisedAt i s e u := hb
    rcases hb' with ⟨hk, rfl⟩ | ⟨⟨rfl, v, r, hf, rfl⟩, hn⟩ | ⟨hk, rfl, hf⟩
    · rw [complete_format _ _ hk] at h; cases h
      exact .inr (.inr (.inl ⟨e, he, hk, rfl⟩))
    · have hru := (start_running i s).trans hf.running
      refine .inr (.inr (.inr (.inl ⟨v, r, hf, hn, he, ?_⟩)))
      simp [complete, finish, State.endCommand, State.takeError, State.recordError, State.failed, ErrorCode.kind,
        ErrorCode.fatal, kindTransport, hru.seq, hru.errlog] at h
      rw [← h]; simp [State.failed]
    · have hru := hf.running
      rw [complete_protocol _ _ hk] at h; cases h
      refine .inr (.inr (.inr (.inr ⟨u, e, he, hk, rfl, hf, ?_⟩)))
      have h1 := hru.seq
      have h2 := hru.errlog
      have h3 := hru.aborted
      have h4 : u.strict = s.strict := by rw [hf.kept]; rfl
      rw [h1, h2, h3, h4]; rfl

end Sys2Proof.Machine
end

