-- ==== Sys2Proof/Laws/Discovery.lean ====
section
/-! SUPPORT. The operations of CHAINSCAN chained on one running prefix: a state that has driven some cycles and
stands in IDLE, and what each operation adds to it. -/

namespace Sys2Proof.Machine

/-- `s` with the cycles `rs` driven and answered with `bs`, standing in IDLE. -/
def State.idleAfter (s : State) (rs : List CycleReq) (bs : List Bool) : State :=
  { s with
    tap := some .idle
    trace := s.trace ++ clkEvents rs bs
    env := s.env.drop rs.length
    draws := s.draws + rs.length }

theorem answers_idleAfter {s : State} {rs qs : List CycleReq} {bs : List Bool} :
    answers qs (s.idleAfter rs bs) = answers qs (s.drove rs bs) := by apply answers_congr <;> rfl

theorem idleAfter_drove {s : State} {rs qs : List CycleReq} {bs cs : List Bool} (hl : bs.length = rs.length)
    (hw : walk .idle (tmsOf qs) = .idle) :
    (s.idleAfter rs bs).drove qs cs = s.idleAfter (rs ++ qs) (bs ++ cs) := by
  simp [State.idleAfter, State.drove, clkEvents_append hl, Nat.add_assoc, hw]

theorem idleAfter_setTap {s : State} {rs qs : List CycleReq} {bs cs : List Bool} (hl : bs.length = rs.length) :
    ((s.idleAfter rs bs).drove qs cs).setTap .idle = s.idleAfter (rs ++ qs) (bs ++ cs) := by
  simp [State.idleAfter, State.drove, State.setTap, clkEvents_append hl, Nat.add_assoc]

/-- A data shift that ends in IDLE. -/
theorem shiftData_idleAfter {s : State} {rs : List CycleReq} {bs cs : List Bool} (hl : bs.length = rs.length)
    (reg : ScanReg) (d : BitBuffer) (capture : Bool) (hd : d.len ≠ 0)
    (h : answers (shiftReqs s.params.tdiIdle .idle reg d capture .idle) (s.drove rs bs) = some cs) :
    shiftData reg d capture .idle (s.idleAfter rs bs) =
      .done (if capture then BitBuffer.ofBits (dataBits .idle reg d cs) else BitBuffer.empty)
        (s.idleAfter (rs ++ shiftReqs s.params.tdiIdle .idle reg d capture .idle) (bs ++ cs)) := by
  have h' : answers (shiftReqs (s.idleAfter rs bs).params.tdiIdle .idle reg d capture .idle) (s.idleAfter rs bs) =
      some cs := by rw [answers_idleAfter]; exact h
  rw [shiftData_ok (s := s.idleAfter rs bs) (t := .idle) rfl h',
    idleAfter_drove hl (by exact walk_shiftReqs _ _ _ _ _ _ hd)]
  rfl

/-- A hard reset. -/
theorem hardReset_idleAfter {s : State} {rs : List CycleReq} {bs cs : List Bool} (hl : bs.length = rs.length)
    (h : answers (tmsReqs s.params.tdiIdle idleSeq) (s.drove rs bs) = some cs) :
    hardReset (s.idleAfter rs bs) =
      .done () (s.idleAfter (rs ++ tmsReqs s.params.tdiIdle idleSeq) (bs ++ cs)) := by
  have h' : answers (tmsReqs (s.idleAfter rs bs).params.tdiIdle idleSeq) (s.idleAfter rs bs) = some cs := by
    rw [answers_idleAfter]; exact h
  rw [hardReset_ok h', idleAfter_setTap hl]; rfl

/-- A probe. -/
theorem probe_idleAfter {s : State} {rs : List CycleReq} {bs cs : List Bool} (hl : bs.length = rs.length)
    (reg : ScanReg)
    (h : answers (shiftReqs s.params.tdiIdle .idle reg (flushPattern s.params.flushSize) true .idle)
      (s.drove rs bs) = some cs) :
    probe reg (s.idleAfter rs bs) =
      match probeLength ((BitBuffer.ofBits (dataBits .idle reg (flushPattern s.params.flushSize) cs)).dropLsb
        s.params.flushSize) with
      | .error e => .raised e (s.idleAfter
          (rs ++ shiftReqs s.params.tdiIdle .idle reg (flushPattern s.params.flushSize) true .idle) (bs ++ cs))
      | .ok n => .done n (s.idleAfter
          (rs ++ shiftReqs s.params.tdiIdle .idle reg (flushPattern s.params.flushSize) true .idle) (bs ++ cs)) := by
  unfold probe
  show (shiftData reg (flushPattern s.params.flushSize) true .idle (s.idleAfter rs bs)).bind _ = _
  rw [shiftData_idleAfter hl reg _ true (by simp) h]
  simp only [Res.bind_done, if_true]
  show (match probeLength _ with | .error e => _ | .ok n => _) = _
  rfl

@[simp] theorem shiftReqs_length (idle : Bool) (t fin : TapState) (reg : ScanReg) (d : BitBuffer) (capture : Bool) :
    (shiftReqs idle t reg d capture fin).length =
      (rom t reg.shift).length + d.len + (rom reg.exit1 fin).length := by
  simp [shiftReqs, Nat.add_assoc]

/-- The answers to the cycles of a data shift: those of the path, the samples, those of the exit. -/
theorem split_answers {t : TapState} {reg : ScanReg} {d : BitBuffer} {cs : List Bool} {n : Nat}
    (hl : cs.length = (rom t reg.shift).length + d.len + n) :
    ∃ a b, cs = a ++ dataBits t reg d cs ++ b ∧ a.length = (rom t reg.shift).length ∧ b.length = n ∧
      (dataBits t reg d cs).length = d.len := by
  refine ⟨cs.take (rom t reg.shift).length, (cs.drop (rom t reg.shift).length).drop d.len, ?_, by simp; omega,
    by simp; omega, by simp [dataBits]; omega⟩
  unfold dataBits
  rw [List.append_assoc, List.take_append_drop, List.take_append_drop]

/-! ### CHAINSCAN in stages -/

/-- The cycles of CHAINSCAN up to the end of the bypass load. -/
def loadReqs (tdiIdle : Bool) (f : Nat) : List CycleReq :=
  tmsReqs tdiIdle idleSeq ++ shiftReqs tdiIdle .idle .ir (BitBuffer.ones f) false .idle

/-- The cycles of a probe. -/
def probeReqs (tdiIdle : Bool) (f : Nat) (reg : ScanReg) : List CycleReq :=
  shiftReqs tdiIdle .idle reg (flushPattern f) true .idle

theorem loadReqs_length (idle : Bool) (f : Nat) : (loadReqs idle f).length = f + 12 := by
  have h1 : idleSeq.length = 6 := rfl
  have h2 : (rom .idle ScanReg.ir.shift).length = 4 := rfl
  have h3 : (rom ScanReg.ir.exit1 .idle).length = 2 := rfl
  simp [loadReqs, h1, h2, h3]; omega

theorem probeReqs_dr_length (idle : Bool) (f : Nat) : (probeReqs idle f .dr).length = 2 * f + 6 := by
  have h1 : (rom .idle ScanReg.dr.shift).length = 3 := rfl
  have h2 : (rom ScanReg.dr.exit1 .idle).length = 2 := rfl
  simp [probeReqs, h1, h2]; omega

theorem probeReqs_ir_length (idle : Bool) (f : Nat) : (probeReqs idle f .ir).length = 2 * f + 7 := by
  have h1 : (rom .idle ScanReg.ir.shift).length = 4 := rfl
  have h2 : (rom ScanReg.ir.exit1 .idle).length = 2 := rfl
  simp [probeReqs, h1, h2]; omega

/-- The samples of a data shift, read out of its answers. -/
theorem dataBits_append {t : TapState} {reg : ScanReg} {d : BitBuffer} {a b c : List Bool}
    (ha : a.length = (rom t reg.shift).length) (hb : b.length = d.len) : dataBits t reg d (a ++ b ++ c) = b := by
  rw [dataBits, List.append_assoc, ← ha, List.drop_left, ← hb, List.take_left]

/-- What a probe answered with `cs` finds. -/
def probeResult (f : Nat) (reg : ScanReg) (cs : List Bool) : Except ErrorCode Nat :=
  probeLength ((BitBuffer.ofBits (dataBits .idle reg (flushPattern f) cs)).dropLsb f)

/-- CHAINSCAN after a DR probe that counted `n` devices. -/
def afterDrProbe (n : Nat) (s : State) : Res Unit :=
  if n = 0 then .raised .noDevices s
  else
    (probe .ir s).bind fun irt s4 =>
    (hardReset s4).bind fun _ s5 =>
    (shiftData .dr (BitBuffer.ones (32 * n)) true .idle s5).bind fun c s6 =>
    .done () (s6.commitChain c n irt)

theorem chainscanReqs_eq (idle : Bool) (f n : Nat) :
    chainscanReqs idle f n = loadReqs idle f ++ probeReqs idle f .dr ++ probeReqs idle f .ir
      ++ tmsReqs idle idleSeq ++ shiftReqs idle .idle .dr (BitBuffer.ones (32 * n)) true .idle := rfl

/-- Driving cycles does not read the chain table. -/
theorem answers_clearChain {s : State} {rs qs : List CycleReq} {bs : List Bool} :
    answers qs (s.clearChain.drove rs bs) = answers qs (s.drove rs bs) := by apply answers_congr <;> rfl

theorem failsAt_clearChain {s : State} {rs qs pre : List CycleReq} {bs cs : List Bool} {r : CycleReq}
    (h : failsAt qs (s.drove rs bs) pre cs r) : failsAt qs (s.clearChain.drove rs bs) pre cs r :=
  failsAt_congr (s := s.drove rs bs) (t := s.clearChain.drove rs bs) rfl rfl rfl h

/-- The hard reset that CHAINSCAN begins with. -/
theorem hardReset_clearChain {s : State} {bs : List Bool}
    (h : answers (tmsReqs s.params.tdiIdle idleSeq) s = some bs) :
    hardReset s.clearChain = .done () (s.clearChain.idleAfter (tmsReqs s.params.tdiIdle idleSeq) bs) := by
  rw [hardReset_ok (s := s.clearChain) (bs := bs)
    ((answers_congr (s := s.clearChain) (t := s) rfl rfl rfl _).trans h)]
  rfl

/-- A data shift of a running CHAINSCAN whose cycle fails. -/
theorem shiftData_idleAfter_fail {s : State} {rs pre : List CycleReq} {bs cs : List Bool} {r : CycleReq}
    (hl : bs.length = rs.length) {reg : ScanReg} {d : BitBuffer} {capture : Bool}
    (h : failsAt (shiftReqs s.params.tdiIdle .idle reg d capture .idle) (s.drove rs bs) pre cs r) :
    shiftData reg d capture .idle (s.idleAfter rs bs) =
      .raised .cycleFail ((s.drove (rs ++ pre) (bs ++ cs)).failed r) := by
  have h' : failsAt (shiftReqs (s.idleAfter rs bs).params.tdiIdle .idle reg d capture .idle) (s.idleAfter rs bs)
      pre cs r := failsAt_congr (s := s.drove rs bs) (t := s.idleAfter rs bs) rfl rfl rfl h
  rw [shiftData_fail (s := s.idleAfter rs bs) (t := .idle) rfl h', ← State.drove_drove s hl]
  rfl

/-- A hard reset of a running CHAINSCAN whose cycle fails. -/
theorem hardReset_idleAfter_fail {s : State} {rs pre : List CycleReq} {bs cs : List Bool} {r : CycleReq}
    (hl : bs.length = rs.length) (h : failsAt (tmsReqs s.params.tdiIdle idleSeq) (s.drove rs bs) pre cs r) :
    hardReset (s.idleAfter rs bs) = .raised .cycleFail ((s.drove (rs ++ pre) (bs ++ cs)).failed r) := by
  have h' : failsAt (tmsReqs (s.idleAfter rs bs).params.tdiIdle idleSeq) (s.idleAfter rs bs) pre cs r :=
    failsAt_congr (s := s.drove rs bs) (t := s.idleAfter rs bs) rfl rfl rfl h
  rw [hardReset_fail h', ← State.drove_drove s hl]
  rfl

/-- A probe of a running CHAINSCAN whose cycle fails. -/
theorem probe_idleAfter_fail {s : State} {rs pre : List CycleReq} {bs cs : List Bool} {r : CycleReq}
    (hl : bs.length = rs.length) {reg : ScanReg}
    (h : failsAt (probeReqs s.params.tdiIdle s.params.flushSize reg) (s.drove rs bs) pre cs r) :
    probe reg (s.idleAfter rs bs) = .raised .cycleFail ((s.drove (rs ++ pre) (bs ++ cs)).failed r) := by
  unfold probe
  show (shiftData reg (flushPattern s.params.flushSize) true .idle (s.idleAfter rs bs)).bind _ = _
  rw [shiftData_idleAfter_fail hl h, Res.bind_raised]

/-- CHAINSCAN once the bypass load has been answered. -/
theorem chainscanBody_load {s : State} {bs : List Bool}
    (h : answers (loadReqs s.params.tdiIdle s.params.flushSize) s = some bs) :
    chainscanBody s =
      (probe .dr (s.clearChain.idleAfter (loadReqs s.params.tdiIdle s.params.flushSize) bs)).bind afterDrProbe := by
  obtain ⟨a1, a2, rfl, g1, g2⟩ := answers_append.1 h
  have hf : (BitBuffer.ones s.params.flushSize).len ≠ 0 := Nat.pos_iff_ne_zero.1 s.params.flushSize_pos
  unfold chainscanBody
  rw [hardReset_clearChain g1, Res.bind_done]
  show (shiftData .ir (BitBuffer.ones s.params.flushSize) false .idle (s.clearChain.idleAfter _ a1)).bind _ = _
  rw [shiftData_idleAfter (s := s.clearChain) (answers_length g1) .ir _ false hf
    (by rw [answers_clearChain]; exact g2)]
  rfl

/-- CHAINSCAN when a cycle of the bypass load fails. -/
theorem chainscanBody_load_fail {s : State} {pre : List CycleReq} {bs : List Bool} {r : CycleReq}
    (h : failsAt (loadReqs s.params.tdiIdle s.params.flushSize) s pre bs r) :
    chainscanBody s = .raised .cycleFail ((s.clearChain.drove pre bs).failed r) := by
  unfold chainscanBody
  rcases failsAt_append h with h1 | ⟨a1, pre2, b2, g1, rfl, rfl, h2⟩
  · rw [hardReset_fail (s := s.clearChain) (failsAt_congr (s := s) (t := s.clearChain) rfl rfl rfl h1), Res.bind_raised]
  · rw [hardReset_clearChain g1, Res.bind_done]
    show (shiftData .ir (BitBuffer.ones s.params.flushSize) false .idle (s.clearChain.idleAfter _ a1)).bind _ = _
    rw [shiftData_idleAfter_fail (s := s.clearChain) (answers_length g1) (failsAt_clearChain h2), Res.bind_raised]

/-- CHAINSCAN once the DR probe has been answered as well. -/
theorem chainscanBody_dr {s : State} {b1 b2 : List Bool}
    (h1 : answers (loadReqs s.params.tdiIdle s.params.flushSize) s = some b1)
    (h2 : answers (probeReqs s.params.tdiIdle s.params.flushSize .dr)
      (s.drove (loadReqs s.params.tdiIdle s.params.flushSize) b1) = some b2) :
    chainscanBody s =
      let s3 := s.clearChain.idleAfter
        (loadReqs s.params.tdiIdle s.params.flushSize ++ probeReqs s.params.tdiIdle s.params.flushSize .dr) (b1 ++ b2)
      match probeResult s.params.flushSize .dr b2 with
      | .error e => .raised e s3
      | .ok n => afterDrProbe n s3 := by
  rw [chainscanBody_load h1, probe_idleAfter (s := s.clearChain) (answers_length h1) .dr
    (by rw [answers_clearChain]; exact h2)]
  simp only [State.clearChain_params, probeResult, probeReqs]
  split <;> rfl

/-- CHAINSCAN when a cycle of the DR probe fails. -/
theorem chainscanBody_dr_fail {s : State} {b1 : List Bool} {pre : List CycleReq} {bs : List Bool} {r : CycleReq}
    (h1 : answers (loadReqs s.params.tdiIdle s.params.flushSize) s = some b1)
    (h2 : failsAt (probeReqs s.params.tdiIdle s.params.flushSize .dr)
      (s.drove (loadReqs s.params.tdiIdle s.params.flushSize) b1) pre bs r) :
    chainscanBody s = .raised .cycleFail
      ((s.clearChain.drove (loadReqs s.params.tdiIdle s.params.flushSize ++ pre) (b1 ++ bs)).failed r) := by
  rw [chainscanBody_load h1, probe_idleAfter_fail (s := s.clearChain) (answers_length h1) (failsAt_clearChain h2),
    Res.bind_raised]

/-- The rest of CHAINSCAN once the IR probe has been answered. -/
theorem afterDrProbe_ir {n : Nat} (hn : 0 < n) {s : State} {rs : List CycleReq} {bs b1 : List Bool}
    (hl : bs.length = rs.length)
    (h1 : answers (probeReqs s.params.tdiIdle s.params.flushSize .ir) (s.drove rs bs) = some b1) :
    afterDrProbe n (s.idleAfter rs bs) =
      let s4 := s.idleAfter (rs ++ probeReqs s.params.tdiIdle s.params.flushSize .ir) (bs ++ b1)
      match probeResult s.params.flushSize .ir b1 with
      | .error e => .raised e s4
      | .ok irt =>
        (hardReset s4).bind fun _ s5 =>
        (shiftData .dr (BitBuffer.ones (32 * n)) true .idle s5).bind fun c s6 =>
        .done () (s6.commitChain c n irt) := by
  unfold afterDrProbe
  rw [if_neg (by omega), probe_idleAfter hl .ir h1]
  simp only [probeResult, probeReqs]
  split <;> rfl

/-- The rest of CHAINSCAN when a cycle of the IR probe fails. -/
theorem afterDrProbe_ir_fail {n : Nat} (hn : 0 < n) {s : State} {rs pre : List CycleReq} {bs cs : List Bool}
    {r : CycleReq} (hl : bs.length = rs.length)
    (h : failsAt (probeReqs s.params.tdiIdle s.params.flushSize .ir) (s.drove rs bs) pre cs r) :
    afterDrProbe n (s.idleAfter rs bs) = .raised .cycleFail ((s.drove (rs ++ pre) (bs ++ cs)).failed r) := by
  unfold afterDrProbe
  rw [if_neg (by omega), probe_idleAfter_fail hl h, Res.bind_raised]

/-- A CHAINSCAN that ends without an error has driven every cycle of the discovery of the devices it counted. -/
theorem chainscanBody_done {s u : State} (h : chainscanBody s = .done () u) :
    ∃ n bs c irt, 0 < n ∧ answers (chainscanReqs s.params.tdiIdle s.params.flushSize n) s = some bs ∧
      u = (s.clearChain.idleAfter (chainscanReqs s.params.tdiIdle s.params.flushSize n) bs).commitChain c n irt := by
  rcases runCycles_cases (loadReqs s.params.tdiIdle s.params.flushSize) s with ⟨b1, h1⟩ | ⟨_, _, _, hf⟩
  swap; · rw [chainscanBody_load_fail hf] at h; cases h
  rcases runCycles_cases (probeReqs s.params.tdiIdle s.params.flushSize .dr)
    (s.drove (loadReqs s.params.tdiIdle s.params.flushSize) b1) with ⟨b2, h2⟩ | ⟨_, _, _, hf⟩
  swap; · rw [chainscanBody_dr_fail h1 hf] at h; cases h
  have h12 := answers_append.2 ⟨b1, b2, rfl, h1, h2⟩
  have L12 := answers_length h12
  rw [chainscanBody_dr h1 h2] at h
  dsimp only at h
  split at h
  · cases h
  rename_i n _
  have hn : 0 < n := by
    refine Nat.pos_of_ne_zero fun h0 => ?_
    rw [afterDrProbe, if_pos h0] at h; cases h
  rcases runCycles_cases (probeReqs s.params.tdiIdle s.params.flushSize .ir) (s.drove _ (b1 ++ b2))
    with ⟨b3, h3⟩ | ⟨_, _, _, hf⟩
  swap; · rw [afterDrProbe_ir_fail (s := s.clearChain) hn L12 (failsAt_clearChain hf)] at h; cases h
  have h123 := answers_append.2 ⟨_, b3, rfl, h12, h3⟩
  have L123 := answers_length h123
  rw [afterDrProbe_ir (s := s.clearChain) hn L12 (answers_clearChain.trans h3)] at h
  dsimp only [State.clearChain_params] at h
  split at h
  · cases h
  rename_i irt _
  rcases runCycles_cases (tmsReqs s.params.tdiIdle idleSeq) (s.drove _ (b1 ++ b2 ++ b3))
    with ⟨b4, h4⟩ | ⟨_, _, _, hf⟩
  swap; · rw [hardReset_idleAfter_fail (s := s.clearChain) L123 (failsAt_clearChain hf)] at h; cases h
  have h1234 := answers_append.2 ⟨_, b4, rfl, h123, h4⟩
  have L1234 := answers_length h1234
  rw [hardReset_idleAfter (s := s.clearChain) L123 (answers_clearChain.trans h4), Res.bind_done] at h
  dsimp only [State.clearChain_params] at h
  have hd : (BitBuffer.ones (32 * n)).len ≠ 0 := by show 32 * n ≠ 0; omega
  rcases runCycles_cases (shiftReqs s.params.tdiIdle .idle .dr (BitBuffer.ones (32 * n)) true .idle)
    (s.drove _ (b1 ++ b2 ++ b3 ++ b4)) with ⟨b5, h5⟩ | ⟨_, _, _, hf⟩
  swap; · rw [shiftData_idleAfter_fail (s := s.clearChain) L1234 (failsAt_clearChain hf)] at h; cases h
  rw [shiftData_idleAfter (s := s.clearChain) L1234 .dr _ true hd (answers_clearChain.trans h5)] at h
  cases h
  exact ⟨n, _, _, irt, hn, answers_append.2 ⟨_, b5, rfl, h1234, h5⟩, rfl⟩

/-! ### Results of discovery -/

/-- Every field of the ID-code capture is scanned without a fault: the widths sum to the length of a capture of
`32 * n` bits (42_chain.md R112, 40_bitbuffer.md R87). -/
theorem idcodes_scan {c : BitBuffer} {n : Nat} (h : c.len = 32 * n) :
    ∃ fs, c.scan (List.replicate n 32) = .ok fs ∧ idcodes c n = fs.map fun f => BitVec.ofNat 32 f.val := by
  refine ⟨fieldsFrom c.val c.len (List.replicate n 32), if_pos ?_, rfl⟩
  rw [List.sum_replicate, h, smul_eq_mul, Nat.mul_comm]

/-- The inference keeps the ID codes. -/
theorem inferIrlen_idcode (ds : List DevRec) (irt : Nat) :
    (inferIrlen ds irt).map DevRec.idcode = ds.map DevRec.idcode := by
  unfold inferIrlen; split
  · rw [List.map_map]; apply List.map_congr_left; intro d _; dsimp; split <;> rfl
  · rfl

@[simp] theorem identify_idcode (table : List DeviceEntry) (w : Word) : (identify table w).idcode = w := by
  unfold identify; split <;> rfl

/-- A record of Identify. -/
theorem identify_good (table : List DeviceEntry) (w : Word) :
    (identify table w).good ∧ (identify table w).inferred = false := by
  unfold identify
  split <;> simp [DevRec.good]

/-- The inference keeps records good. -/
theorem inferIrlen_good {ds : List DevRec} {irt : Nat} (h : ∀ d ∈ ds, d.good ∧ d.inferred = false) :
    ∀ d ∈ inferIrlen ds irt, d.good := by
  unfold inferIrlen
  split
  · intro d hd
    obtain ⟨d', hd', rfl⟩ := List.mem_map.1 hd
    have := h d' hd'
    split
    · exact this.1
    · rename_i hk
      obtain ⟨⟨h1, h2, h3⟩, h4⟩ := this
      exact ⟨fun hc => absurd hc hk, h2, by simp⟩
  · exact fun d hd => (h d hd).1

/-- Every record CHAINSCAN writes is good. -/
theorem buildDevices_good (table : List DeviceEntry) (c : BitBuffer) (n irt : Nat) :
    ∀ d ∈ buildDevices table c n irt, d.good := by
  apply inferIrlen_good
  intro d hd
  obtain ⟨w, -, rfl⟩ := List.mem_map.1 hd
  exact identify_good table w

end Sys2Proof.Machine
end

