-- ==== Sys2Proof/Laws/Freq.lean ====
section
/-! SUPPORT. No operation reads FREQ (10_state.md R21): each operation on a state with another FREQ does the
same and leaves that FREQ. -/

namespace Sys2Proof.Machine

/-- `s` with FREQ set to `f`. -/
def State.withFreq (s : State) (f : Word) : State := { s with freq := f }

/-- A course whose state has FREQ set to `f`. -/
def Res.withFreq {α : Type} (r : Res α) (f : Word) : Res α :=
  match r with
  | .done a s => .done a (s.withFreq f)
  | .raised e s => .raised e (s.withFreq f)

theorem Res.withFreq_bind {α β : Type} (r : Res α) (g : α → State → Res β) (f : Word)
    (hg : ∀ a s, g a (s.withFreq f) = (g a s).withFreq f) : (r.withFreq f).bind g = (r.bind g).withFreq f := by
  cases r <;> simp [Res.withFreq, Res.bind, hg]

theorem Res.withFreq_quiet (f : Word) (r : Res Unit) : (r.withFreq f).quiet = r.quiet.withFreq f := by
  cases r <;> rfl

theorem cycle_withFreq (f : Word) (r : CycleReq) (s : State) :
    cycle r (s.withFreq f) = (cycle r s).withFreq f := by
  have : (s.withFreq f).answer r = s.answer r := rfl
  unfold cycle
  rw [this]
  cases s.answer r <;> rfl

theorem runCycles_withFreq (f : Word) (rs : List CycleReq) (s : State) :
    runCycles rs (s.withFreq f) = (runCycles rs s).withFreq f := by
  induction rs generalizing s with
  | nil => rfl
  | cons r rs ih =>
    simp only [runCycles, cycle_withFreq]
    rw [Res.withFreq_bind]
    intro a s
    rw [ih, Res.withFreq_bind]
    intro _ _; rfl

theorem shiftTMS_withFreq (f : Word) (seq : List Bool) (s : State) :
    shiftTMS seq (s.withFreq f) = (shiftTMS seq s).withFreq f := by
  unfold shiftTMS
  rw [show (s.withFreq f).params = s.params from rfl, runCycles_withFreq, Res.withFreq_bind]; intro _ _; rfl

theorem hardReset_withFreq (f : Word) (s : State) : hardReset (s.withFreq f) = (hardReset s).withFreq f := by
  unfold hardReset
  rw [shiftTMS_withFreq, Res.withFreq_bind]; intro _ s; exact shiftTMS_withFreq f _ (s.setTap .reset)

theorem moveTo_withFreq (f : Word) (st : TapState) (s : State) :
    moveTo st (s.withFreq f) = (moveTo st s).withFreq f := by
  unfold moveTo
  rw [show (s.withFreq f).tap = s.tap from rfl]
  cases transitionBits s.tap st with
  | none => rfl
  | some seq => dsimp only; rw [shiftTMS_withFreq, Res.withFreq_bind]; intro _ _; rfl

theorem stateBody_withFreq (f : Word) (st : TapState) (s : State) :
    stateBody st (s.withFreq f) = (stateBody st s).withFreq f := by
  unfold stateBody; split
  · rw [shiftTMS_withFreq, Res.withFreq_bind]; intro _ _; rfl
  · rw [moveTo_withFreq]

theorem shiftData_withFreq (f : Word) (reg : ScanReg) (d : BitBuffer) (capture : Bool) (fin : TapState) (s : State) :
    shiftData reg d capture fin (s.withFreq f) = (shiftData reg d capture fin s).withFreq f := by
  unfold shiftData
  rw [show (s.withFreq f).tap = s.tap from rfl]
  cases transitionBits s.tap reg.shift with
  | none => rfl
  | some seq =>
    dsimp only; rw [shiftTMS_withFreq, Res.withFreq_bind]; intro _ _
    rw [runCycles_withFreq, Res.withFreq_bind]; intro _ _
    rw [shiftTMS_withFreq, Res.withFreq_bind]; intro _ _; rfl

theorem dwell_withFreq (f : Word) (t : TapState) (n : Nat) (s : State) :
    dwell t n (s.withFreq f) = (dwell t n s).withFreq f := by
  unfold dwell
  split
  · rfl
  · rw [show (s.withFreq f).params = s.params from rfl]; split
    · rw [shiftTMS_withFreq]
    · rfl

theorem runtestBody_withFreq (f : Word) (st : Option TapState) (n : Nat) (s : State) :
    runtestBody st n (s.withFreq f) = (runtestBody st n s).withFreq f := by
  unfold runtestBody
  cases st with
  | some t =>
    dsimp only; split
    · rfl
    · rw [moveTo_withFreq, Res.withFreq_bind]; intro _ s1; exact dwell_withFreq ..
  | none =>
    dsimp only; rw [show (s.withFreq f).tap = s.tap from rfl]
    cases s.tap with
    | none => rfl
    | some t =>
      dsimp only; split
      · rfl
      · exact dwell_withFreq ..

theorem probe_withFreq (f : Word) (reg : ScanReg) (s : State) :
    probe reg (s.withFreq f) = (probe reg s).withFreq f := by
  unfold probe
  rw [show (s.withFreq f).params = s.params from rfl, shiftData_withFreq, Res.withFreq_bind]
  intro c s1
  cases probeLength (c.dropLsb s.params.flushSize) <;> rfl

theorem chainscanBody_withFreq (f : Word) (s : State) :
    chainscanBody (s.withFreq f) = (chainscanBody s).withFreq f := by
  unfold chainscanBody
  rw [show (s.withFreq f).clearChain = s.clearChain.withFreq f from rfl, hardReset_withFreq, Res.withFreq_bind]
  intro _ s1
  rw [show (s1.withFreq f).params = s1.params from rfl, shiftData_withFreq, Res.withFreq_bind]
  intro _ s2
  rw [probe_withFreq, Res.withFreq_bind]
  intro n s3
  split
  · rfl
  rw [probe_withFreq, Res.withFreq_bind]
  intro _ s4
  rw [hardReset_withFreq, Res.withFreq_bind]
  intro _ s5
  rw [shiftData_withFreq, Res.withFreq_bind]
  intro _ s6
  rfl

theorem resolveMask_withFreq (f : Word) (n : Nat) (mask : Option BitBuffer) (s : State) :
    resolveMask n mask (s.withFreq f) = (resolveMask n mask s).withFreq f := by
  unfold resolveMask
  rw [show (s.withFreq f).mask = s.mask from rfl, show (s.withFreq f).params = s.params from rfl]
  cases mask
  · cases s.mask
    · cases s.params.noMaskPolicy <;> rfl
    · rfl
  · rfl

theorem scanBody_withFreq (f : Word) (reg : ScanReg) (tdi : BitBuffer) (smask tdo mask : Option BitBuffer)
    (s : State) :
    scanBody reg tdi smask tdo mask (s.withFreq f) = (scanBody reg tdi smask tdo mask s).withFreq f := by
  have hend : ∀ s : State, (s.withFreq f).endState reg = s.endState reg := by intro s; cases reg <;> rfl
  unfold scanBody
  rw [show checkScan tdi smask tdo mask (s.withFreq f) = checkScan tdi smask tdo mask s from rfl]
  cases checkScan tdi smask tdo mask s with
  | some e => rfl
  | none =>
    dsimp only
    cases tdo with
    | none => dsimp only; rw [hend, shiftData_withFreq, Res.withFreq_bind]; intro _ _; rfl
    | some e =>
      dsimp only
      unfold scanAndVerify
      rw [resolveMask_withFreq, Res.withFreq_bind]
      intro m s1
      rw [hend, shiftData_withFreq, Res.withFreq_bind]; intro _ _; rfl

end Sys2Proof.Machine
end

