-- ==== Sys2Proof/Laws/Parse.lean ====
section
/-! SUPPORT. What the parse step says of each header and payload: the three levels of 60_exceptions.md R152 read
off the header word as a number, each with the error it records. -/

namespace Sys2Proof

open Machine

/-! ### Header -/

/-- The OP field of the split header is the top byte of the word. -/
theorem op_toNat (w : Word) : (Header.ofWord w).op.toNat = opOf w := by
  have := w.isLt
  simp only [Header.ofWord, bitField, opOf, BitVec.toNat_ofNat]
  omega

/-- Level 1: an opcode has no format exactly when it is unassigned. -/
theorem opFormat_eq_none (w : Word) : opFormat (Header.ofWord w).op = none ↔ opOf w ∉ assignedOps := by
  unfold opFormat
  rw [op_toNat]
  constructor
  · intro h hm
    simp only [assignedOps, List.mem_cons, List.not_mem_nil, or_false] at hm
    rcases hm with h1 | h1 | h1 | h1 | h1 | h1 | h1 | h1 | h1 | h1 | h1 | h1 | h1 | h1 | h1 | h1 | h1 | h1 | h1 <;>
      rw [h1] at h <;> cases h
  · intro h
    split <;> first | rfl | (rename_i h1; rw [h1] at h; exact absurd h (by decide))

/-- An assigned opcode has a format. -/
theorem assigned_format {w : Word} (h : opOf w ∈ assignedOps) : ∃ f, opFormat (Header.ofWord w).op = some f := by
  cases hf : opFormat (Header.ofWord w).op with
  | none => exact absurd h ((opFormat_eq_none _).1 hf)
  | some f => exact ⟨f, rfl⟩

/-- The other header fields as numbers. -/
theorem header_fields (w : Word) :
    ((Header.ofWord w).st = 0#4 ↔ w.toNat / 2 ^ 20 % 16 = 0) ∧
    ((Header.ofWord w).imm = 0#16 ↔ w.toNat % 2 ^ 16 = 0) ∧
    (Header.ofWord w).imm.toNat = w.toNat % 2 ^ 16 ∧
    (Header.ofWord w).sv = decide (w.toNat / 2 ^ 19 % 2 = 1) ∧
    (Header.ofWord w).ft = decide (w.toNat / 2 ^ 18 % 2 = 1) ∧
    (Header.ofWord w).fm = decide (w.toNat / 2 ^ 17 % 2 = 1) ∧
    (Header.ofWord w).fs = decide (w.toNat / 2 ^ 16 % 2 = 1) := by
  have := w.isLt
  refine ⟨?_, ?_, ?_, ?_, ?_, ?_, ?_⟩ <;> simp only [Header.ofWord, bitField]
  · simp only [← BitVec.toNat_inj, BitVec.toNat_ofNat]; omega
  · simp only [← BitVec.toNat_inj, BitVec.toNat_ofNat]; omega
  · simp
  all_goals (rw [beq_eq_decide, Nat.pow_one])

/-- Level 2: a format's unused bits are clear exactly when no reserved bit is set. -/
theorem reservedClear_iff (w : Word) (f : Format) (hf : opFormat (Header.ofWord w).op = some f) :
    f.reservedClear (Header.ofWord w) = true ↔ ¬ reservedBitSet w := by
  have hm : opOf w ∈ assignedOps := by
    by_contra hc; rw [(opFormat_eq_none w).2 hc] at hf; cases hf
  obtain ⟨h1, h2, h3, h4, h5, h6, h7⟩ := header_fields w
  have hlt := w.isLt
  unfold opFormat at hf
  rw [op_toNat] at hf
  simp only [assignedOps, List.mem_cons, List.not_mem_nil, or_false] at hm
  rcases hm with h | h | h | h | h | h | h | h | h | h | h | h | h | h | h | h | h | h | h <;>
    (rw [h] at hf; cases hf
     simp [Format.reservedClear, reservedBitSet, h, h1, h2, h3, h4, h5, h6, h7]
     omega)

/-- Only an assigned command has reserved bits. -/
theorem assigned_of_reserved {w : Word} (h : reservedBitSet w) : opOf w ∈ assignedOps := by
  simp only [reservedBitSet, List.mem_cons, List.not_mem_nil, or_false] at h
  simp only [assignedOps, List.mem_cons, List.not_mem_nil, or_false]
  omega

/-! ### Payload -/

theorem payloadNone_ok {p : List Operand} {i j : Instr} (h : payloadNone p i = .ok j) : p = [] ∧ j = i := by
  unfold payloadNone at h; split at h <;> cases h; exact ⟨rfl, rfl⟩

theorem payloadWord_ok {p : List Operand} {f : Word → Instr} {j : Instr} (h : payloadWord p f = .ok j) :
    ∃ w, p = [.word w] ∧ j = f w := by
  unfold payloadWord at h; split at h <;> cases h; exact ⟨_, rfl, rfl⟩

theorem payloadBuf_ok {p : List Operand} {f : BitBuffer → Instr} {j : Instr} (h : payloadBuf p f = .ok j) :
    ∃ b, p = [.buf b] ∧ j = f b := by
  unfold payloadBuf at h; split at h <;> cases h; exact ⟨_, rfl, rfl⟩

theorem takeBuf_ok {present : Bool} {p q : List Operand} {x : Option BitBuffer}
    (h : takeBuf present p = some (x, q)) : p = x.toList.map Operand.buf ++ q ∧ x.isSome = present := by
  unfold takeBuf at h
  split at h <;> cases h <;> simp

theorem takeScanBufs_ok {h : Header} {p : List Operand} {tdi : BitBuffer} {smask tdo mask : Option BitBuffer}
    (hh : takeScanBufs h p = some (tdi, smask, tdo, mask)) :
    p = scanOperands tdi smask tdo mask ∧ smask.isSome = h.fs ∧ tdo.isSome = h.ft ∧ mask.isSome = h.fm := by
  unfold takeScanBufs at hh
  split at hh
  · rename_i t p1
    split at hh
    · cases hh
    rename_i sm p2 h1
    split at hh
    · cases hh
    rename_i td p3 h2
    split at hh
    · rename_i m h3
      simp only [Option.some.injEq, Prod.mk.injEq] at hh
      obtain ⟨rfl, rfl, rfl, rfl⟩ := hh
      obtain ⟨rfl, e1⟩ := takeBuf_ok h1
      obtain ⟨rfl, e2⟩ := takeBuf_ok h2
      obtain ⟨rfl, e3⟩ := takeBuf_ok h3
      simp [scanOperands, e1, e2, e3]
    · cases hh
  · cases hh

theorem takeScanBufs_of {h : Header} {tdi : BitBuffer} {smask tdo mask : Option BitBuffer}
    (h1 : smask.isSome = h.fs) (h2 : tdo.isSome = h.ft) (h3 : mask.isSome = h.fm) :
    takeScanBufs h (scanOperands tdi smask tdo mask) = some (tdi, smask, tdo, mask) := by
  obtain ⟨op, st, sv, ft, fm, fs, imm⟩ := h
  dsimp only at h1 h2 h3; subst h1 h2 h3
  cases smask <;> cases tdo <;> cases mask <;> rfl

theorem payloadScan_ok {h : Header} {p : List Operand}
    {f : BitBuffer → Option BitBuffer → Option BitBuffer → Option BitBuffer → Instr} {i : Instr}
    (hh : payloadScan h p f = .ok i) :
    ∃ tdi smask tdo mask, i = f tdi smask tdo mask ∧ p = scanOperands tdi smask tdo mask ∧
      smask.isSome = h.fs ∧ tdo.isSome = h.ft ∧ mask.isSome = h.fm ∧ maskNeedsTdo tdo mask = true := by
  unfold payloadScan at hh
  split at hh
  · cases hh
  rename_i h1
  split at hh
  · cases hh
    obtain ⟨rfl, e⟩ := takeScanBufs_ok h1
    exact ⟨_, _, _, _, rfl, rfl, e.1, e.2.1, e.2.2, by assumption⟩
  · cases hh

/-- Level 3 raises nothing but BAD_PAYLOAD. -/
theorem decodePayload_error {h : Header} {p : List Operand} {e : DecodeError} {f : Format}
    (hf : opFormat h.op = some f) (hp : decodePayload h p = .error e) : e = .badPayload := by
  unfold opFormat at hf
  unfold decodePayload at hp
  split at hf <;> rename_i h1 <;> cases hf
  all_goals (simp only [h1] at hp)
  all_goals (simp only [payloadNone, payloadWord, payloadBuf, payloadScan] at hp)
  all_goals (repeat' split at hp) <;> first | (cases hp; rfl) | cases hp

theorem payloadNone_iff {p : List Operand} {i : Instr} : (∃ j, payloadNone p i = .ok j) ↔ p = [] := by
  cases p <;> simp [payloadNone]

theorem payloadWord_iff {p : List Operand} {f : Word → Instr} :
    (∃ j, payloadWord p f = .ok j) ↔ ∃ w, p = [.word w] := by
  constructor
  · rintro ⟨j, h⟩; obtain ⟨w, h, -⟩ := payloadWord_ok h; exact ⟨w, h⟩
  · rintro ⟨w, rfl⟩; exact ⟨_, rfl⟩

theorem payloadBuf_iff {p : List Operand} {f : BitBuffer → Instr} :
    (∃ j, payloadBuf p f = .ok j) ↔ ∃ b, p = [.buf b] := by
  constructor
  · rintro ⟨j, h⟩; obtain ⟨w, h, -⟩ := payloadBuf_ok h; exact ⟨w, h⟩
  · rintro ⟨w, rfl⟩; exact ⟨_, rfl⟩

theorem payloadScan_iff {h : Header} {p : List Operand}
    {f : BitBuffer → Option BitBuffer → Option BitBuffer → Option BitBuffer → Instr} :
    (∃ j, payloadScan h p f = .ok j) ↔
      ∃ tdi smask tdo mask, p = scanOperands tdi smask tdo mask ∧ smask.isSome = h.fs ∧ tdo.isSome = h.ft ∧
        mask.isSome = h.fm ∧ maskNeedsTdo tdo mask = true := by
  constructor
  · rintro ⟨j, h⟩; obtain ⟨a, b, c, d, -, h⟩ := payloadScan_ok h; exact ⟨a, b, c, d, h⟩
  · rintro ⟨a, b, c, d, rfl, h1, h2, h3, h4⟩
    refine ⟨f a b c d, ?_⟩
    simp [payloadScan, takeScanBufs_of h1 h2 h3, h4]

/-- Level 3: an assigned command's payload is accepted exactly when it has the shape the header fixes. -/
theorem decodePayload_iff (c : Command) (hm : opOf c.header ∈ assignedOps) :
    (∃ i, decodePayload (Header.ofWord c.header) c.payload = .ok i) ↔ payloadFits c := by
  obtain ⟨h1, h2, h3, h4, h5, h6, h7⟩ := header_fields c.header
  have hs : (∃ tdi smask tdo mask, c.payload = scanOperands tdi smask tdo mask ∧
        smask.isSome = (Header.ofWord c.header).fs ∧ tdo.isSome = (Header.ofWord c.header).ft ∧
        mask.isSome = (Header.ofWord c.header).fm ∧ maskNeedsTdo tdo mask = true) ↔
      (∃ (tdi : BitBuffer) (smask tdo mask : Option BitBuffer),
        c.payload = .buf tdi :: (smask.toList ++ tdo.toList ++ mask.toList).map .buf ∧
        (smask.isSome = true ↔ c.header.toNat / 2 ^ 16 % 2 = 1) ∧
        (tdo.isSome = true ↔ c.header.toNat / 2 ^ 18 % 2 = 1) ∧
        (mask.isSome = true ↔ c.header.toNat / 2 ^ 17 % 2 = 1) ∧
        (mask.isSome = true → tdo.isSome = true)) := by
    rw [h5, h6, h7]
    refine exists_congr fun tdi => exists_congr fun smask => exists_congr fun tdo => exists_congr fun mask => ?_
    refine and_congr Iff.rfl (and_congr ?_ (and_congr ?_ (and_congr ?_ ?_)))
    · cases smask <;> simp
    · cases tdo <;> simp
    · cases mask <;> simp
    · cases mask <;> cases tdo <;> simp [maskNeedsTdo]
  unfold decodePayload
  simp only [op_toNat]
  simp only [assignedOps, List.mem_cons, List.not_mem_nil, or_false] at hm
  rcases hm with h | h | h | h | h | h | h | h | h | h | h | h | h | h | h | h | h | h | h <;>
    simp only [h, payloadFits, payloadNone_iff, payloadWord_iff, payloadBuf_iff, payloadScan_iff, hs] <;> simp

/-! ### The three levels -/

/-- What decoding does once the opcode is known to be assigned. -/
theorem decode_assigned {c : Command} {f : Format} (hf : opFormat (Header.ofWord c.header).op = some f) :
    decode c = if f.reservedClear (Header.ofWord c.header)
      then decodePayload (Header.ofWord c.header) c.payload else .error .reservedField := by
  simp only [decode, hf]

theorem decode_unknown {c : Command} (h : opOf c.header ∉ assignedOps) : decode c = .error .unknownCommand := by
  simp only [decode, (opFormat_eq_none _).2 h]

theorem decode_reserved {c : Command} (h : reservedBitSet c.header) : decode c = .error .reservedField := by
  obtain ⟨f, hf⟩ := assigned_format (assigned_of_reserved h)
  rw [decode_assigned hf, if_neg]
  rw [reservedClear_iff _ _ hf]; exact not_not.2 h

theorem decode_badPayload {c : Command} (h1 : opOf c.header ∈ assignedOps) (h2 : ¬ reservedBitSet c.header)
    (h3 : ¬ payloadFits c) : decode c = .error .badPayload := by
  obtain ⟨f, hf⟩ := assigned_format h1
  rw [decode_assigned hf, if_pos ((reservedClear_iff _ _ hf).2 h2)]
  cases hp : decodePayload (Header.ofWord c.header) c.payload with
  | error e => rw [decodePayload_error hf hp]
  | ok i => exact absurd ((decodePayload_iff c h1).1 ⟨i, hp⟩) h3

/-- An accepted command passed all three levels. -/
theorem decode_ok {c : Command} {i : Instr} (h : decode c = .ok i) :
    ∃ f, opFormat (Header.ofWord c.header).op = some f ∧ f.reservedClear (Header.ofWord c.header) = true ∧
      decodePayload (Header.ofWord c.header) c.payload = .ok i := by
  unfold decode at h
  cases hf : opFormat (Header.ofWord c.header).op with
  | none => simp [hf] at h
  | some f =>
    simp only [hf] at h
    split at h
    · rename_i hr; exact ⟨f, rfl, hr, h⟩
    · cases h

end Sys2Proof
end

