-- ==== Sys2Proof/Laws/PerInstr.lean ====
section
/-! SUPPORT. Families of statements with one lemma per command. RoundTrip: a well-formed command is read back from
its encoding by the parse step (30_encoding.md R60 to R63). -/

namespace Sys2Proof.Laws.RoundTrip

/-- The decoder reads `i` from the encoding of `i`. -/
def Statement (i : Instr) : Prop := i.wellFormed = true → decode (encode i) = .ok i

/-- What decoding an encoding comes to once the header is read back. -/
theorem of_payload {i : Instr} {f : Format} (hf : opFormat (encodeFields i).1.op = some f)
    (hr : f.reservedClear (encodeFields i).1 = true)
    (hp : decodePayload (encodeFields i).1 (encodeFields i).2 = .ok i) : decode (encode i) = .ok i :=
  decode_of_fields (Header.ofWord_toWord _) hf hr hp

/-- What the payload reader of SIR and SDR makes of their operands. -/
theorem payloadScan_scanOperands (op : BitVec 8) (tdi : BitBuffer) (smask tdo mask : Option BitBuffer)
    (f : BitBuffer → Option BitBuffer → Option BitBuffer → Option BitBuffer → Instr)
    (h : maskNeedsTdo tdo mask = true) :
    payloadScan (scanHeader op smask tdo mask) (scanOperands tdi smask tdo mask) f = .ok (f tdi smask tdo mask) := by
  simp only [payloadScan, takeScanBufs_scanOperands, h, if_true]

theorem tapidle : Statement .tapidle := fun _ => of_payload (f := .plain) rfl rfl rfl

theorem goto (st : TapState) : Statement (.goto st) := fun _ =>
  of_payload (f := .st) rfl rfl (congrArg (fun t => Except.ok (Instr.goto t)) (TapState.ofCode_code st))

theorem state (st : TapState) : Statement (.state st) := fun _ =>
  of_payload (f := .st) rfl rfl (congrArg (fun t => Except.ok (Instr.state t)) (TapState.ofCode_code st))

theorem runtest (st : Option TapState) (count : Word) : Statement (.runtest st count) := fun _ => by
  cases st with
  | none => exact of_payload (f := .svSt) rfl rfl rfl
  | some t =>
    exact of_payload (f := .svSt) rfl rfl
      (congrArg (fun t => Except.ok (Instr.runtest (some t) count)) (TapState.ofCode_code t))

theorem endir (st : TapState) : Statement (.endir st) := fun _ =>
  of_payload (f := .st) rfl rfl (congrArg (fun t => Except.ok (Instr.endir t)) (TapState.ofCode_code st))

theorem enddr (st : TapState) : Statement (.enddr st) := fun _ =>
  of_payload (f := .st) rfl rfl (congrArg (fun t => Except.ok (Instr.enddr t)) (TapState.ofCode_code st))

theorem frequency (hz : Word) : Statement (.frequency hz) := fun _ => of_payload (f := .plain) rfl rfl rfl

theorem trst (on : Bool) : Statement (.trst on) := fun _ => by
  cases on <;> exact of_payload (f := .bit) rfl rfl rfl

theorem strict (on : Bool) : Statement (.strict on) := fun _ => by
  cases on <;> exact of_payload (f := .bit) rfl rfl rfl

theorem sir (tdi : BitBuffer) (smask tdo mask : Option BitBuffer) : Statement (.sir tdi smask tdo mask) :=
  fun h => of_payload (f := .flags) rfl rfl (payloadScan_scanOperands 0x20 tdi smask tdo mask .sir h)

theorem sdr (tdi : BitBuffer) (smask tdo mask : Option BitBuffer) : Statement (.sdr tdi smask tdo mask) :=
  fun h => of_payload (f := .flags) rfl rfl (payloadScan_scanOperands 0x21 tdi smask tdo mask .sdr h)

theorem hdr (n : BitVec 16) : Statement (.hdr n) := fun _ => of_payload (f := .imm) rfl rfl rfl

theorem tdr (n : BitVec 16) : Statement (.tdr n) := fun _ => of_payload (f := .imm) rfl rfl rfl

theorem hir (n : BitVec 16) : Statement (.hir n) := fun _ => of_payload (f := .imm) rfl rfl rfl

theorem tir (n : BitVec 16) : Statement (.tir n) := fun _ => of_payload (f := .imm) rfl rfl rfl

theorem chainscan : Statement .chainscan := fun _ => of_payload (f := .plain) rfl rfl rfl

theorem devir (k : BitVec 16) (bits : BitBuffer) : Statement (.devir k bits) := fun _ =>
  of_payload (f := .imm) rfl rfl rfl

theorem devdrw (k : BitVec 16) (bits : BitBuffer) : Statement (.devdrw k bits) := fun _ =>
  of_payload (f := .imm) rfl rfl rfl

theorem devdrrw (k : BitVec 16) (bits : BitBuffer) : Statement (.devdrrw k bits) := fun _ =>
  of_payload (f := .imm) rfl rfl rfl

end Sys2Proof.Laws.RoundTrip
end

