-- ==== Sys2Proof/Laws/Step.lean ====
section
/-! SUPPORT. What a step can do, said once: wait, reset, ignore, refuse or execute (Machine/Issue.lean). -/

namespace Sys2Proof.Machine

/-- A step on a command while playback is not aborted. -/
theorem step_command {s : State} {c : Command} {rest : List HostInput} (hi : s.inputs = .command c :: rest)
    (ha : s.aborted = false) : step s = runCommand exec c { s with inputs := rest } := by
  simp [step, issue, hi, ha]

/-- A refused command is one FORMAT record and nothing else. -/
theorem runCommand_error {c : Command} {e : DecodeError} {s : State} (h : decode c = .error e) :
    runCommand exec c s = .next (s.refusedWith (decodeErrorCode e)) := by
  unfold runCommand
  rw [h]
  exact complete_format _ _ (kind_decodeErrorCode e)

/-- The five things a step can do. -/
theorem step_cases {s t : State} (h : step s = .next t) :
    (s.inputs = [] ∧ t = s) ∨
    (∃ rest, s.inputs = .blockReset :: rest ∧ t = ({ s with inputs := rest }).blockReset) ∨
    (∃ c rest, s.inputs = .command c :: rest ∧ s.aborted = true ∧ t = { s with inputs := rest }) ∨
    (∃ c rest e, s.inputs = .command c :: rest ∧ s.aborted = false ∧ decode c = .error e ∧
      t = ({ s with inputs := rest }).refusedWith (decodeErrorCode e)) ∨
    (∃ c rest i, s.inputs = .command c :: rest ∧ s.aborted = false ∧ decode c = .ok i ∧
      exec i { s with inputs := rest } = .next t) := by
  unfold step issue at h
  split at h
  · rename_i hi; cases h; exact .inl ⟨hi, rfl⟩
  · rename_i rest hi; cases h; exact .inr (.inl ⟨rest, hi, rfl⟩)
  · rename_i c rest hi
    split at h
    · rename_i ha; cases h; exact .inr (.inr (.inl ⟨c, rest, hi, ha, rfl⟩))
    · rename_i ha
      have ha' : s.aborted = false := by simpa using ha
      cases hd : decode c with
      | error e =>
        rw [runCommand_error hd] at h; cases h
        exact .inr (.inr (.inr (.inl ⟨c, rest, e, hi, ha', hd, rfl⟩)))
      | ok i =>
        simp only [runCommand, hd] at h
        exact .inr (.inr (.inr (.inr ⟨c, rest, i, hi, ha', hd, h⟩)))

end Sys2Proof.Machine
end

