-- ==== Sys2Proof/Laws/Stream.lean ====
section
/-! SUPPORT. A byte stream that holds a complete operand, or a complete command, is read the same with more bytes
after it; and the commands of a stream that holds one command or none. -/

namespace Sys2Proof

/-- Too few bytes. -/
theorem takeBytes_short {n : Nat} {bs : List Byte} (h : bs.length < n) : takeBytes n bs = none := if_pos h

/-- Fewer than four bytes hold no word. -/
theorem takeWord_none {bs : List Byte} (h : bs.length < 4) : takeWord bs = none := by
  simp [takeWord, takeBytes_short h]

/-- Bytes taken are taken with more bytes after them. -/
theorem takeBytes_extend {n : Nat} {a b x y : List Byte} (h : takeBytes n a = some (x, y)) :
    takeBytes n (a ++ b) = some (x, y ++ b) := by
  unfold takeBytes at h ⊢
  split at h
  · cases h
  · rename_i hl
    simp only [Option.some.injEq, Prod.mk.injEq] at h
    obtain ⟨rfl, rfl⟩ := h
    have : ¬ (a ++ b).length < n := by simp; omega
    rw [if_neg this, List.take_append_of_le_length (by omega), List.drop_append_of_le_length (by omega)]

/-- The same for a word. -/
theorem takeWord_extend {a b y : List Byte} {x : Word} (h : takeWord a = some (x, y)) :
    takeWord (a ++ b) = some (x, y ++ b) := by
  unfold takeWord at h ⊢
  cases hb : takeBytes 4 a with
  | none => simp [hb] at h
  | some p =>
    rw [takeBytes_extend (show takeBytes 4 a = some (p.1, p.2) from hb)]
    simp [hb] at h ⊢
    obtain ⟨rfl, rfl⟩ := h; simp

/-- The same for a BUF operand. -/
theorem takeBufOperand_extend {a b y : List Byte} {x : Operand} (h : takeBufOperand a = some (x, y)) :
    takeBufOperand (a ++ b) = some (x, y ++ b) := by
  unfold takeBufOperand at h ⊢
  cases hb : takeWord a with
  | none => simp [hb] at h
  | some p =>
    rw [takeWord_extend (show takeWord a = some (p.1, p.2) from hb)]
    simp only [hb] at h ⊢
    cases hc : takeBytes (byteCount p.1.toNat + padCount (byteCount p.1.toNat)) p.2 with
    | none => simp [hc] at h
    | some q =>
      rw [takeBytes_extend (show takeBytes _ p.2 = some (q.1, q.2) from hc)]
      simp [hc] at h ⊢
      obtain ⟨rfl, rfl⟩ := h; simp

/-- The same for the operands of a command. -/
theorem takeOperands_extend {ks : List Bool} {a b y : List Byte} {x : List Operand}
    (h : takeOperands ks a = some (x, y)) : takeOperands ks (a ++ b) = some (x, y ++ b) := by
  induction ks generalizing a x y with
  | nil => simp [takeOperands] at h ⊢; obtain ⟨rfl, rfl⟩ := h; simp
  | cons k ks ih =>
    unfold takeOperands at h ⊢
    have key : ∀ o r,
        (if k then takeBufOperand a else (takeWord a).map fun p => (Operand.word p.1, p.2)) = some (o, r) →
        (if k then takeBufOperand (a ++ b) else (takeWord (a ++ b)).map fun p => (Operand.word p.1, p.2)) =
          some (o, r ++ b) := by
      intro o r h
      cases k
      · simp only [Bool.false_eq_true, if_false] at h ⊢
        obtain ⟨⟨w, r'⟩, hw, he⟩ := Option.map_eq_some_iff.1 h
        cases he
        rw [takeWord_extend hw]; rfl
      · simp only [if_true] at h ⊢; exact takeBufOperand_extend h
    cases hk : (if k then takeBufOperand a else (takeWord a).map fun p => (Operand.word p.1, p.2)) with
    | none => simp [hk] at h
    | some p =>
      obtain ⟨o, r⟩ := p
      rw [key o r hk]
      simp only [hk] at h ⊢
      cases hr : takeOperands ks r with
      | none => simp [hr] at h
      | some q =>
        rw [ih (show takeOperands ks r = some (q.1, q.2) from hr)]
        simp [hr] at h ⊢
        obtain ⟨rfl, rfl⟩ := h; simp

/-- The same for a whole command. -/
theorem takeCommand_extend {a b y : List Byte} {x : Command} (h : takeCommand a = some (x, y)) :
    takeCommand (a ++ b) = some (x, y ++ b) := by
  unfold takeCommand at h ⊢
  cases hb : takeWord a with
  | none => simp [hb] at h
  | some p =>
    rw [takeWord_extend (show takeWord a = some (p.1, p.2) from hb)]
    simp only [hb] at h ⊢
    cases hc : takeOperands (payloadShape (Header.ofWord p.1)) p.2 with
    | none => simp [hc] at h
    | some q =>
      rw [takeOperands_extend (show takeOperands _ p.2 = some (q.1, q.2) from hc)]
      simp [hc] at h ⊢
      obtain ⟨rfl, rfl⟩ := h; simp

/-- The bytes of an encoded instruction are read back as its command. -/
theorem takeCommand_encode (i : Instr) (hc : (encode i).carriable = true) (rest : List Byte) :
    takeCommand ((encode i).toBytes ++ rest) = some (encode i, rest) := by
  refine takeCommand_toBytes (encode i) ?_ hc rest
  have h : Header.ofWord (encode i).header = (encodeFields i).1 := Header.ofWord_toWord _
  rw [h, payloadShape_encode]; rfl

/-- A stream that holds no complete command submits nothing. -/
theorem takeCommands_none {bs : List Byte} (h : takeCommand bs = none) (fuel : Nat) :
    takeCommands fuel bs = ([], bs) := by
  cases fuel with
  | zero => rfl
  | succ n => rw [takeCommands, h]

/-- A stream that is exactly one command submits it. -/
theorem takeCommands_one {bs : List Byte} {c : Command} (h : takeCommand bs = some (c, [])) (fuel : Nat) :
    takeCommands (fuel + 1) bs = ([c], []) := by
  rw [takeCommands, h]
  dsimp only
  rw [takeCommands_none (by rfl)]

/-- Every command has its four header bytes. -/
theorem toBytes_length_ge (c : Command) : 4 ≤ c.toBytes.length := by simp [Command.toBytes]

/-- The host submits the bytes of one command. -/
theorem Machine.State.submitBytes_one (s : Machine.State) {bs : List Byte} {c : Command}
    (h : takeCommand bs = some (c, [])) (hl : 0 < bs.length) : s.submitBytes bs = (s.submit c, []) := by
  obtain ⟨n, hn⟩ : ∃ n, bs.length = n + 1 := ⟨bs.length - 1, by omega⟩
  unfold Machine.State.submitBytes
  rw [hn, takeCommands_one h]; rfl

/-- The host submits bytes that hold no complete command. -/
theorem Machine.State.submitBytes_none (s : Machine.State) {bs : List Byte} (h : takeCommand bs = none) :
    s.submitBytes bs = (s, bs) := by
  unfold Machine.State.submitBytes
  rw [takeCommands_none h]
  simp

/-- A proper part of the bytes of one command is no complete command. -/
theorem takeCommand_take {bs : List Byte} {c : Command} (h : takeCommand bs = some (c, [])) {n : Nat}
    (hn : n < bs.length) : takeCommand (bs.take n) = none := by
  cases hp : takeCommand (bs.take n) with
  | none => rfl
  | some p =>
    have hx := takeCommand_extend (b := bs.drop n) (show takeCommand (bs.take n) = some (p.1, p.2) from hp)
    rw [List.take_append_drop, h] at hx
    simp only [Option.some.injEq, Prod.mk.injEq] at hx
    have h2 := congrArg List.length hx.2
    simp at h2
    omega

end Sys2Proof
end

