-- ==== Sys2Proof/Tests/Slice0.lean ====
section
/-! SUPPORT. Tests of the model. Each expected value is written out from spec/: the vectors of
95_test_vectors.md (their ids in the comments), the encodings of 30_encoding.md, or a hand calculation from the
rule named. The second half gives, for every statement with hypotheses, concrete terms that meet them. -/

namespace Sys2Proof.Tests

open Sys2Proof Sys2Proof.Machine

/-! ### Helpers -/

/-- The parameters of the vectors, with a small `FLUSH_SIZE` (95_test_vectors.md section 1). -/
def vecParams : Params :=
  { flushSize := 4, flushSize_pos := by decide, tdiIdle := true, hasTrst := true,
    deviceTable := [⟨0x11111111, 0xFFFFFFFF, "A", 4⟩, ⟨0x33333333, 0x0FFFFFFF, "C", 8⟩],
    noMaskPolicy := .error, runtestClocks := false, defaultHalfPeriod := ⟨1, 1000⟩ }

/-- The block after the block reset, with those parameters. -/
def fresh : State := { State.reset with params := vecParams }

/-- The block standing in IDLE. -/
def idle : State := { fresh with tap := some .idle }

/-- `s` with these answers lined up. -/
def answering (s : State) (bs : List Bool) : State := { s with env := bs.map .ok }

/-- `s` with `n` answers 0 lined up. -/
def zerosFor (n : Nat) (s : State) : State := answering s (List.replicate n false)

/-- `s` with `n` answers 0 and then a failed cycle lined up. -/
def failingAfter (n : Nat) (s : State) : State := { s with env := List.replicate n (.ok false) ++ [.fail] }

/-- `n` bits, bit 0 of `v` first. -/
def lsbFirst (n v : Nat) : List Bool := (List.range n).map v.testBit

/-- The state a command leaves. -/
def after (i : Instr) (s : State) : State :=
  match exec i s with
  | .next t => t
  | _ => s

/-- TMS of the `Clk` events, in clock order. -/
def tmsLine (s : State) : List Bool :=
  s.trace.filterMap fun e => match e with
    | .clk t _ _ _ => some t
    | _ => none

/-- TDI of the `Clk` events, in clock order. -/
def tdiLine (s : State) : List Bool :=
  s.trace.filterMap fun e => match e with
    | .clk _ d _ _ => some d
    | _ => none

/-- How many `Clk` events sampled TDO. -/
def sampledCount (s : State) : Nat :=
  s.trace.countP fun e => match e with
    | .clk _ _ sm _ => sm
    | _ => false

/-- `(n, v)`. -/
def buf (n v : Nat) : BitBuffer := BitBuffer.ofNat n v

/-- The chain table of program P2: 3 devices with IR lengths 4, 6 and 8. -/
def p2Devices : List DevRec :=
  [⟨0x11111111, true, 0, 4, false⟩, ⟨0x22222222, false, 0xFFFF, 6, true⟩, ⟨0x43333333, true, 1, 8, false⟩]

/-- A block in IDLE with that chain table, as CHAINSCAN leaves it. -/
def chained : State := { idle with chainv := true, ndev := 3, irtotal := 18, dev := p2Devices }

/-! ### Well-formedness -/

/-- MASK without TDO is ill-formed (43_svf_scan.md R124). -/
theorem test_wellFormed_refuses_sir_mask_without_tdo :
    (Instr.sir (buf 8 0) none none (some (buf 8 0xFF))).wellFormed = false := by decide

theorem test_wellFormed_refuses_sdr_mask_without_tdo :
    (Instr.sdr (buf 8 0) (some (buf 8 0)) none (some (buf 8 0xFF))).wellFormed = false := by decide

theorem test_wellFormed_accepts_sdr_mask_with_tdo :
    (Instr.sdr (buf 8 0) none (some (buf 8 0xA5)) (some (buf 8 0xFF))).wellFormed = true := by decide

/-- A length word holds lengths below 2^32 only (30_encoding.md R61). -/
theorem test_carriable_refuses_wide_operand (b : BitBuffer) (h : b.len = 2 ^ 32) :
    Operand.carriable (.buf b) = false := by simp [Operand.carriable, h]

/-! ### Decoding: one word a constructor, the bits of OP, ST, SV, FT, FM, FS, IMM written out (30_encoding.md
R60, R63) -/

theorem test_decode_tapidle : decode ⟨0b00000001_0000_0_0_0_0_0000000000000000, []⟩ = .ok .tapidle := by rfl
theorem test_decode_goto : decode ⟨0b00000010_1110_0_0_0_0_0000000000000000, []⟩ = .ok (.goto .irexit2) := by rfl
theorem test_decode_state : decode ⟨0b00010000_0110_0_0_0_0_0000000000000000, []⟩ = .ok (.state .drpause) := by rfl
theorem test_decode_runtest_here :
    decode ⟨0b00010001_0000_0_0_0_0_0000000000000000, [.word 5]⟩ = .ok (.runtest none 5) := by rfl
theorem test_decode_runtest_state :
    decode ⟨0b00010001_0000_1_0_0_0_0000000000000000, [.word 10]⟩ = .ok (.runtest (some .reset) 10) := by rfl
theorem test_decode_endir : decode ⟨0b00010010_1101_0_0_0_0_0000000000000000, []⟩ = .ok (.endir .irpause) := by rfl
theorem test_decode_enddr : decode ⟨0b00010011_0110_0_0_0_0_0000000000000000, []⟩ = .ok (.enddr .drpause) := by rfl
theorem test_decode_frequency :
    decode ⟨0b00010100_0000_0_0_0_0_0000000000000000, [.word 1000000]⟩ = .ok (.frequency 1000000) := by rfl
theorem test_decode_trst : decode ⟨0b00010101_0000_0_0_0_0_0000000000000001, []⟩ = .ok (.trst true) := by rfl
theorem test_decode_strict : decode ⟨0b00010110_0000_0_0_0_0_0000000000000000, []⟩ = .ok (.strict false) := by rfl
theorem test_decode_sir :
    decode ⟨0b00100000_0000_0_0_0_1_0000000000000000, [.buf (buf 6 0x2A), .buf (buf 6 0x3F)]⟩ =
      .ok (.sir (buf 6 0x2A) (some (buf 6 0x3F)) none none) := by rfl
theorem test_decode_sdr :
    decode ⟨0b00100001_0000_0_1_1_0_0000000000000000, [.buf (buf 8 0), .buf (buf 8 0xA5), .buf (buf 8 0xFE)]⟩ =
      .ok (.sdr (buf 8 0) none (some (buf 8 0xA5)) (some (buf 8 0xFE))) := by rfl
theorem test_decode_hdr : decode ⟨0b00100010_0000_0_0_0_0_0000000000000010, []⟩ = .ok (.hdr 2) := by rfl
theorem test_decode_tdr : decode ⟨0b00100011_0000_0_0_0_0_1111111111111111, []⟩ = .ok (.tdr 65535) := by rfl
theorem test_decode_hir : decode ⟨0b00100100_0000_0_0_0_0_0000000000000001, []⟩ = .ok (.hir 1) := by rfl
theorem test_decode_tir : decode ⟨0b00100101_0000_0_0_0_0_0000000000000000, []⟩ = .ok (.tir 0) := by rfl
theorem test_decode_chainscan : decode ⟨0b00110000_0000_0_0_0_0_0000000000000000, []⟩ = .ok .chainscan := by rfl
theorem test_decode_devir :
    decode ⟨0b00110001_0000_0_0_0_0_0000000000000001, [.buf (buf 6 9)]⟩ = .ok (.devir 1 (buf 6 9)) := by rfl
theorem test_decode_devdrw :
    decode ⟨0b00110010_0000_0_0_0_0_0000000000000010, [.buf (buf 3 5)]⟩ = .ok (.devdrw 2 (buf 3 5)) := by rfl
theorem test_decode_devdrrw :
    decode ⟨0b00110011_0000_0_0_0_0_0000000000000001, [.buf (buf 8 0xA5)]⟩ = .ok (.devdrrw 1 (buf 8 0xA5)) := by rfl

/-! Refused words: E1 to E3, E5, K13, K27, E14, S13. -/

theorem test_decode_unassigned :
    decode ⟨0x00000000, []⟩ = .error .unknownCommand ∧ decode ⟨0xFFFFFFFF, []⟩ = .error .unknownCommand ∧
    decode ⟨0x03000000, [.word 7]⟩ = .error .unknownCommand := ⟨rfl, rfl, rfl⟩
theorem test_decode_reserved :
    decode ⟨0x01000001, [.word 7]⟩ = .error .reservedField ∧ decode ⟨0x11100000, [.word 5]⟩ = .error .reservedField ∧
    decode ⟨0x15000002, []⟩ = .error .reservedField := ⟨rfl, rfl, rfl⟩
theorem test_decode_bad_payload :
    decode ⟨0x14000000, [.buf (buf 32 5)]⟩ = .error .badPayload ∧
    decode ⟨0x21020000, [.buf (buf 8 0), .buf (buf 8 0xFF)]⟩ = .error .badPayload ∧
    decode ⟨0x11000000, [.word 5, .word 6]⟩ = .error .badPayload := ⟨rfl, rfl, rfl⟩

/-- The bytes of `SDR 33 TDI (100000001);` (95_test_vectors.md section 3.2): 5 data bytes, padded to 8. -/
theorem test_bytes_sdr_33 :
    decodeBytes [0x00, 0x00, 0x00, 0x21, 0x21, 0x00, 0x00, 0x00, 0x01, 0x00, 0x00, 0x00, 0x01, 0x00, 0x00, 0x00] =
      some (.ok (.sdr (buf 33 0x100000001) none none none), []) := by rfl

/-! ### Error codes -/

/-- The kind and subcode numbers of 60_exceptions.md R147 and R148, row by row. -/
theorem test_error_codes :
    [ErrorCode.flushNone, .flushMulti, .noDevices].map (fun e => (e.kind, e.sub)) = [(1, 1), (1, 2), (1, 3)] ∧
    [ErrorCode.unknownCommand, .reservedField, .badState, .unsupportedHeader, .noStickyMask, .zeroLength,
      .lengthMismatch, .badValue, .badPayload, .stateUnknown, .noChain, .badDevice].map (fun e => (e.kind, e.sub)) =
      [(2, 1), (2, 2), (2, 3), (2, 4), (2, 5), (2, 6), (2, 7), (2, 8), (2, 9), (2, 10), (2, 11), (2, 12)] ∧
    [ErrorCode.tdoMismatch, .cycleFail].map (fun e => (e.kind, e.sub)) = [(3, 1), (4, 1)] := by decide

/-! ### BitBuffers (B6, B16, B20, B24, B28) -/

theorem test_append_value : (buf 3 0b101).appendValue 4 0x1F = buf 7 0x5F := by decide
theorem test_scan_first_width_is_most_significant : (buf 8 0xB4).scan [3, 5] = .ok [buf 3 0b101, buf 5 0b10100] := by
  rfl
theorem test_scan_id_codes :
    idcodes (buf 96 0x111111112222222243333333) 3 = [0x11111111, 0x22222222, 0x43333333] := by decide
theorem test_fromBytes_masks_top : BitBuffer.fromBytes 4 [0xFF] = buf 4 0xF := by decide
theorem test_slice : ((((buf 3 5).append (buf 4 9)).append (buf 2 2)).dropLsb 2).dropMsb 3 = buf 4 9 := by decide

/-! ### TAP group (T1, T6, T12, T11) -/

theorem test_tapidle :
    let t := after .tapidle (zerosFor 6 fresh)
    tmsLine t = tmsBits 6 0b111110 ∧ tdiLine t = tmsBits 6 0b111111 ∧ t.status = 0x011 := by decide
theorem test_goto_irpause :
    let t := after (.goto .irpause) (zerosFor 5 idle)
    tmsLine t = tmsBits 5 0b11010 ∧ t.tap = some .irpause := by decide
theorem test_goto_failed_cycle :
    let t := after (.goto .irshift) (failingAfter 2 idle)
    tmsLine t = tmsBits 2 0b11 ∧ t.trace.getLast? = some (.xfail false true) ∧ t.status = 0x020 := by decide

/-! ### SVF control (K2, K5, K8, K16, K18, K20, K22, K23, K26, K28, K31) -/

theorem test_state_reset_from_reset :
    let t := after (.state .reset) (zerosFor 5 { fresh with tap := some .reset })
    tmsLine t = tmsBits 5 0b11111 ∧ t.tap = some .reset := by decide
theorem test_state_idle_from_drpause :
    let t := after (.state .idle) (zerosFor 3 { fresh with tap := some .drpause })
    tmsLine t = tmsBits 3 0b110 ∧ t.tap = some .idle := by decide
theorem test_runtest_reset_from_unknown :
    let t := after (.runtest (some .reset) 10) (zerosFor 5 fresh)
    t.trace.getLast? = some (.dwell 10) ∧ tmsLine t = tmsBits 5 0b11111 ∧ t.tap = some .reset := by decide
theorem test_runtest_clocks_hold_reset :
    let t := after (.runtest none 3)
      (zerosFor 3 { fresh with tap := some .reset, params := { vecParams with runtestClocks := true } })
    tmsLine t = tmsBits 3 0b111 ∧ t.trace.length = 3 := by decide
theorem test_endir_drpause_refused :
    let t := after (.endir .drpause) fresh
    t.endir = .idle ∧ t.errlog.map ErrRec.codes = [(0, 2, 3)] := by decide
theorem test_enddr_drpause : (after (.enddr .drpause) fresh).enddr = .drpause := by decide
theorem test_enddr_reset_refused : (after (.enddr .reset) fresh).errlog.map ErrRec.codes = [(0, 2, 3)] := by decide
theorem test_frequency_zero :
    let t := after (.frequency 0) { fresh with freq := 7 }
    t.freq = 7 ∧ t.errlog.map ErrRec.codes = [(0, 2, 8)] := by decide
theorem test_trst_on :
    let t := after (.trst true) idle
    t.trace = [.trst true] ∧ t.status = 0x200 ∧ t.nTrst = some false := by decide
theorem test_trst_off_keeps_tap :
    let t := after (.trst false) { idle with trst := true }
    t.trace = [.trst false] ∧ t.tap = some .idle := by decide
theorem test_strict_on : (after (.strict true) fresh).status = 0x400 := by decide
theorem test_hdr_zero : (after (.hdr 0) fresh).errlog = [] ∧ (after (.hdr 0) fresh).seq = 1 := by decide
theorem test_tdr_refused : (after (.tdr 65535) fresh).errlog.map ErrRec.codes = [(0, 2, 4)] := by decide
theorem test_hir_refused : (after (.hir 1) fresh).errlog.map ErrRec.codes = [(0, 2, 4)] := by decide
theorem test_tir_zero : (after (.tir 0) fresh).errlog = [] := by decide

/-! ### SVF scans (S2, S3, S5, S21) -/

theorem test_sir_to_irpause :
    let t := after (.sir (buf 8 0xFE) none none none) (zerosFor 13 { idle with endir := .irpause })
    tmsLine t = tmsBits 13 0b1100000000010 ∧ tdiLine t = tmsBits 13 0b1111011111111 ∧ t.tap = some .irpause := by
  decide
theorem test_sir_from_irpause :
    let t := after (.sir (buf 8 0xFE) none none none)
      (zerosFor 11 { idle with endir := .irpause, tap := some .irpause })
    tmsLine t = tmsBits 11 0b10000000010 ∧ tdiLine t = tmsBits 11 0b11011111111 := by decide
theorem test_sdr_mismatch :
    let t := after (.sdr (buf 8 0) none (some (buf 8 0xA5)) (some (buf 8 0xFF)))
      (answering idle ([false, false, false] ++ lsbFirst 8 0xA4 ++ [false, false]))
    tmsLine t = tmsBits 13 0b1000000000110 ∧ tdiLine t = tmsBits 13 0b1110000000011 ∧ sampledCount t = 8 ∧
    t.capbuf = buf 8 0xA4 ∧ t.mask = some (buf 8 0xFF) ∧ t.errlog.map ErrRec.codes = [(0, 3, 1)] ∧
    t.aborted = false := by decide
theorem test_sdr_failed_cycle_keeps_mask :
    let t := after (.sdr (buf 8 0) none (some (buf 8 0xA5)) (some (buf 8 0xFF))) (failingAfter 5 idle)
    tmsLine t = tmsBits 5 0b10000 ∧ t.trace.getLast? = some (.xfail false false) ∧ sampledCount t = 2 ∧
    t.capbuf = buf 0 0 ∧ t.mask = some (buf 8 0xFF) ∧ t.aborted = true := by decide

/-! ### Chain (C5, the first CHAINSCAN of C8, D7, D9, P2 command 3) -/

theorem test_chainscan_no_devices :
    let t := after .chainscan (answering fresh (List.replicate 19 false ++ lsbFirst 9 0x010 ++ [false, false]))
    tmsLine t = tmsBits 30 0b111110110000011010000000000110 ∧
    tdiLine t = tmsBits 30 0b111111111111111111100001000011 ∧ sampledCount t = 9 ∧
    t.errlog.map ErrRec.codes = [(0, 1, 3)] ∧ t.status = 0x000 := by decide +kernel
theorem test_chainscan_one_device :
    let t := after .chainscan (answering fresh (List.replicate 24 false ++ [true] ++ List.replicate 17 false ++ [true]
      ++ List.replicate 45 false))
    t.trace.length = 88 ∧ t.ndev = 1 ∧ t.irtotal = 4 ∧ t.dev = [⟨0, false, 0xFFFF, 4, true⟩] ∧
    t.status = 0x051 := by decide +kernel
theorem test_devir_image :
    let t := after (.devir 0 (buf 4 0x2)) (zerosFor 24 chained)
    chained.irImage 0 (buf 4 0x2) = buf 18 0x0BFFF ∧ tmsLine t = tmsBits 24 0b110000000000000000000110 ∧
    tdiLine t = tmsBits 24 0b111111111111111111010011 := by decide +kernel
theorem test_devdrw_image :
    let t := after (.devdrw 2 (buf 3 0x5)) (zerosFor 9 { chained with enddr := .drpause })
    tmsLine t = tmsBits 9 0b100000010 ∧ tdiLine t = tmsBits 9 0b111101111 ∧ t.tap = some .drpause := by decide
theorem test_devdrrw_slice :
    let t := after (.devdrrw 1 (buf 8 0x3C))
      (answering chained ([false, false, false] ++ lsbFirst 10 0x14A ++ [false, false]))
    tdiLine t = tmsBits 15 0b111100111100111 ∧ t.capbuf = buf 10 0x14A ∧ t.rdbuf = buf 8 0xA5 := by decide

/-! ### Policy and the host's view (E5 by a step, E18, the read after E23) -/

theorem test_refused_command_counts :
    (match step { fresh with inputs := [.command ⟨0x01000001, [.word 7]⟩] } with
      | .next t => some (t.errlog.map ErrRec.codes, t.seq, t.aborted)
      | _ => none) = some ([(0, 2, 2)], 1, false) := by decide
theorem test_aborted_ignores :
    (match step { idle with aborted := true, seq := 3, inputs := [.command ⟨0x01000000, []⟩] } with
      | .next t => some (t.seq, t.trace, t.inputs)
      | _ => none) = some (3, [], []) := by decide
theorem test_error_registers :
    let s := { idle with seq := 3, aborted := true, errlog := [⟨1, .badValue⟩, ⟨2, .noStickyMask⟩] }
    s.readReg 0x010 = 2 ∧ s.readReg 0x014 = 0x0205 ∧ s.readReg 0x018 = 2 ∧ s.readReg 0x000 = 0x031 := by decide
theorem test_device_registers :
    chained.readReg 0x110 = 0x22222222 ∧ chained.readReg 0x114 = 6 ∧ chained.readReg 0x118 = 0x2FFFF ∧
    chained.readReg 0x11C = 8 ∧ chained.readReg 0x130 = 0 := by decide

/-! ## Witnesses: for each statement with hypotheses, terms that meet them -/

/-- An IDLE block that has been driven there by TAPIDLE and holds a chain table. -/
def driven : State :=
  { chained with
    trace := [true, true, true, true, true, false].map fun t => .clk t true false none
    seq := 1 }

/-- The good states are not only the reset state. -/
theorem witness_inv_driven : Inv driven := by
  refine ⟨.inl rfl, .inl rfl, by decide, by decide, rfl, ?_, ?_, by decide, by decide, by decide, by decide, ?_, ?_⟩
  · intro _; decide
  · intro d hd
    simp only [driven, chained, p2Devices, List.mem_cons, List.not_mem_nil, or_false] at hd
    rcases hd with rfl | rfl | rfl <;> simp [DevRec.good]
  · intro e he
    simp only [driven, List.map_cons, List.map_nil, List.mem_cons, List.not_mem_nil, or_false] at he
    rcases he with rfl | rfl | rfl | rfl | rfl | rfl <;> rfl
  · intro t ht start
    cases ht
    cases start <;> rfl

/-! ### Encoding and the step -/

/-- An instruction with all four operands. -/
def sdrAll : Instr := .sdr (buf 8 0) (some (buf 8 1)) (some (buf 8 0xA5)) (some (buf 8 0xFE))

theorem witness_EncodedBytesDecodeBack :
    sdrAll.wellFormed = true ∧ (encode sdrAll).carriable = true ∧ (encode .tapidle).carriable = true := by decide

theorem witness_ParseAcceptsExactlyTheEncodings : decode (encode sdrAll) = .ok sdrAll := by rfl

theorem witness_RefusedCommandsRecordTheirError :
    opOf 0x03000000 ∉ assignedOps ∧ opOf 0x00000000 ∉ assignedOps ∧ opOf 0xFF000000 ∉ assignedOps ∧
    reservedBitSet 0x01000001 ∧ reservedBitSet 0x01800000 ∧ reservedBitSet 0x11100000 ∧ reservedBitSet 0x15000002 ∧
    (opOf 0x14000000 ∈ assignedOps ∧ ¬ reservedBitSet 0x14000000 ∧ ¬ payloadFits ⟨0x14000000, []⟩) := by
  refine ⟨by decide, by decide, by decide, by unfold reservedBitSet; decide, by unfold reservedBitSet; decide,
    by unfold reservedBitSet; decide, by unfold reservedBitSet; decide, by decide,
    by unfold reservedBitSet; decide, ?_⟩
  simp [payloadFits, opOf]

theorem witness_IncompleteCommandNeverSubmitted :
    (encode sdrAll).carriable = true ∧ 0 < (encode sdrAll).toBytes.length ∧
    35 < (encode sdrAll).toBytes.length := by decide

theorem witness_StepRunsDecodedCommand :
    (∃ c i, ({ idle with inputs := [.command ⟨0x02D00000, []⟩] } : State).inputs = .command c :: [] ∧
      decode c = .ok i ∧ idle.aborted = false) ∧
    decodeTableWord 32 0x02D00000 = some (.goto .irpause) ∧
    decodeTableWord 64 (0x11000000 + 5 * 2 ^ 32) = some (.runtest none 5) ∧ fresh.inputs = [] :=
  ⟨⟨_, .goto .irpause, rfl, rfl, rfl⟩, by decide, by decide, rfl⟩

theorem witness_AbortedBlockIgnoresCommands :
    (∃ s : State, ∃ c, s.aborted = true ∧ s.inputs = [.command c]) ∧
    (∃ s t : State, s.aborted = true ∧ step s = .next t ∧ t.aborted = true) ∧
    (∃ s t : State, s.aborted = true ∧ step s = .next t ∧ t.aborted = false ∧ s.inputs.head? = some .blockReset) :=
  ⟨⟨{ idle with aborted := true, inputs := [.command ⟨0, []⟩] }, _, rfl, rfl⟩,
   ⟨{ idle with aborted := true, inputs := [.command ⟨0x01000000, []⟩] }, _, rfl, rfl, rfl⟩,
   ⟨{ idle with aborted := true, inputs := [.blockReset] }, _, rfl, rfl, rfl, rfl⟩⟩

theorem witness_BlockResetRestores :
    ({ driven with inputs := [.blockReset, .command ⟨0x01000000, []⟩] } : State).inputs =
      .blockReset :: [.command ⟨0x01000000, []⟩] ∧ driven.params.hasTrst = true := by decide

theorem witness_StepKeepsInvariant :
    ∃ s t : State, Inv s ∧ step s = .next t ∧ t.tap = some .irpause ∧ t.trace.length = 11 := by
  refine ⟨{ driven with inputs := [.command ⟨0x02D00000, []⟩], env := List.replicate 5 (.ok false) }, _, ?_, rfl,
    by decide, by decide⟩
  obtain ⟨a, b, c, d, e, f, g, h, i, j, k, l, m⟩ := witness_inv_driven
  exact ⟨a, b, c, d, e, f, g, h, i, j, k, l, m⟩

theorem witness_TrackedStateFollowsChain :
    ∃ s t : State, tracksChain s ∧ s.tap = some .idle ∧ step s = .next t ∧ t.tap = some .irpause :=
  ⟨{ driven with inputs := [.command ⟨0x02D00000, []⟩], env := List.replicate 5 (.ok false) }, _,
    witness_inv_driven.tracked, rfl, rfl, by decide⟩

/-! ### Rules over all commands -/

theorem witness_CommandAppendsTraceAndOneRecord :
    (∃ t, exec (.goto .irpause) (zerosFor 5 driven) = .next t ∧ t.trace.length = 11) ∧
    (∃ t, exec (.frequency 0) driven = .next t ∧ t.errlog = [⟨1, .badValue⟩]) :=
  ⟨⟨_, rfl, by decide⟩, ⟨_, rfl, by decide⟩⟩

theorem witness_FormatErrorHasNoOtherEffect :
    ∃ t e, exec (.endir .drpause) driven = .next t ∧ t.errlog = driven.errlog ++ [⟨driven.seq, e⟩] ∧
      e.kind = kindFormat := ⟨_, .badState, rfl, by decide, rfl⟩

/-- A transport error, NO_STICKY_MASK, an error in strict mode, and an error in the default mode. -/
theorem witness_AbortPolicy :
    (∃ t, step { failingAfter 0 driven with inputs := [.command ⟨0x02D00000, []⟩] } = .next t ∧ t.aborted = true) ∧
    (∃ t, step { driven with inputs := [.command ⟨0x21040000, [.buf (buf 1 0), .buf (buf 1 0)]⟩] } = .next t ∧
      t.aborted = true) ∧
    (∃ t, step { driven with strict := true, inputs := [.command ⟨0x03000000, []⟩] } = .next t ∧
      t.aborted = true) ∧
    (∃ t, step { driven with inputs := [.command ⟨0x22000001, []⟩] } = .next t ∧ t.aborted = false) :=
  ⟨⟨_, rfl, by decide⟩, ⟨_, rfl, by decide⟩, ⟨_, rfl, by decide⟩, ⟨_, rfl, by decide⟩⟩

theorem witness_ErrorsPerCommand :
    (∃ t e, exec (.runtest none 5) fresh = .next t ∧ t.errlog = fresh.errlog ++ [⟨fresh.seq, e⟩] ∧
      fresh.params.runtestClocks = false) ∧
    decode ⟨0x03000000, []⟩ = .error .unknownCommand ∧ decode ⟨0x14000000, []⟩ = .error .badPayload :=
  ⟨⟨_, .stateUnknown, rfl, by decide, rfl⟩, rfl, rfl⟩

theorem witness_FailedCycleEndsCommand :
    (∃ t, exec (.goto .irshift) (failingAfter 2 driven) = .next t ∧
      .xfail false true ∈ newEvents (failingAfter 2 driven) t) ∧
    (∃ t, exec .chainscan (failingAfter 0 driven) = .next t ∧
      .xfail true true ∈ newEvents (failingAfter 0 driven) t) :=
  ⟨⟨_, rfl, by decide⟩, ⟨_, rfl, by decide⟩⟩

theorem witness_ChainTableImmutable :
    ∃ t, exec .tapidle (zerosFor 6 driven) = .next t ∧ Instr.tapidle ≠ .chainscan := ⟨_, rfl, by decide⟩

theorem witness_RegistersWrittenOnlyByTheirCommands :
    (∃ t, exec (.endir .irpause) driven = .next t ∧ t.endir ≠ driven.endir) ∧
    (∃ t, exec (.sdr (buf 1 0) none (some (buf 1 0)) (some (buf 1 1))) (zerosFor 6 driven) = .next t ∧
      t.mask ≠ driven.mask ∧ t.capbuf ≠ driven.capbuf) :=
  ⟨⟨_, rfl, by decide⟩, ⟨_, rfl, by decide⟩⟩

theorem witness_FrequencyIsTimingOnly :
    ((∀ hz, Instr.tapidle ≠ .frequency hz) ∧ ∃ t, exec .tapidle (zerosFor 6 driven) = .next t) ∧
    ({ driven with freq := 1 } : State).freq ≠ 0 ∧ driven.freq = 0 :=
  ⟨⟨fun _ h => (by cases h), _, rfl⟩, by decide, rfl⟩

/-! ### TAP -/

theorem witness_TransitionBitsAreUniqueShortestPaths :
    walk .idle [true, true, false, false] = .irshift ∧
    [true, true, false, false].length = (rom .idle .irshift).length := by decide

/-- Six zeros answer TAPIDLE; a failure at once, or at the last cycle, ends it. -/
theorem witness_TapidleResetsToIdle :
    answers (tmsReqs true [true, true, true, true, true, false]) (zerosFor 6 fresh) =
      some (List.replicate 6 false) ∧
    failsAt (tmsReqs true [true, true, true, true, true, false]) (failingAfter 0 fresh) [] [] ⟨true, true, false⟩ ∧
    failsAt (tmsReqs true [true, true, true, true, true, false]) (failingAfter 5 fresh)
      (List.replicate 5 ⟨true, true, false⟩) (List.replicate 5 false) ⟨false, true, false⟩ :=
  ⟨by decide, ⟨⟨_, rfl⟩, by decide, by decide⟩, ⟨⟨[], by decide⟩, by decide, by decide⟩⟩

theorem witness_GotoMovesAlongRom :
    (fresh.tap = none ∧ TapState.idle ≠ .reset) ∧
    answers (tmsReqs true (movePath none .reset)) (zerosFor 5 fresh) = some (List.replicate 5 false) ∧
    answers (tmsReqs true (movePath (some .idle) .irpause)) (zerosFor 5 idle) = some (List.replicate 5 false) ∧
    answers (tmsReqs true (movePath (some .idle) .idle)) idle = some [] ∧
    failsAt (tmsReqs true (movePath (some .idle) .irpause)) (failingAfter 0 idle) [] [] ⟨true, true, false⟩ :=
  ⟨⟨rfl, by decide⟩, by decide, by decide, rfl, ⟨⟨_, rfl⟩, rfl, by decide⟩⟩

theorem witness_StateMovesTap :
    (TapState.idle ≠ .reset ∧ fresh.tap = none) ∧
    answers (tmsReqs true [true, true, true, true, true]) (zerosFor 5 fresh) = some (List.replicate 5 false) ∧
    (idle.tap ≠ none ∧ answers (tmsReqs true (movePath (some .idle) .drpause)) (zerosFor 4 idle) =
      some (List.replicate 4 false)) ∧
    failsAt (tmsReqs true [true, true, true, true, true]) (failingAfter 0 fresh) [] [] ⟨true, true, false⟩ :=
  ⟨⟨by decide, rfl⟩, by decide, ⟨by decide, by decide⟩, ⟨⟨_, rfl⟩, rfl, by decide⟩⟩

/-! ### SVF control -/

theorem witness_RuntestRefusals :
    TapState.drshift ∉ [TapState.reset, .idle, .drpause, .irpause] ∧
    (TapState.irpause ∈ [TapState.reset, .idle, .drpause, .irpause] ∧ TapState.irpause ≠ .reset ∧ fresh.tap = none) ∧
    ({ fresh with tap := some .drshift } : State).tap = some .drshift := by decide

theorem witness_RuntestMovesAndWaits :
    TapState.irpause ∈ [TapState.reset, .idle, .drpause, .irpause] ∧ (fresh.tap = none → TapState.reset = .reset) ∧
    idle.tap = some .idle ∧
    answers (tmsReqs true (movePath none .reset)) (zerosFor 5 fresh) = some (List.replicate 5 false) ∧
    failsAt (tmsReqs true (movePath (some .idle) .irpause)) (failingAfter 0 idle) [] [] ⟨true, true, false⟩ :=
  ⟨by decide, fun _ => rfl, rfl, by decide, ⟨⟨_, rfl⟩, rfl, by decide⟩⟩

theorem witness_EndStatesSetOrRefused :
    (TapState.irpause = .idle ∨ TapState.irpause = .irpause) ∧
    (TapState.drpause ≠ .idle ∧ TapState.drpause ≠ .irpause) ∧
    (TapState.drpause = .idle ∨ TapState.drpause = .drpause) ∧
    (TapState.irpause ≠ .idle ∧ TapState.irpause ≠ .drpause) := by decide

theorem witness_FrequencyAndStrictSet : (1 : Word) ≠ 0 ∧ (0xFFFFFFFF : Word) ≠ 0 ∧ (0 : Word) = 0 := by decide

theorem witness_PaddingLengthsOnlyZero :
    (∀ n, Instr.tdr n ∈ [Instr.hdr n, .tdr n, .hir n, .tir n]) ∧ (1 : BitVec 16) ≠ 0 ∧ (65535 : BitVec 16) ≠ 0 :=
  ⟨fun n => by simp, by decide, by decide⟩

/-! ### SVF scans -/

theorem witness_ScanRefusals :
    (some (buf 8 0) ≠ none ∧ (none : Option BitBuffer) = none) ∧ (buf 0 0).len = 0 ∧
    ((buf 8 0).len ≠ 0 ∧ ∃ x, ((none : Option BitBuffer) = some x ∨ some (buf 4 5) = some x ∨ none = some x) ∧
      x.len ≠ (buf 8 0).len) ∧
    fresh.tap = none ∧
    (scanReady (buf 8 0) none (some (buf 8 0)) none idle ∧ usedMask none (buf 8 0).len idle = none) := by
  refine ⟨⟨by decide, rfl⟩, rfl, ⟨by decide, buf 4 5, by simp, by decide⟩, rfl, ⟨by simp, by decide, ?_, by decide⟩,
    rfl⟩
  rintro x (h | h | h) <;> cases h
  rfl

theorem witness_WriteOnlyScan :
    scanReady (buf 1 1) (some (buf 1 0)) none none idle ∧
    answers (shiftReqs true .idle .ir (buf 1 1) false .idle) (zerosFor 7 idle) = some (List.replicate 7 false) ∧
    answers (shiftReqs true .idle .dr (buf 1 1) false .idle) (zerosFor 6 idle) = some (List.replicate 6 false) ∧
    failsAt (shiftReqs true .idle .ir (buf 1 1) false .idle) (failingAfter 0 idle) [] [] ⟨true, true, false⟩ ∧
    failsAt (shiftReqs true .idle .dr (buf 1 1) false .idle) (failingAfter 0 idle) [] [] ⟨true, true, false⟩ := by
  refine ⟨⟨by simp, by decide, ?_, by decide⟩, by decide, by decide, ⟨⟨_, rfl⟩, rfl, by decide⟩,
    ⟨⟨_, rfl⟩, rfl, by decide⟩⟩
  rintro x (h | h | h) <;> cases h; rfl

theorem witness_CapturingScan :
    scanReady (buf 1 1) none (some (buf 1 1)) (some (buf 1 1)) idle ∧
    usedMask (some (buf 1 1)) 1 idle = some (buf 1 1) ∧
    usedMask none 1 { idle with mask := some (buf 4 0xF) } = some (buf 4 0xF) ∧
    usedMask none 1 { idle with params := { vecParams with noMaskPolicy := .allOnes } } = some (buf 1 1) ∧
    answers (shiftReqs true .idle .ir (buf 1 1) true .idle) (zerosFor 7 idle) = some (List.replicate 7 false) ∧
    answers (shiftReqs true .idle .dr (buf 1 1) true .idle) (zerosFor 6 idle) = some (List.replicate 6 false) := by
  refine ⟨⟨by simp, by decide, ?_, by decide⟩, rfl, rfl, rfl, by decide, by decide⟩
  rintro x (h | h | h) <;> cases h <;> rfl

theorem witness_FailedCapturingScan :
    scanReady (buf 1 1) none (some (buf 1 1)) (some (buf 1 1)) idle ∧
    usedMask (some (buf 1 1)) 1 idle = some (buf 1 1) ∧
    failsAt (shiftReqs true .idle .dr (buf 1 1) true .idle) (failingAfter 0 idle) [] [] ⟨true, true, false⟩ ∧
    failsAt (shiftReqs true .idle .ir (buf 1 1) true .idle) (failingAfter 0 idle) [] [] ⟨true, true, false⟩ :=
  ⟨witness_CapturingScan.1, rfl, ⟨⟨_, rfl⟩, rfl, by decide⟩, ⟨⟨_, rfl⟩, rfl, by decide⟩⟩

theorem witness_FiveOnesReset : ∀ s, walk s (List.replicate 5 true) = .reset := by intro s; cases s <;> rfl

theorem witness_SmaskIgnored :
    (buf 6 0x3F).len = (buf 6 0x2A).len ∧
    ((buf 4 0xF).len ≠ (buf 6 0x2A).len ∧ (buf 6 0x2A).len ≠ 0 ∧
      ((none : Option BitBuffer) ≠ none → (none : Option BitBuffer) ≠ none)) := by decide

theorem witness_ScanCyclesReachEndState : (buf 1 0).len ≠ 0 := by decide

/-! ### Chain discovery -/

theorem witness_ProbeMeasuresPath :
    0 < 4 ∧ ([] : List Bool).length ≤ 4 ∧ (List.replicate 4 true).length ≤ 4 := by decide

theorem witness_IdentifyTakesFirstMatch :
    (vecParams.deviceTable[1]? = some ⟨0x33333333, 0x0FFFFFFF, "C", 8⟩ ∧
      (0x43333333 : Word) &&& 0x0FFFFFFF = 0x33333333 &&& 0x0FFFFFFF ∧
      (0x43333333 : Word) &&& 0xFFFFFFFF ≠ 0x11111111 &&& 0xFFFFFFFF) ∧
    (∀ e ∈ vecParams.deviceTable, (0x22222222 : Word) &&& e.mask ≠ e.idcode &&& e.mask) := by decide

theorem witness_InferenceAssignsShortfall :
    ((⟨0x22222222, false, 0xFFFF, 0, false⟩ : DevRec).known = false ∧
      (∀ d ∈ [(⟨0x11111111, true, 0, 4, false⟩ : DevRec)] ++ [⟨0x43333333, true, 1, 8, false⟩], d.known = true) ∧
      irlenSum ([(⟨0x11111111, true, 0, 4, false⟩ : DevRec)] ++ [⟨0x43333333, true, 1, 8, false⟩]) < 13) ∧
    unknownCount [(⟨1, false, 0xFFFF, 0, false⟩ : DevRec), ⟨2, false, 0xFFFF, 0, false⟩] ≠ 1 ∧
    12 ≤ knownIrlen [(⟨0x11111111, true, 0, 4, false⟩ : DevRec), ⟨0x43333333, true, 1, 8, false⟩] := by decide

/-- The samples of the first CHAINSCAN of vector C8: one device, an IR of 4 bits. -/
theorem witness_ChainscanBuildsTable :
    probeLength ((BitBuffer.ofBits (lsbFirst 9 0x020)).dropLsb 4) = .ok 1 ∧
    probeLength ((BitBuffer.ofBits (lsbFirst 9 0x100)).dropLsb 4) = .ok 4 ∧
    answers (chainscanReqs true 4 1) (answering idle (List.replicate 19 false ++ lsbFirst 9 0x020
      ++ List.replicate 6 false ++ lsbFirst 9 0x100 ++ List.replicate 11 false ++ lsbFirst 32 0
      ++ List.replicate 2 false)) =
      some (List.replicate 19 false ++ lsbFirst 9 0x020 ++ List.replicate 6 false ++ lsbFirst 9 0x100
        ++ List.replicate 11 false ++ lsbFirst 32 0 ++ List.replicate 2 false) :=
  ⟨by rfl, by rfl, by decide +kernel⟩

/-- A chain of one device with ID code 0x11111111, one bypass cell and 4 IR cells, the most F = 4 allows. -/
theorem witness_ChainscanMeasuresChain :
    [(0x11111111 : Word)].length ≤ 4 ∧ [true, false, false, false].length ≤ 4 ∧
    answers (chainscanReqs true 4 1) (answering idle (List.replicate 19 false
      ++ pathSamples [false] (flushPattern 4) ++ List.replicate 6 false
      ++ pathSamples [true, false, false, false] (flushPattern 4) ++ List.replicate 11 false
      ++ ([(0x11111111 : Word)].reverse.flatMap fun w => (List.range 32).map fun i => w.getLsbD i)
      ++ List.replicate 2 false)) =
      some (List.replicate 19 false
      ++ pathSamples [false] (flushPattern 4) ++ List.replicate 6 false
      ++ pathSamples [true, false, false, false] (flushPattern 4) ++ List.replicate 11 false
      ++ ([(0x11111111 : Word)].reverse.flatMap fun w => (List.range 32).map fun i => w.getLsbD i)
      ++ List.replicate 2 false) :=
  ⟨by decide, by decide, by decide +kernel⟩

theorem witness_FailedChainscanLeavesNoTable :
    (∃ t, exec .chainscan (zerosFor 30 driven) = .next t ∧ t.errlog ≠ driven.errlog ∧ driven.chainv = true) ∧
    (∃ t, exec .chainscan (answering driven (List.replicate 19 false ++ lsbFirst 9 0x020
      ++ List.replicate 6 false ++ lsbFirst 9 0x100 ++ List.replicate 45 false)) = .next t ∧
      t.errlog = driven.errlog) :=
  ⟨⟨_, rfl, by decide +kernel, rfl⟩, ⟨_, rfl, by decide +kernel⟩⟩

/-- The cycles of the reset, the bypass load and the DR probe for F = 4. -/
def drProbeReqs : List CycleReq :=
  tmsReqs true [true, true, true, true, true, false]
    ++ shiftReqs true .idle .ir (BitBuffer.ones 4) false .idle
    ++ shiftReqs true .idle .dr (flushPattern 4) true .idle

/-- Those of the IR probe as well. -/
def irProbeReqs : List CycleReq := drProbeReqs ++ shiftReqs true .idle .ir (flushPattern 4) true .idle

/-- The answers of the DR probe of one device, then IR probe samples that read `v`. -/
def irProbeAnswers (v : Nat) : List Bool :=
  List.replicate 19 false ++ lsbFirst 9 0x020 ++ List.replicate 6 false ++ lsbFirst 9 v ++ [false, false]

/-- A remainder of two markers. -/
theorem twoMarkers : ((BitBuffer.ofBits (lsbFirst 9 0x0A0)).dropLsb 4).val ≠ 0 ∧
    ∀ n, ((BitBuffer.ofBits (lsbFirst 9 0x0A0)).dropLsb 4).val ≠ 2 ^ n := by
  have h10 : ((BitBuffer.ofBits (lsbFirst 9 0x0A0)).dropLsb 4).val = 10 := by rfl
  rw [h10]
  refine ⟨by decide, fun n h => ?_⟩
  rcases (by omega : n = 0 ∨ n = 1 ∨ n = 2 ∨ n = 3 ∨ 4 ≤ n) with rfl | rfl | rfl | rfl | hn
  all_goals try omega
  have := Nat.pow_le_pow_right (n := 2) (by decide) hn
  omega

/-- The remainders of vectors C7, C6 and C5; and an IR probe of the one device of vector C8 that reads no
marker, or two. -/
theorem witness_ChainscanProtocolErrors :
    ((BitBuffer.ofBits (lsbFirst 9 0)).dropLsb 4).val = 0 ∧
    (((BitBuffer.ofBits (lsbFirst 9 0x0A0)).dropLsb 4).val ≠ 0 ∧
      ∀ n, ((BitBuffer.ofBits (lsbFirst 9 0x0A0)).dropLsb 4).val ≠ 2 ^ n) ∧
    ((BitBuffer.ofBits (lsbFirst 9 0x010)).dropLsb 4).val = 1 ∧
    (∀ v ∈ [0, 0x0A0, 0x010],
      answers drProbeReqs (answering idle (List.replicate 19 false ++ lsbFirst 9 v ++ [false, false])) =
        some (List.replicate 19 false ++ lsbFirst 9 v ++ [false, false])) ∧
    ((BitBuffer.ofBits (lsbFirst 9 0x020)).dropLsb 4).val = 2 ^ 1 ∧
    (∀ v ∈ [0, 0x0A0],
      answers irProbeReqs (answering idle (irProbeAnswers v)) = some (irProbeAnswers v)) :=
  ⟨by rfl, twoMarkers, by rfl, by decide +kernel, by rfl, by decide +kernel⟩

/-- The first cycle fails; the first cycle of the IR probe fails, one device counted; the first cycle of the
second reset fails, one device counted and 4 IR bits measured. -/
theorem witness_ChainscanFailedCycle :
    failsAt (chainscanReqs true 4 1) (failingAfter 0 idle) [] [] ⟨true, true, false⟩ ∧
    (failsAt (chainscanReqs true 4 1)
        { idle with env := ((irProbeAnswers 0).take 30).map .ok ++ [.fail] } drProbeReqs
        ((irProbeAnswers 0).take 30) ⟨true, true, false⟩ ∧ drProbeReqs.length = 3 * 4 + 18 ∧
      ((BitBuffer.ofBits ((((irProbeAnswers 0).take 30).drop (4 + 15)).take (2 * 4 + 1))).dropLsb 4).val = 2 ^ 1) ∧
    (failsAt (chainscanReqs true 4 1)
        { idle with env := (irProbeAnswers 0x100).map .ok ++ [.fail] } irProbeReqs (irProbeAnswers 0x100)
        ⟨true, true, false⟩ ∧ irProbeReqs.length = 5 * 4 + 25 ∧
      ((BitBuffer.ofBits (((irProbeAnswers 0x100).drop (4 + 15)).take (2 * 4 + 1))).dropLsb 4).val = 2 ^ 1 ∧
      ((BitBuffer.ofBits (((irProbeAnswers 0x100).drop (3 * 4 + 22)).take (2 * 4 + 1))).dropLsb 4).val = 2 ^ 4) :=
  ⟨⟨⟨_, rfl⟩, rfl, by decide⟩,
    ⟨⟨⟨_, rfl⟩, by decide +kernel, by decide +kernel⟩, by decide, by rfl⟩,
    ⟨⟨⟨_, rfl⟩, by decide +kernel, by decide +kernel⟩, by decide, by rfl, by rfl⟩⟩

/-- The chain of vector C8: one device, an IR of 4 bits. -/
theorem witness_ChainscanCycleCount :
    ∃ t, exec .chainscan (answering driven (irProbeAnswers 0x100 ++ List.replicate 43 false)) = .next t ∧
      t.errlog = driven.errlog :=
  ⟨_, rfl, by decide +kernel⟩

/-! ### Per-device commands -/

theorem ready_chained (k : Nat) (hk : k < 3) (bits : BitBuffer) (hb : bits.len ≠ 0) :
    deviceReady k bits chained := ⟨hb, by decide, rfl, hk⟩

theorem witness_DeviceRefusals :
    (buf 0 0).len = 0 ∧ fresh.tap = none ∧ (idle.tap ≠ none ∧ idle.chainv = false) ∧
    (chained.tap ≠ none ∧ chained.chainv = true ∧ chained.ndev ≤ (3 : BitVec 16).toNat) ∧
    (deviceReady (1 : BitVec 16).toNat (buf 5 9) chained ∧ chained.irlen (1 : BitVec 16).toNat ≠ 0 ∧
      (buf 5 9).len ≠ chained.irlen (1 : BitVec 16).toNat) ∧
    (deviceReady (0 : BitVec 16).toNat (buf 5 9) { chained with dev := [⟨1, false, 0xFFFF, 0, false⟩] } ∧
      ({ chained with dev := [⟨1, false, 0xFFFF, 0, false⟩] } : State).irlen (0 : BitVec 16).toNat = 0) :=
  ⟨rfl, rfl, by decide, by decide, ⟨ready_chained _ (by decide) _ (by decide), by decide, by decide⟩,
    ⟨⟨by decide, by decide, rfl, by decide⟩, by decide⟩⟩

theorem witness_IrImageHasChainLength :
    Inv driven ∧ driven.chainv = true ∧ driven.irmismatch = false ∧ 0 < driven.ndev ∧ 2 < driven.ndev ∧
    (buf 4 2).len = driven.irlen 0 ∧ (buf 8 0xFF).len = driven.irlen 2 ∧ 0 < (buf 8 0xFF).len :=
  ⟨witness_inv_driven, rfl, rfl, by decide, by decide, by decide, by decide, by decide⟩

theorem witness_DevirWritesInstruction :
    deviceReady (1 : BitVec 16).toNat (buf 6 9) chained ∧ (buf 6 9).len = chained.irlen (1 : BitVec 16).toNat ∧
    answers (shiftReqs true .idle .ir (chained.irImage 1 (buf 6 9)) false .idle) (zerosFor 24 chained) =
      some (List.replicate 24 false) ∧
    failsAt (shiftReqs true .idle .ir (chained.irImage 1 (buf 6 9)) false .idle) (failingAfter 0 chained) [] []
      ⟨true, true, false⟩ :=
  ⟨ready_chained _ (by decide) _ (by decide), by decide, by decide +kernel, ⟨⟨_, rfl⟩, rfl, by decide⟩⟩

theorem witness_DevdrwWritesData :
    deviceReady (2 : BitVec 16).toNat (buf 1 1) chained ∧
    answers (shiftReqs true .idle .dr (chained.drImage 2 (buf 1 1)) false .idle) (zerosFor 8 chained) =
      some (List.replicate 8 false) ∧
    failsAt (shiftReqs true .idle .dr (chained.drImage 2 (buf 1 1)) false .idle) (failingAfter 0 chained) [] []
      ⟨true, true, false⟩ :=
  ⟨ready_chained _ (by decide) _ (by decide), by decide, ⟨⟨_, rfl⟩, rfl, by decide⟩⟩

/-- Device 0 of 3: two samples of the devices behind it, then its own, none before it. -/
theorem witness_DevdrrwReadsDeviceSlice :
    deviceReady (0 : BitVec 16).toNat (buf 2 1) chained ∧
    ([false, false, false].length = (rom .idle .drshift).length ∧
      [true, false].length = chained.ndev - 1 - (0 : BitVec 16).toNat ∧ [true, true].length = (buf 2 1).len ∧
      ([] : List Bool).length = (0 : BitVec 16).toNat) ∧
    answers (shiftReqs true .idle .dr (chained.drImage 0 (buf 2 1)) true .idle)
      (answering chained ([false, false, false] ++ [true, false] ++ [true, true] ++ [] ++ [false, false])) =
      some ([false, false, false] ++ [true, false] ++ [true, true] ++ [] ++ [false, false]) ∧
    failsAt (shiftReqs true .idle .dr (chained.drImage 0 (buf 2 1)) true .idle) (failingAfter 0 chained) [] []
      ⟨true, true, false⟩ :=
  ⟨ready_chained _ (by decide) _ (by decide), by decide, by decide, ⟨⟨_, rfl⟩, rfl, by decide⟩⟩

/-! ### BitBuffers and the host view -/

theorem witness_BitBufferLaws : (buf 4 0xB).len < 9 ∧ (buf 0 0).len < 1 := by decide

theorem witness_MisuseFaults :
    (buf 0 0).len = 0 ∧ (buf 3 0b110).bits = false :: [true, true] ∧ [4, 5].sum ≠ (buf 8 0xB4).len ∧
    [3, 5].sum = (buf 8 0xB4).len ∧ ([] : List Nat).sum = (buf 0 0).len := by decide

theorem witness_StatusWordFields : idle.tap = some .idle ∧ fresh.tap = none := by decide

theorem witness_RegisterMap :
    fresh.errlog = [] ∧
    ({ fresh with errlog := [⟨0, .badState⟩, ⟨1, .badValue⟩] } : State).errlog =
      [⟨0, .badState⟩] ++ [⟨1, .badValue⟩] ∧
    chained.ndev < 2 ^ 32 ∧ chained.irtotal < 2 ^ 32 ∧
    (2 < chained.ndev ∧ chained.dev[2]? = some ⟨0x43333333, true, 1, 8, false⟩ ∧ chained.irAfter 2 < 2 ^ 32) ∧
    (chained.ndev ≤ 3 ∧ 15 < 16) ∧ 0x001 % 4 ≠ 0 ∧ (0x024 ≤ 0x024 ∧ 0x0FC < 0x100) := by decide

end Sys2Proof.Tests
end

section
/-! The state family: the values after reset, the views of the register map, the offsets of the device table, and
what the commands leave alone. -/

namespace Sys2Proof.Machine

/-! ### Reset -/

/-- Settles O8: each clause is a field of the reset state, or a view of one. -/
theorem resetValues : Obligations.ResetValues :=
  ⟨rfl, rfl, rfl, rfl, rfl, rfl, rfl, rfl, rfl, rfl, rfl, rfl, rfl, rfl, rfl, rfl, rfl, rfl, rfl, rfl, rfl, rfl⟩

/-! ### The chain table -/

/-- Settles O19: in each way a command ends, its course wrote the chain table only if it is CHAINSCAN. -/
theorem chainTableImmutable : Obligations.ChainTableImmutable := by
  intro i s t h hi
  rcases exec_cases h with ⟨u, hu, rfl⟩ | ⟨u, hu, -, rfl⟩ | ⟨e, -, -, rfl⟩ | ⟨u, r, hf, -, -, rfl⟩ |
    ⟨u, e, -, -, hc, -⟩
  · exact hu.wrote.chain hi
  · exact hu.wrote.chain hi
  · exact (Wrote.refl i s).chain hi
  · exact ((start_wrote i s).follows hf).chain hi
  · exact absurd hc hi

/-! ### FREQ -/

/-- The end of a command does not read FREQ. -/
theorem complete_withFreq (f : Word) {r : Res (Option ErrorCode)} {t : State} (h : complete r = .next t) :
    complete (r.withFreq f) = .next (t.withFreq f) := by
  obtain rfl : finish r = t := by simpa [complete] using h
  cases r with
  | done o u => cases o <;> rfl
  | raised e u => rfl

theorem paddingBody_withFreq (f : Word) (n : BitVec 16) (s : State) :
    paddingBody n (s.withFreq f) = (paddingBody n s).withFreq f := by
  unfold paddingBody
  split <;> rfl

/-- A data shift that something follows. -/
theorem shiftData_bind_withFreq {β : Type} (f : Word) (reg : ScanReg) (d : BitBuffer) (capture : Bool)
    (fin : TapState) (s : State) {g : BitBuffer → State → Res β}
    (hg : ∀ c u, g c (u.withFreq f) = (g c u).withFreq f) :
    (shiftData reg d capture fin (s.withFreq f)).bind g = ((shiftData reg d capture fin s).bind g).withFreq f := by
  rw [shiftData_withFreq, Res.withFreq_bind _ _ _ hg]

theorem devirBody_withFreq (f : Word) (k : Nat) (bits : BitBuffer) (s : State) :
    devirBody k bits (s.withFreq f) = (devirBody k bits s).withFreq f := by
  unfold devirBody
  rw [show checkDevIr k bits (s.withFreq f) = checkDevIr k bits s from rfl]
  cases checkDevIr k bits s with
  | some e => rfl
  | none => exact shiftData_bind_withFreq _ _ _ _ _ _ fun _ _ => rfl

theorem devdrwBody_withFreq (f : Word) (k : Nat) (bits : BitBuffer) (s : State) :
    devdrwBody k bits (s.withFreq f) = (devdrwBody k bits s).withFreq f := by
  unfold devdrwBody
  rw [show checkDevDr k bits (s.withFreq f) = checkDevDr k bits s from rfl]
  cases checkDevDr k bits s with
  | some e => rfl
  | none => exact shiftData_bind_withFreq _ _ _ _ _ _ fun _ _ => rfl

theorem devdrrwBody_withFreq (f : Word) (k : Nat) (bits : BitBuffer) (s : State) :
    devdrrwBody k bits (s.withFreq f) = (devdrrwBody k bits s).withFreq f := by
  unfold devdrrwBody
  rw [show checkDevDr k bits (s.withFreq f) = checkDevDr k bits s from rfl]
  cases checkDevDr k bits s with
  | some e => rfl
  | none => exact shiftData_bind_withFreq _ _ _ _ _ _ fun _ _ => rfl

/-- No command but FREQUENCY reads FREQ (10_state.md R21). -/
theorem body_withFreq (f : Word) {i : Instr} (hi : ∀ hz, i ≠ .frequency hz) (s : State) :
    body i (s.withFreq f) = (body i s).withFreq f := by
  cases i with
  | tapidle => simp only [body, hardReset_withFreq, Res.withFreq_quiet]
  | goto st => simp only [body, moveTo_withFreq, Res.withFreq_quiet]
  | state st => simp only [body, stateBody_withFreq, Res.withFreq_quiet]
  | runtest st n => simp only [body, runtestBody_withFreq, Res.withFreq_quiet]
  | endir st => dsimp only [body]; split <;> rfl
  | enddr st => dsimp only [body]; split <;> rfl
  | frequency hz => exact absurd rfl (hi hz)
  | trst on => rfl
  | strict on => rfl
  | sir tdi smask tdo mask => exact scanBody_withFreq f .ir tdi smask tdo mask s
  | sdr tdi smask tdo mask => exact scanBody_withFreq f .dr tdi smask tdo mask s
  | hdr n | tdr n | hir n | tir n => exact paddingBody_withFreq f n s
  | chainscan => simp only [body, chainscanBody_withFreq, Res.withFreq_quiet]
  | devir k bits => simp only [body, devirBody_withFreq, Res.withFreq_quiet]
  | devdrw k bits => simp only [body, devdrwBody_withFreq, Res.withFreq_quiet]
  | devdrrw k bits => simp only [body, devdrrwBody_withFreq, Res.withFreq_quiet]

/-- Settles O21: the courses from the two states are equal but for FREQ; the duration is its definition. -/
theorem frequencyIsTimingOnly : Obligations.FrequencyIsTimingOnly := by
  refine ⟨fun i s t f hi h => ?_, fun s n => ⟨fun hf => if_neg hf, fun hf => if_pos hf⟩⟩
  rw [exec_eq_complete] at h ⊢
  show complete (body i (s.withFreq f)) = .next (t.withFreq f)
  rw [body_withFreq f hi]
  exact complete_withFreq f h

end Sys2Proof.Machine

namespace Sys2Proof

/-! ### Buffers on the wire -/

/-- Appending puts the new bits first on the wire (40_bitbuffer.md R79). -/
theorem BitBuffer.append_bits (b a : BitBuffer) : (b.append a).bits = a.bits ++ b.bits := by
  have hlow : ∀ i ∈ List.range a.len, (b.append a).bit i = a.bit i := fun i hi => by
    rw [append_bit, if_pos (List.mem_range.1 hi)]
  have hhigh : ∀ i, (b.append a).bit (a.len + i) = b.bit i := fun i => by
    rw [append_bit, if_neg (by omega), Nat.add_sub_cancel_left]
  rw [bits, append_len, Nat.add_comm, List.range_add, List.map_append, List.map_map, List.map_congr_left hlow]
  exact congrArg _ (List.map_congr_left fun i _ => hhigh i)

theorem BitBuffer.ones_bits (n : Nat) : (BitBuffer.ones n).bits = List.replicate n true := by
  refine List.eq_replicate_iff.2 ⟨by simp, fun x hx => ?_⟩
  obtain ⟨i, hi, rfl⟩ := List.mem_map.1 hx
  simpa [ones_bit] using hi

end Sys2Proof

namespace Sys2Proof.Machine

/-! ### Offsets and images -/

/-- The IRLEN of the record at index `j` of a list, 0 where there is none. -/
def irlenAt (ds : List DevRec) (j : Nat) : Nat := ((ds[j]?).map DevRec.irlen).getD 0

/-- The IRLEN sum of `m` records from index `a` on, as a sum over indices. -/
theorem irlenSum_take_drop (ds : List DevRec) (a m : Nat) :
    irlenSum ((ds.drop a).take m) = ((List.range' a m).map (irlenAt ds)).sum := by
  induction m generalizing a with
  | zero => simp [irlenSum]
  | succ m ih =>
    have hstep : irlenSum ((ds.drop a).take (m + 1)) = irlenAt ds a + irlenSum ((ds.drop (a + 1)).take m) := by
      by_cases h : a < ds.length
      · rw [List.drop_eq_getElem_cons h, List.take_succ_cons]; simp [irlenSum, irlenAt, h]
      · have h1 : ds.length ≤ a + 1 := by omega
        simp [irlenSum, irlenAt, List.drop_eq_nil_of_le, Nat.le_of_not_lt h, h1]
    rw [hstep, ih, List.range'_succ, List.map_cons, List.sum_cons]

theorem irBefore_eq_sum (s : State) (k : Nat) :
    s.irBefore k = (((List.range s.ndev).filter fun j => decide (j < k)).map (irlenAt s.dev)).sum := by
  rw [← List.Ico.zero_bot, List.Ico.filter_lt, State.irBefore, List.take_take, Nat.min_comm]
  exact irlenSum_take_drop s.dev 0 _

theorem irAfter_eq_sum (s : State) (k : Nat) :
    s.irAfter k = (((List.range s.ndev).filter fun j => decide (k < j)).map (irlenAt s.dev)).sum := by
  rw [← List.Ico.zero_bot]
  show _ = (((List.Ico 0 s.ndev).filter fun j => k + 1 ≤ j).map (irlenAt s.dev)).sum
  rw [List.Ico.filter_le, Nat.zero_max, State.irAfter, List.drop_take]
  exact irlenSum_take_drop s.dev (k + 1) _

/-- An image on the wire: `after` ones, the device's bits, `before` ones (42_chain.md R118). -/
theorem image_bits (before after : Nat) (bits : BitBuffer) :
    (((BitBuffer.ones before).append bits).appendOnes after).bits =
      List.replicate after true ++ bits.bits ++ List.replicate before true := by
  rw [BitBuffer.appendOnes, BitBuffer.append_bits, BitBuffer.append_bits, BitBuffer.ones_bits, BitBuffer.ones_bits,
    List.append_assoc]

/-- Settles O50: the sums are runs of the record list read by index, the images an append on the wire. -/
theorem imagesPadOthersWithOnes : Obligations.ImagesPadOthersWithOnes := fun k bits s =>
  ⟨irBefore_eq_sum s k, irAfter_eq_sum s k, rfl, rfl, rfl, image_bits _ _ bits, image_bits _ _ bits⟩

/-! ### The STATUS word -/

theorem tapCode_lt (s : State) : s.tapCode < 2 ^ 4 := by
  cases h : s.tap with
  | none => simp [State.tapCode, h]
  | some t => simpa [State.tapCode, h] using t.codeNat_lt

/-- The STATUS word cut at its field boundaries (10_state.md R38). -/
theorem status_fields (s : State) :
    let w := s.status.toNat
    w % 2 ^ 4 = s.tapCode ∧ w / 2 ^ 4 % 2 = s.tapv.toNat ∧ w / 2 ^ 5 % 2 = s.aborted.toNat ∧
    w / 2 ^ 6 % 2 = s.chainv.toNat ∧ w / 2 ^ 7 % 2 = s.irmismatch.toNat ∧ w / 2 ^ 8 % 2 = s.maskv.toNat ∧
    w / 2 ^ 9 % 2 = s.trst.toNat ∧ w / 2 ^ 10 % 2 = s.strict.toNat ∧ w / 2 ^ 11 = 0 := by
  have h0 := tapCode_lt s
  have h1 := s.tapv.toNat_le
  have h2 := s.aborted.toNat_le
  have h3 := s.chainv.toNat_le
  have h4 := s.irmismatch.toNat_le
  have h5 := s.maskv.toNat_le
  have h6 := s.trst.toNat_le
  have h7 := s.strict.toNat_le
  simp only [State.status, BitVec.toNat_ofNat]
  omega

/-- Settles O58: each field is the bit of the word its flag stands at, and a bit is 1 when its flag is set. -/
theorem statusWordFields : Obligations.StatusWordFields := by
  refine ⟨by decide, fun s => ?_⟩
  obtain ⟨htap, htapv, haborted, hchainv, hirm, hmaskv, htrst, hstrict, hupper⟩ := status_fields s
  have hread : s.readReg 0x000 = s.status := rfl
  simp only [hread, htap, htapv, haborted, hchainv, hirm, hmaskv, htrst, hstrict, hupper, Bool.toNat_eq_one]
  exact ⟨fun t ht => by simp [State.tapCode, ht], fun ht => by simp [State.tapCode, ht],
    Option.isSome_iff_ne_none, trivial, trivial, trivial, Option.isSome_iff_ne_none, trivial, trivial, trivial⟩

/-! ### The rest of the register map -/

theorem natWord_toNat {n : Nat} (h : n < 2 ^ 32) : (natWord n).toNat = n := by
  rw [natWord, if_pos h, BitVec.toNat_ofNat, Nat.mod_eq_of_lt h]

theorem readReg_of_unaligned (s : State) {a : Nat} (h : a % 4 ≠ 0) : s.readReg a = 0 := if_pos h

/-- An aligned read in the 16 bytes of device `k` is a read of its record. -/
theorem readReg_dev (s : State) (k : Nat) {off : Nat} (h : off < 16) (h4 : off % 4 = 0) :
    s.readReg (0x100 + 16 * k + off) = s.readDev k off := by
  have hk : (0x100 + 16 * k + off - 0x100) / 16 = k := by omega
  have ho : (0x100 + 16 * k + off - 0x100) % 16 = off := by omega
  unfold State.readReg
  rw [if_neg (by omega), if_pos (by omega), hk, ho]

/-- The gap between the block's own registers and the device records is unmapped (20_memory.md R47). -/
theorem readReg_of_gap (s : State) {a : Nat} (hlo : 0x024 ≤ a) (hhi : a < 0x100) : s.readReg a = 0 := by
  unfold State.readReg
  split
  · rfl
  · rw [if_neg (by omega)]
    split
    case h_10 => rfl
    all_goals omega

theorem endState32_toNat (s : State) : s.endState32.toNat = s.endir.codeNat + 16 * s.enddr.codeNat := by
  have h1 := s.endir.codeNat_lt
  have h2 := s.enddr.codeNat_lt
  simp only [State.endState32, BitVec.toNat_ofNat]
  omega

theorem errCount_toNat (s : State) : s.errCount.toNat = min s.errlog.length (2 ^ 32 - 1) := by
  simp only [State.errCount, BitVec.toNat_ofNat]
  omega

theorem ErrorCode.sub_lt (e : ErrorCode) : e.sub < 2 ^ 8 := by cases e <;> decide

theorem ErrorCode.kind_lt (e : ErrorCode) : e.kind < 2 ^ 8 := by cases e <;> decide

theorem lastErr_toNat {s : State} {l : List ErrRec} {r : ErrRec} (h : s.errlog = l ++ [r]) :
    s.lastErr.toNat = r.err.sub + 256 * r.err.kind := by
  have h1 := r.err.sub_lt
  have h2 := r.err.kind_lt
  simp only [State.lastErr, h, List.getLast?_concat, BitVec.toNat_ofNat]
  omega

theorem lastErrSeq_toNat {s : State} {l : List ErrRec} {r : ErrRec} (h : s.errlog = l ++ [r]) :
    s.lastErrSeq.toNat = r.seq % 2 ^ 32 := by
  simp only [State.lastErrSeq, h, List.getLast?_concat, BitVec.toNat_ofNat]

theorem lastErr_of_empty {s : State} (h : s.errlog = []) : s.lastErr = 0 ∧ s.lastErrSeq = 0 := by
  simp [State.lastErr, State.lastErrSeq, h]

theorem DevRec.info_toNat (d : DevRec) :
    d.info.toNat = d.tabidx.toNat + 2 ^ 16 * d.known.toNat + 2 ^ 17 * d.inferred.toNat := by
  have h1 := d.tabidx.isLt
  have h2 := d.known.toNat_le
  have h3 := d.inferred.toNat_le
  simp only [DevRec.info, BitVec.toNat_ofNat]
  omega

/-- The four words of a device record (10_state.md R37). -/
theorem readDev_words {s : State} {k : Nat} {d : DevRec} (hk : k < s.ndev) (hd : s.dev[k]? = some d) :
    s.readDev k 0 = d.idcode ∧ s.readDev k 4 = natWord d.irlen ∧ s.readDev k 8 = d.info ∧
    s.readDev k 12 = natWord (s.irAfter k) := by
  have hrec : s.devRec k = some d := by rw [State.devRec, if_pos hk, hd]
  simp [State.readDev, hrec, State.irOff]

theorem readDev_of_ndev_le {s : State} {k : Nat} (h : s.ndev ≤ k) (off : Nat) : s.readDev k off = 0 := by
  have hrec : s.devRec k = none := if_neg (by omega)
  rw [State.readDev, hrec]

/-- No word of the map is read at or beyond record NDEV (10_state.md R37). -/
theorem readReg_of_ndev_le {s : State} {k off : Nat} (hk : s.ndev ≤ k) (ho : off < 16) :
    s.readReg (0x100 + 16 * k + off) = 0 := by
  by_cases h4 : off % 4 = 0
  · rw [readReg_dev s k ho h4, readDev_of_ndev_le hk]
  · exact readReg_of_unaligned s (by omega)

/-- The words of a device record read at their addresses. -/
theorem readReg_devWords {s : State} {k : Nat} {d : DevRec} (hk : k < s.ndev) (hd : s.dev[k]? = some d) :
    s.readReg (0x100 + 16 * k) = d.idcode ∧ s.readReg (0x104 + 16 * k) = natWord d.irlen ∧
    s.readReg (0x108 + 16 * k) = d.info ∧ s.readReg (0x10C + 16 * k) = natWord (s.irAfter k) := by
  obtain ⟨h0, h4, h8, h12⟩ := readDev_words hk hd
  refine ⟨?_, ?_, ?_, ?_⟩
  · rw [← h0, ← readReg_dev s k (by decide) rfl, Nat.add_zero]
  · rw [← h4, ← readReg_dev s k (by decide) rfl, Nat.add_right_comm]
  · rw [← h8, ← readReg_dev s k (by decide) rfl, Nat.add_right_comm]
  · rw [← h12, ← readReg_dev s k (by decide) rfl, Nat.add_right_comm]

/-- Settles O59: each address reads its register's view, whose value is computed above. -/
theorem registerMap : Obligations.RegisterMap := by
  refine fun s => ⟨endState32_toNat s, rfl, BitVec.toNat_ofNat .., errCount_toNat s, lastErr_of_empty,
    fun l r h => ⟨lastErr_toNat h, lastErrSeq_toNat h⟩, natWord_toNat, natWord_toNat, fun k d hk hd => ?_,
    fun k off => readReg_of_ndev_le, fun a => readReg_of_unaligned s, fun a => readReg_of_gap s⟩
  obtain ⟨hid, hirlen, hinfo, hoff⟩ := readReg_devWords hk hd
  rw [hid, hirlen, hinfo, hoff]
  exact ⟨rfl, natWord_toNat, d.info_toNat, natWord_toNat⟩

end Sys2Proof.Machine
end

section
/-! The memory family: the BitBuffer operations on the list of bits in wire order. -/

namespace Sys2Proof

/-- A buffer as long as a list, holding at each index the list's bit, is that list on the wire (20_memory.md R42). -/
theorem BitBuffer.bits_eq_of_bit {b : BitBuffer} {bs : List Bool} (hlen : b.len = bs.length)
    (hbit : ∀ i (h : i < bs.length), b.bit i = bs[i]) : b.bits = bs :=
  List.ext_getElem (by rw [bits_length, hlen]) fun i h h' => by rw [bits_getElem, hbit i h']

theorem BitBuffer.shiftIn_bits (b : BitBuffer) (x : Bool) : (b.shiftIn x).bits = x :: b.bits := by
  refine bits_eq_of_bit (by rw [List.length_cons, bits_length]; rfl) fun i h => ?_
  cases i with
  | zero => exact b.shiftIn_bit x 0
  | succ i => rw [List.getElem_cons_succ, bits_getElem]; exact b.shiftIn_bit x (i + 1)

theorem BitBuffer.dropLsb_bits (b : BitBuffer) (k : Nat) : (b.dropLsb k).bits = b.bits.drop k :=
  bits_eq_of_bit (by rw [dropLsb_len, List.length_drop, bits_length]) fun i _ => by
    rw [dropLsb_bit, List.getElem_drop, bits_getElem, Nat.add_comm]

theorem BitBuffer.dropMsb_bits (b : BitBuffer) (k : Nat) : (b.dropMsb k).bits = b.bits.take (b.len - k) := by
  refine bits_eq_of_bit (by rw [dropMsb_len, List.length_take, bits_length]; omega) fun i h => ?_
  have hi : i < b.len - k := h.trans_le (List.length_take_le ..)
  rw [dropMsb_bit, List.getElem_take, bits_getElem, decide_eq_true hi, Bool.true_and]

theorem BitBuffer.zeroes_bits (n : Nat) : (BitBuffer.zeroes n).bits = List.replicate n false :=
  bits_eq_of_bit (by rw [zeroes_len, List.length_replicate]) fun i _ => by
    rw [zeroes_bit, List.getElem_replicate]

/-- The serial view of a capture is its samples in order (20_memory.md R43). -/
theorem BitBuffer.ofBits_bits (bs : List Bool) : (BitBuffer.ofBits bs).bits = bs :=
  bits_eq_of_bit (ofBits_len bs) fun i h => by
    rw [ofBits_bit, List.getD_eq_getElem _ _ h]

/-- Settles O56: each operation's list is the one its length and its bits at every index give. -/
theorem operationsOnWireOrder : Obligations.OperationsOnWireOrder :=
  ⟨BitBuffer.append_bits, BitBuffer.shiftIn_bits, BitBuffer.dropLsb_bits, BitBuffer.dropMsb_bits,
    BitBuffer.ones_bits, BitBuffer.zeroes_bits, BitBuffer.ofBits_bits⟩

end Sys2Proof
end

section
/-! The encoding family: decoding undoes encoding and encoding undoes decoding, and what the parse step refuses. -/

namespace Sys2Proof

open Machine

/-! ### Decoding an encoding -/

/-- The parse step reads every well-formed instruction back from its encoding. -/
theorem decode_encode : ∀ i : Instr, i.wellFormed = true → decode (encode i) = .ok i
  | .tapidle => Laws.RoundTrip.tapidle
  | .goto st => Laws.RoundTrip.goto st
  | .state st => Laws.RoundTrip.state st
  | .runtest st count => Laws.RoundTrip.runtest st count
  | .endir st => Laws.RoundTrip.endir st
  | .enddr st => Laws.RoundTrip.enddr st
  | .frequency hz => Laws.RoundTrip.frequency hz
  | .trst on => Laws.RoundTrip.trst on
  | .strict on => Laws.RoundTrip.strict on
  | .sir tdi smask tdo mask => Laws.RoundTrip.sir tdi smask tdo mask
  | .sdr tdi smask tdo mask => Laws.RoundTrip.sdr tdi smask tdo mask
  | .hdr n => Laws.RoundTrip.hdr n
  | .tdr n => Laws.RoundTrip.tdr n
  | .hir n => Laws.RoundTrip.hir n
  | .tir n => Laws.RoundTrip.tir n
  | .chainscan => Laws.RoundTrip.chainscan
  | .devir k bits => Laws.RoundTrip.devir k bits
  | .devdrw k bits => Laws.RoundTrip.devdrw k bits
  | .devdrrw k bits => Laws.RoundTrip.devdrrw k bits

/-- Settles O2: the stream yields the encoded command and the rest, and that command decodes to its instruction. -/
theorem encodedBytesDecodeBack : Obligations.EncodedBytesDecodeBack := by
  intro i rest hwf hcarry
  rw [decodeBytes, takeCommand_encode i hcarry rest, Option.map_some, decode_encode i hwf]

/-! ### Refusals -/

/-- A command the parse step refuses makes the step one record of the refusal's error. -/
theorem Machine.step_of_decode_error {s : State} {c : Command} {rest : List HostInput}
    {e : DecodeError} (hin : s.inputs = .command c :: rest) (hrun : s.aborted = false) (hdec : decode c = .error e) :
    step s = .next (({ s with inputs := rest }).refusedWith (decodeErrorCode e)) := by
  rw [step_command hin hrun, runCommand_error hdec]

/-- Settles O3: each clause is the step on the refusal of its level. -/
theorem refusedCommandsRecordTheirError : Obligations.RefusedCommandsRecordTheirError := by
  refine fun s c rest hin hrun => ⟨fun hop => ?_, fun hres => ?_, fun hop hres hfit => ?_⟩
  · exact step_of_decode_error hin hrun (decode_unknown hop)
  · exact step_of_decode_error hin hrun (decode_reserved hres)
  · exact step_of_decode_error hin hrun (decode_badPayload hop hres hfit)

/-! ### Headers whose reserved bits are clear

A header in its format is the one the encoder writes for the opcode and the fields used (30_encoding.md R66). -/

theorem Header.plain_eq {h : Header} {op : BitVec 8} (hop : h.op.toNat = op.toNat)
    (hr : Format.plain.reservedClear h = true) : Header.plain op = h := by
  obtain rfl : h.op = op := BitVec.eq_of_toNat_eq hop
  cases h
  simp_all [Format.reservedClear, Header.plain]

theorem Header.withSt_eq {h : Header} {op : BitVec 8} (hop : h.op.toNat = op.toNat)
    (hr : Format.st.reservedClear h = true) :
    { Header.plain op with st := (TapState.ofCode h.st).code } = h := by
  obtain rfl : h.op = op := BitVec.eq_of_toNat_eq hop
  cases h
  simp_all [Format.reservedClear, Header.plain, TapState.code_ofCode]

theorem Header.withBit_eq {h : Header} {op : BitVec 8} (hop : h.op.toNat = op.toNat)
    (hr : Format.bit.reservedClear h = true) :
    { Header.plain op with imm := BitVec.ofNat 16 (h.imm.toNat % 2 == 1).toNat } = h := by
  obtain rfl : h.op = op := BitVec.eq_of_toNat_eq hop
  have himm : h.imm.toNat < 2 → BitVec.ofNat 16 (h.imm.toNat % 2 == 1).toNat = h.imm := fun hlt =>
    BitVec.eq_of_toNat_eq (by rw [BitVec.toNat_ofNat, toNat_bit_of_mod]; omega)
  cases h
  simp_all [Format.reservedClear, Header.plain]

theorem Header.withImm_eq {h : Header} {op : BitVec 8} (hop : h.op.toNat = op.toNat)
    (hr : Format.imm.reservedClear h = true) : { Header.plain op with imm := h.imm } = h := by
  obtain rfl : h.op = op := BitVec.eq_of_toNat_eq hop
  cases h
  simp_all [Format.reservedClear, Header.plain]

theorem scanHeader_eq {h : Header} {op : BitVec 8} {smask tdo mask : Option BitBuffer}
    (hop : h.op.toNat = op.toNat) (hr : Format.flags.reservedClear h = true) (hfs : smask.isSome = h.fs)
    (hft : tdo.isSome = h.ft) (hfm : mask.isSome = h.fm) : scanHeader op smask tdo mask = h := by
  obtain rfl : h.op = op := BitVec.eq_of_toNat_eq hop
  cases h
  simp_all [Format.reservedClear, scanHeader, Header.plain]

/-! ### Encoding what was decoded -/

/-- The header and the operands are those of `i`, which has an encoding the block accepts. -/
def EncodedAs (h : Header) (p : List Operand) (i : Instr) : Prop :=
  (encodeFields i).1 = h ∧ (encodeFields i).2 = p ∧ i.wellFormed = true

theorem encodedAs_of_payloadNone {h : Header} {p : List Operand} {i j : Instr} (hp : payloadNone p i = .ok j)
    (hi : EncodedAs h [] i) : EncodedAs h p j := by
  obtain ⟨rfl, rfl⟩ := payloadNone_ok hp
  exact hi

theorem encodedAs_of_payloadWord {h : Header} {p : List Operand} {f : Word → Instr} {j : Instr}
    (hp : payloadWord p f = .ok j) (hf : ∀ w, EncodedAs h [.word w] (f w)) : EncodedAs h p j := by
  obtain ⟨w, rfl, rfl⟩ := payloadWord_ok hp
  exact hf w

theorem encodedAs_of_payloadBuf {h : Header} {p : List Operand} {f : BitBuffer → Instr} {j : Instr}
    (hp : payloadBuf p f = .ok j) (hf : ∀ b, EncodedAs h [.buf b] (f b)) : EncodedAs h p j := by
  obtain ⟨b, rfl, rfl⟩ := payloadBuf_ok hp
  exact hf b

/-- RUNTEST: SV says whether the header carries the state. -/
theorem encodedAs_runtest {h : Header} (hop : h.op.toNat = 0x11) (hr : Format.svSt.reservedClear h = true)
    (count : Word) :
    EncodedAs h [.word count] (.runtest (if h.sv then some (TapState.ofCode h.st) else none) count) := by
  replace hop : h.op = 0x11 := BitVec.eq_of_toNat_eq hop
  obtain ⟨op, st, sv, ft, fm, fs, imm⟩ := h
  cases sv <;> simp_all [EncodedAs, encodeFields, Format.reservedClear, Header.plain, TapState.code_ofCode,
    Instr.wellFormed]

/-- SIR and SDR, whose fields are the same but for the opcode. -/
theorem encodedAs_of_payloadScan {h : Header} {op : BitVec 8} {p : List Operand}
    {f : BitBuffer → Option BitBuffer → Option BitBuffer → Option BitBuffer → Instr} {j : Instr}
    (hp : payloadScan h p f = .ok j) (hop : h.op.toNat = op.toNat) (hr : Format.flags.reservedClear h = true)
    (hf : ∀ tdi smask tdo mask, maskNeedsTdo tdo mask = true → EncodedAs (scanHeader op smask tdo mask)
      (scanOperands tdi smask tdo mask) (f tdi smask tdo mask)) : EncodedAs h p j := by
  obtain ⟨tdi, smask, tdo, mask, rfl, rfl, hfs, hft, hfm, hmask⟩ := payloadScan_ok hp
  rw [← scanHeader_eq hop hr hfs hft hfm]
  exact hf tdi smask tdo mask hmask

/-- The payload readers accept only what the encoder writes: one case a row of 30_encoding.md R63, in its order. -/
theorem encodedAs_of_decodePayload {h : Header} {p : List Operand} {f : Format} {i : Instr}
    (hf : opFormat h.op = some f) (hr : f.reservedClear h = true) (hp : decodePayload h p = .ok i) :
    EncodedAs h p i := by
  unfold opFormat at hf
  unfold decodePayload at hp
  split at hf <;> rename_i hop <;> cases hf <;> simp only [hop] at hp
  · exact encodedAs_of_payloadNone hp ⟨Header.plain_eq hop hr, rfl, rfl⟩
  · exact encodedAs_of_payloadNone hp ⟨Header.withSt_eq hop hr, rfl, rfl⟩
  · exact encodedAs_of_payloadNone hp ⟨Header.withSt_eq hop hr, rfl, rfl⟩
  · exact encodedAs_of_payloadWord hp (encodedAs_runtest hop hr)
  · exact encodedAs_of_payloadNone hp ⟨Header.withSt_eq hop hr, rfl, rfl⟩
  · exact encodedAs_of_payloadNone hp ⟨Header.withSt_eq hop hr, rfl, rfl⟩
  · exact encodedAs_of_payloadWord hp fun _ => ⟨Header.plain_eq hop hr, rfl, rfl⟩
  · exact encodedAs_of_payloadNone hp ⟨Header.withBit_eq hop hr, rfl, rfl⟩
  · exact encodedAs_of_payloadNone hp ⟨Header.withBit_eq hop hr, rfl, rfl⟩
  · exact encodedAs_of_payloadScan (op := 0x20) hp hop hr fun _ _ _ _ h => ⟨rfl, rfl, h⟩
  · exact encodedAs_of_payloadScan (op := 0x21) hp hop hr fun _ _ _ _ h => ⟨rfl, rfl, h⟩
  · exact encodedAs_of_payloadNone hp ⟨Header.withImm_eq hop hr, rfl, rfl⟩
  · exact encodedAs_of_payloadNone hp ⟨Header.withImm_eq hop hr, rfl, rfl⟩
  · exact encodedAs_of_payloadNone hp ⟨Header.withImm_eq hop hr, rfl, rfl⟩
  · exact encodedAs_of_payloadNone hp ⟨Header.withImm_eq hop hr, rfl, rfl⟩
  · exact encodedAs_of_payloadNone hp ⟨Header.plain_eq hop hr, rfl, rfl⟩
  · exact encodedAs_of_payloadBuf hp fun _ => ⟨Header.withImm_eq hop hr, rfl, rfl⟩
  · exact encodedAs_of_payloadBuf hp fun _ => ⟨Header.withImm_eq hop hr, rfl, rfl⟩
  · exact encodedAs_of_payloadBuf hp fun _ => ⟨Header.withImm_eq hop hr, rfl, rfl⟩

/-- What the parse step accepts is the encoding of what it reads. -/
theorem encode_of_decode_ok {c : Command} {i : Instr} (h : decode c = .ok i) :
    encode i = c ∧ i.wellFormed = true := by
  obtain ⟨f, hf, hr, hp⟩ := decode_ok h
  obtain ⟨hheader, hpayload, hwf⟩ := encodedAs_of_decodePayload hf hr hp
  exact ⟨by rw [encode, hheader, hpayload, Header.toWord_ofWord], hwf⟩

/-- Levels 1 to 3 of 60_exceptions.md R152 are all the parse step checks. -/
theorem decode_ok_iff (c : Command) : (∃ i, decode c = .ok i) ↔
    (opOf c.header ∈ assignedOps ∧ ¬ reservedBitSet c.header ∧ payloadFits c) := by
  by_cases hop : opOf c.header ∈ assignedOps
  · obtain ⟨f, hf⟩ := assigned_format hop
    by_cases hres : reservedBitSet c.header
    · simp [decode_reserved hres, hres]
    · rw [decode_assigned hf, if_pos ((reservedClear_iff _ _ hf).2 hres), decodePayload_iff c hop]
      simp [hop, hres]
  · simp [decode_unknown hop, hop]

/-- Settles O4: the three levels decide acceptance, and the encoder writes the accepted command again. -/
theorem parseAcceptsExactlyTheEncodings : Obligations.ParseAcceptsExactlyTheEncodings :=
  ⟨decode_ok_iff, fun _ _ => encode_of_decode_ok⟩

/-! ### The examples of the spec -/

/-- A directive whose instruction is encoded by a command expands to a command that decodes to it. -/
theorem examples_decode {xs : List (Directive × Command × Instr)}
    (h : ∀ x ∈ xs, x.1.expand = [x.2.1] ∧ encode x.2.2 = x.2.1 ∧ x.2.2.wellFormed = true) :
    ∀ x ∈ xs, x.1.expand = [x.2.1] ∧ decode x.2.1 = .ok x.2.2 := by
  intro x hx
  obtain ⟨hexpand, hencode, hwf⟩ := h x hx
  exact ⟨hexpand, by rw [← hencode, decode_encode _ hwf]⟩

/-- Settles O1: each listed command is evaluated as the encoding of its instruction, so it decodes to it. -/
theorem specExampleWords : Obligations.SpecExampleWords :=
  ⟨examples_decode (by decide), examples_decode (by decide), by decide⟩

end Sys2Proof
end

section
/-! The BitBuffer family: the laws of appending and dropping, taking off the first bit, and splitting into fields. -/

namespace Sys2Proof

/-! ### Appending and dropping -/

theorem BitBuffer.append_assoc (x a b : BitBuffer) : (x.append a).append b = x.append (a.append b) :=
  eq_of_bits (by simp only [append_bits, List.append_assoc])

theorem BitBuffer.empty_append (b : BitBuffer) : empty.append b = b :=
  eq_of_bits ((append_bits ..).trans (List.append_nil _))

/-- The two parts of an appended value fit its length, so that the masking of R74 takes nothing away. -/
theorem BitBuffer.append_val (b a : BitBuffer) : (b.append a).val = (b.val <<< a.len) ||| a.val := by
  have hhigh : b.val <<< a.len < 2 ^ (b.len + a.len) := by
    rw [Nat.shiftLeft_eq, Nat.pow_add]
    exact Nat.mul_lt_mul_of_pos_right b.lt (Nat.two_pow_pos _)
  have hlow : a.val < 2 ^ (b.len + a.len) := a.lt.trans_le (Nat.pow_le_pow_right Nat.two_pos (Nat.le_add_left ..))
  exact Nat.mod_eq_of_lt (Nat.or_lt_two_pow hhigh hlow)

theorem BitBuffer.dropLsb_of_len_le {b : BitBuffer} {k : Nat} (h : b.len ≤ k) : b.dropLsb k = empty := if_pos h

theorem BitBuffer.dropLsb_append (b a : BitBuffer) : (b.append a).dropLsb a.len = b :=
  eq_of_bits (by rw [dropLsb_bits, append_bits, List.drop_left' a.bits_length])

theorem BitBuffer.dropMsb_append (b a : BitBuffer) : (b.append a).dropMsb b.len = a :=
  eq_of_bits (by
    rw [dropMsb_bits, append_bits, append_len, Nat.add_sub_cancel_left, List.take_left' a.bits_length])

/-- Settles O55: the laws of appending hold of the bits on the wire, and dropping undoes appending at either end. -/
theorem bitBufferLaws : Obligations.BitBufferLaws := by
  refine ⟨BitBuffer.fromBytes_asBytes, BitBuffer.append_assoc, fun a b => ?_,
    fun _ _ h => BitBuffer.dropLsb_of_len_le h.le, fun a x c => ?_⟩
  · rw [BitBuffer.empty_append]
    exact ⟨BitBuffer.append_len a b, BitBuffer.append_val a b⟩
  · rw [BitBuffer.dropLsb_append, BitBuffer.dropMsb_append]

/-! ### Taking off the first bit -/

theorem BitBuffer.shiftOut_of_len_eq_zero {b : BitBuffer} (h : b.len = 0) : b.shiftOut = .error .emptyShiftOut :=
  if_pos h

/-- What `shift_register_out` leaves is what `drop_lsb(1)` leaves (40_bitbuffer.md R83, R85). -/
theorem BitBuffer.shiftOut_of_len_ne_zero {b : BitBuffer} (h : b.len ≠ 0) :
    b.shiftOut = .ok (b.bit 0, b.dropLsb 1) := by
  have hdrop : ofNat (b.len - 1) (b.val >>> 1) = b.dropLsb 1 := by
    by_cases h1 : b.len ≤ 1
    · rw [dropLsb_of_len_le h1, Nat.sub_eq_zero_of_le h1]
      exact ext_val rfl (Nat.mod_one _)
    · exact (if_neg h1).symm
  rw [shiftOut, if_neg h, hdrop]

theorem BitBuffer.shiftOut_of_bits {b : BitBuffer} {x : Bool} {xs : List Bool} (h : b.bits = x :: xs) :
    b.shiftOut = .ok (x, ofBits xs) := by
  have hlen : b.len ≠ 0 := by rw [← bits_length, h]; exact Nat.succ_ne_zero _
  have hfirst : b.bit 0 = x := by rw [← bits_getD, h, List.getD_cons_zero]
  have hrest : b.dropLsb 1 = ofBits xs :=
    eq_of_bits (by rw [dropLsb_bits, ofBits_bits, h, List.drop_one, List.tail_cons])
  rw [shiftOut_of_len_ne_zero hlen, hfirst, hrest]

/-! ### Splitting into fields -/

theorem BitBuffer.scan_of_sum_ne {b : BitBuffer} {ws : List Nat} (h : ws.sum ≠ b.len) :
    b.scan ws = .error .badFieldWidths := if_neg h

theorem BitBuffer.scan_of_sum_eq {b : BitBuffer} {ws : List Nat} (h : ws.sum = b.len) :
    b.scan ws = .ok (fieldsFrom b.val b.len ws) := if_pos h

theorem fieldsFrom_map_len (v hi : Nat) (ws : List Nat) : (fieldsFrom v hi ws).map BitBuffer.len = ws := by
  induction ws generalizing hi with
  | nil => rfl
  | cons w ws ih => rw [fieldsFrom, List.map_cons, ih, BitBuffer.ofNat_len]

/-- The low `s` bits of a value appended to the `w` bits above them are its low `w + s` bits. -/
theorem BitBuffer.append_ofNat_shiftRight (v w s : Nat) : (ofNat w (v >>> s)).append (ofNat s v) = ofNat (w + s) v := by
  refine ext_bit rfl fun i => ?_
  simp only [append_bit, ofNat_len, ofNat_bit, Nat.testBit_shiftRight]
  by_cases h : i < s
  · simp [h, Nat.lt_add_left w h]
  · have hi : s + (i - s) = i := Nat.add_sub_cancel' (Nat.le_of_not_lt h)
    have hw : i - s < w ↔ i < w + s := by omega
    simp [h, hi, hw]

/-- The fields appended in order put back the bits they were cut from, behind what stood before. -/
theorem foldl_append_fieldsFrom (v : Nat) (ws : List Nat) (acc : BitBuffer) :
    (fieldsFrom v ws.sum ws).foldl BitBuffer.append acc = acc.append (BitBuffer.ofNat ws.sum v) := by
  induction ws generalizing acc with
  | nil => exact BitBuffer.eq_of_bits (BitBuffer.append_bits acc (BitBuffer.ofNat 0 v)).symm
  | cons w ws ih =>
    rw [List.sum_cons, fieldsFrom, List.foldl_cons, Nat.add_sub_cancel_left, ih, BitBuffer.append_assoc,
      BitBuffer.append_ofNat_shiftRight]

theorem BitBuffer.foldl_append_fields {b : BitBuffer} {ws : List Nat} (h : ws.sum = b.len) :
    (fieldsFrom b.val b.len ws).foldl append empty = b := by
  rw [← h, foldl_append_fieldsFrom, h, ofNat_self, empty_append]

/-- Settles O57: both operations test for misuse first; past the test, the first bit and the rest are read off the
wire order, and the fields join back by induction on the widths. -/
theorem misuseFaults : Obligations.MisuseFaults :=
  ⟨fun _ => ⟨BitBuffer.shiftOut_of_len_eq_zero, fun _ _ => BitBuffer.shiftOut_of_bits⟩,
    fun b ws => ⟨BitBuffer.scan_of_sum_ne, fun h => ⟨_, BitBuffer.scan_of_sum_eq h,
      fieldsFrom_map_len b.val b.len ws, BitBuffer.foldl_append_fields h⟩⟩⟩

end Sys2Proof
end

section
/-! The TAP family: the transition ROM as a table of distances, the cycles of a scan, the moves of TAPIDLE and GOTO,
and what a failed cycle ends. -/

namespace Sys2Proof

/-! ### Shortest paths -/

/-- One clock shortens the ROM entry to a target by at most one bit, and where it does, the entry is that clock and
then the entry from the next state: one row of the table against another (41_tap.md R93, R97). -/
theorem rom_next (s b : TapState) (t : Bool) : (rom s b).length ≤ (rom (next s t) b).length + 1 ∧
    ((rom s b).length = (rom (next s t) b).length + 1 → rom s b = t :: rom (next s t) b) := by
  cases s <;> cases b <;> revert t <;> decide

/-- A sequence that leads to `b` is no shorter than the ROM entry, and is the entry if it is as short: by induction on
the sequence, since each of its clocks shortens the entry by at most one bit. -/
theorem rom_unique_shortest {b : TapState} {seq : List Bool} {a : TapState} (h : walk a seq = b) :
    (rom a b).length ≤ seq.length ∧ (seq.length = (rom a b).length → seq = rom a b) := by
  induction seq generalizing a with
  | nil =>
    obtain rfl : a = b := h
    simp
  | cons t ts ih =>
    obtain ⟨hmin, huniq⟩ := ih (a := next a t) h
    obtain ⟨hstep, hcons⟩ := rom_next a b t
    rw [List.length_cons]
    refine ⟨by omega, fun hlen => ?_⟩
    rw [hcons (by omega), huniq (by omega)]

/-- UNKNOWN has a path to RESET only (41_tap.md R96). -/
theorem transitionBits_unknown (t : TapState) :
    transitionBits none t = if t = .reset then some resetSeq else none := by
  split
  next h => rw [h]; rfl
  next h => cases hp : transitionBits none t with
    | none => rfl
    | some p => exact absurd (transitionBits_none hp).1 h

/-- Settles O23: from a known state T is the ROM entry, which leads to its target and is the one shortest sequence
that does. -/
theorem transitionBitsAreUniqueShortestPaths : Obligations.TransitionBitsAreUniqueShortestPaths :=
  ⟨transitionBits_unknown, fun a b =>
    ⟨transitionBits_some a b, rom_self a, walk_rom a b, fun _ => rom_unique_shortest⟩⟩

/-! ### The reset sequences -/

theorem walk_idleSeq (s : TapState) : walk s idleSeq = .idle := by
  show walk s (resetSeq ++ [false]) = .idle
  rw [walk_append, walk_resetSeq]; rfl

/-- Settles O22: the ROM entry from DRSHIFT to RESET has five bits and is the shortest way there, so fewer ones do not
reset every state. -/
theorem fiveOnesReset : Obligations.FiveOnesReset := by
  refine ⟨rfl, rfl, walk_resetSeq, walk_idleSeq, fun n h => ?_, fun s => ?_, rfl⟩
  · have hmin : (rom .drshift .reset).length ≤ (List.replicate n true).length :=
      (rom_unique_shortest (h .drshift)).1
    rwa [List.length_replicate] at hmin
  · cases s <;> decide

end Sys2Proof

namespace Sys2Proof.Machine

/-! ### The cycles of a scan -/

theorem dataReqs_tdi (d : BitBuffer) (capture : Bool) : (dataReqs d capture).map CycleReq.tdi = d.bits :=
  List.map_map

theorem dataReqs_sample (d : BitBuffer) (capture : Bool) :
    (dataReqs d capture).map CycleReq.sample = List.replicate d.len capture := by
  simp [dataReqs, Function.comp_def]

/-- Settles O39: the way in, the data cycles and the way out, each by its own lemma. -/
theorem scanCyclesReachEndState : Obligations.ScanCyclesReachEndState := fun idle t fin reg d capture hd =>
  ⟨walk_shiftReqs idle t fin reg d capture hd, shiftReqs_length idle t fin reg d capture, dataReqs_tdi d capture,
    tmsOf_dataReqs d capture hd, dataReqs_sample d capture⟩

/-! ### Moves -/

/-- A command whose course is cycles that were answered, with the tracked state set to where they lead. -/
theorem complete_ranCycles (s : State) (rs : List CycleReq) (bs : List Bool) (t : TapState) :
    complete (Res.quiet (.done () ((s.drove rs bs).setTap t))) = .next (s.ranCycles rs bs t) := by
  rw [Res.quiet, Res.bind_done, complete_done]; rfl

/-- A command whose course a failed cycle ended. -/
theorem complete_lostCycle (s : State) (pre : List CycleReq) (bs : List Bool) (r : CycleReq) :
    complete (Res.quiet (.raised .cycleFail ((s.drove pre bs).failed r))) = .next (s.lostCycle pre bs r) :=
  complete_fail s pre bs r

theorem exec_tapidle (s : State) : exec .tapidle s = complete (hardReset s).quiet := rfl

theorem exec_goto (st : TapState) (s : State) : exec (.goto st) s = complete (moveTo st s).quiet := rfl

/-- Settles O24: TAPIDLE is HardReset, whose two shifts drive the cycles of IDLESEQ. -/
theorem tapidleResetsToIdle : Obligations.TapidleResetsToIdle := by
  refine ⟨rfl, fun s => ⟨fun bs h => ?_, fun pre bs r h => ?_⟩⟩
  · rw [exec_tapidle, hardReset_ok h]
    exact complete_ranCycles s _ bs .idle
  · rw [exec_tapidle, hardReset_fail h, complete_lostCycle]

/-- Settles O25: GOTO is a move, refused before any cycle when there is no path. -/
theorem gotoMovesAlongRom : Obligations.GotoMovesAlongRom := by
  refine fun st s => ⟨fun ht hst => ?_, fun hk => ⟨fun bs h => ?_, fun pre bs r h => ?_⟩⟩
  · rw [exec_goto, moveTo_unknown ht hst]
    exact complete_format s .stateUnknown rfl
  · rw [exec_goto, moveTo_ok hk h, complete_ranCycles]
  · rw [exec_goto, moveTo_fail hk h, complete_lostCycle]

/-! ### Failed cycles -/

theorem newEvents_of_trace {s t : State} {ev : List PinEvent} (h : t.trace = s.trace ++ ev) : newEvents s t = ev := by
  rw [newEvents, h, List.drop_left]

theorem xfail_not_mem {ev : List PinEvent} (h : ∀ e ∈ ev, e.isXfail = false ∧ e.good) (tms tdi : Bool) :
    .xfail tms tdi ∉ ev := fun hm => Bool.noConfusion (h _ hm).1

/-- A course whose cycles all completed appends no `XFail`. -/
theorem xfail_not_mem_newEvents {s t : State}
    (h : ∃ ev, t.trace = s.trace ++ ev ∧ ∀ e ∈ ev, e.isXfail = false ∧ e.good) (tms tdi : Bool) :
    .xfail tms tdi ∉ newEvents s t := by
  obtain ⟨ev, hev, hgood⟩ := h
  rw [newEvents_of_trace hev]
  exact xfail_not_mem hgood tms tdi

/-- Cycles that completed and a failed one append one `XFail`, that of the failed cycle, last. -/
theorem newEvents_failed {s u t : State} {r : CycleReq} (hu : ∃ ev, u.trace = s.trace ++ ev ∧
      ∀ e ∈ ev, e.isXfail = false ∧ e.good) (ht : t.trace = (u.failed r).trace) {tms tdi : Bool}
    (hx : .xfail tms tdi ∈ newEvents s t) :
    ∃ ev, newEvents s t = ev ++ [.xfail tms tdi] ∧ ∀ e ∈ ev, e.isXfail = false := by
  obtain ⟨ev, hev, hgood⟩ := hu
  have hnew : newEvents s t = ev ++ [.xfail r.tms r.tdi] :=
    newEvents_of_trace (by rw [ht, State.failed_trace, hev, List.append_assoc])
  rw [hnew] at hx ⊢
  obtain hm | hm := List.mem_append.1 hx
  · exact absurd hm (xfail_not_mem hgood tms tdi)
  · rw [List.mem_singleton.1 hm]
    exact ⟨ev, rfl, fun e he => (hgood e he).1⟩

/-- Settles O18: of the five ways a command ends, only the one by a failed cycle appends an `XFail`. -/
theorem failedCycleEndsCommand : Obligations.FailedCycleEndsCommand := by
  intro i s t tms tdi h hx
  rcases exec_cases h with ⟨u, hu, rfl⟩ | ⟨u, hu, -, rfl⟩ | ⟨e, -, -, rfl⟩ | ⟨u, r, hf, -, -, rfl⟩ |
    ⟨u, e, -, -, -, hf, rfl⟩
  · exact absurd hx (xfail_not_mem_newEvents hu.events tms tdi)
  · exact absurd hx (xfail_not_mem_newEvents hu.events tms tdi)
  · exact absurd hx (xfail_not_mem_newEvents (Follows.refl s).events tms tdi)
  · have hev := hf.events
    rw [start_trace] at hev
    have hcap : u.capbuf = s.capbuf := by rw [hf.kept]; exact start_capbuf i s
    have hrd : u.rdbuf = s.rdbuf := by rw [hf.kept]; exact start_rdbuf i s
    exact ⟨newEvents_failed hev rfl hx, rfl, rfl, rfl, hcap, hrd, ((start_wrote i s).follows hf).chain⟩
  · exact absurd hx (xfail_not_mem_newEvents hf.events tms tdi)

end Sys2Proof.Machine
end

section
/-! The measurements of the chain family: what a probe reads out of its remainder, how a path of cells answers it, the
ID codes in a capture, and the records made of them. -/

namespace Sys2Proof

/-! ### Values with one marker -/

theorem BitBuffer.bitsValue_bits (b : BitBuffer) : bitsValue b.bits = b.val := by
  rw [← ofBits_val, eq_of_bits (ofBits_bits b.bits)]

theorem bitsValue_eq_zero_iff (bs : List Bool) : bitsValue bs = 0 ↔ bs.count true = 0 := by
  induction bs with
  | nil => simp [bitsValue]
  | cons b bs ih => cases b <;> simp [bitsValue, ih]

/-- A value is a power of 2 when its bits are one 1 and otherwise 0, at the index of that 1. -/
theorem bitsValue_eq_two_pow_iff (bs : List Bool) (n : Nat) :
    bitsValue bs = 2 ^ n ↔ bs.count true = 1 ∧ bs.idxOf true = n := by
  induction bs generalizing n with
  | nil => simp [bitsValue, (Nat.two_pow_pos n).ne]
  | cons b bs ih =>
    cases b with
    | false =>
      cases n with
      | zero => simp [bitsValue]
      | succ n => simp [bitsValue, Nat.pow_succ, Nat.mul_comm, ih]
    | true =>
      cases n with
      | zero => simp [bitsValue, bitsValue_eq_zero_iff]
      | succ n =>
        have hodd : 1 + 2 * bitsValue bs ≠ 2 ^ (n + 1) := by rw [Nat.pow_succ]; omega
        simp [bitsValue, hodd]

end Sys2Proof

namespace Sys2Proof.Machine

/-! ### What a probe reads -/

theorem probeLength_flushNone_iff (r : BitBuffer) : probeLength r = .error .flushNone ↔ r.val = 0 := by
  rw [← r.bitsValue_bits, bitsValue_eq_zero_iff, probeLength]
  show _ ↔ r.popcount = 0
  split <;> rename_i h0
  · simp [h0]
  · split <;> simp [h0]

theorem probeLength_ok_iff (r : BitBuffer) (n : Nat) : probeLength r = .ok n ↔ r.val = 2 ^ n := by
  rw [← r.bitsValue_bits, bitsValue_eq_two_pow_iff, probeLength]
  show _ ↔ r.popcount = 1 ∧ _
  split
  next h0 => simp [h0]
  next h0 =>
    split
    next h1 => simp [h1.ne']
    next h1 => simp [show r.popcount = 1 by omega]

theorem probeLength_flushMulti_iff (r : BitBuffer) :
    probeLength r = .error .flushMulti ↔ r.val ≠ 0 ∧ ∀ n, r.val ≠ 2 ^ n := by
  rw [ne_eq, ← probeLength_flushNone_iff]
  simp only [ne_eq, ← probeLength_ok_iff]
  cases h : probeLength r with
  | error e => rcases probeLength_error h with rfl | rfl <;> simp
  | ok n => simp

/-- Settles O41: a probe counts the 1 bits of its remainder, and the remainder is a power of 2 when there is one. -/
theorem probeReadsOneMarker : Obligations.ProbeReadsOneMarker := fun r =>
  ⟨probeLength_flushNone_iff r, probeLength_ok_iff r, probeLength_flushMulti_iff r⟩

/-! ### How a path of cells answers a probe -/

theorem flushPattern_bits (f : Nat) :
    (flushPattern f).bits = List.replicate f false ++ (true :: List.replicate f false) := by
  rw [flushPattern, BitBuffer.append_bits, BitBuffer.append_bits, BitBuffer.zeroes_bits, BitBuffer.ones_bits]
  rfl

theorem pathSamples_flushPattern_length (old : List Bool) (f : Nat) :
    (pathSamples old (flushPattern f)).length = 2 * f + 1 := by
  rw [pathSamples, List.length_take, List.length_append, BitBuffer.bits_length, flushPattern_len]; omega

/-- What is left of the samples once the first `f` are dropped: a 0 for each cell, the marker, and 0s. -/
theorem drop_pathSamples {f : Nat} {old : List Bool} (h : old.length ≤ f) :
    (pathSamples old (flushPattern f)).drop f =
      List.replicate old.length false ++ (true :: List.replicate (f - old.length) false) := by
  have hlen : 2 * f + 1 - f = f + 1 := by omega
  have hzeros : f - (f - old.length) = old.length := by omega
  have hrest : f + 1 - old.length = f - old.length + 1 := by omega
  rw [pathSamples, flushPattern_len, flushPattern_bits, List.drop_take, hlen, List.drop_append,
    List.drop_eq_nil_of_le h, List.nil_append, List.drop_append_of_le_length (by simp), List.drop_replicate, hzeros,
    List.take_append, List.length_replicate, List.take_of_length_le (by simp; omega), hrest, List.take_succ_cons,
    List.take_replicate, Nat.min_eq_left (Nat.sub_le ..)]

/-- A remainder of 0s, one marker and 0s is read as the count of the first 0s. -/
theorem probeLength_of_bits {r : BitBuffer} {a b : Nat}
    (h : r.bits = List.replicate a false ++ (true :: List.replicate b false)) : probeLength r = .ok a := by
  rw [probeLength_ok_iff, ← r.bitsValue_bits, bitsValue_eq_two_pow_iff, h]
  refine ⟨by simp [List.count_replicate], ?_⟩
  rw [List.idxOf_append_of_notMem (by simp), List.idxOf_cons_self, List.length_replicate, Nat.add_zero]

theorem probeLength_pathSamples {f : Nat} {old : List Bool} (h : old.length ≤ f) :
    probeLength ((BitBuffer.ofBits (pathSamples old (flushPattern f))).dropLsb f) = .ok old.length :=
  probeLength_of_bits (by rw [BitBuffer.dropLsb_bits, BitBuffer.ofBits_bits, drop_pathSamples h])

/-- Settles O40: the marker comes out behind one 0 for each cell. -/
theorem probeMeasuresPath : Obligations.ProbeMeasuresPath := fun _ _ _ h => probeLength_pathSamples h

/-! ### ID codes -/

/-- An ID code on the wire, least significant bit first. -/
def wordBits (w : Word) : List Bool := (List.range 32).map fun i => w.getLsbD i

/-- The ID codes as a chain presents them, that of the device nearest TDI last (42_chain.md R112, 93 K10). -/
def idcodeBits (ids : List Word) : List Bool := ids.reverse.flatMap wordBits

theorem wordBits_length (w : Word) : (wordBits w).length = 32 := by simp [wordBits]

theorem wordBits_getD (w : Word) (i : Nat) : (wordBits w).getD i false = w.getLsbD i := by
  by_cases h : i < 32
  · simp [wordBits, List.getD, h]
  · simp [wordBits, List.getD, h, w.getLsbD_of_ge i (Nat.le_of_not_lt h)]

theorem idcodeBits_cons (w : Word) (ids : List Word) : idcodeBits (w :: ids) = idcodeBits ids ++ wordBits w := by
  simp [idcodeBits]

theorem idcodeBits_length (ids : List Word) : (idcodeBits ids).length = 32 * ids.length := by
  induction ids with
  | nil => rfl
  | cons w ids ih => rw [idcodeBits_cons, List.length_append, ih, wordBits_length, List.length_cons]; rfl

/-- The fields of a scan are read out of the bits below the index it starts from. -/
theorem fieldsFrom_congr {v v' hi : Nat} {ws : List Nat} (hv : ∀ i < hi, v.testBit i = v'.testBit i)
    (hws : ws.sum ≤ hi) : fieldsFrom v hi ws = fieldsFrom v' hi ws := by
  induction ws generalizing hi with
  | nil => rfl
  | cons w ws ih =>
    rw [List.sum_cons] at hws
    have hfield : BitBuffer.ofNat w (v >>> (hi - w)) = BitBuffer.ofNat w (v' >>> (hi - w)) := by
      refine BitBuffer.ext_bit rfl fun i => ?_
      rw [BitBuffer.ofNat_bit, BitBuffer.ofNat_bit, Nat.testBit_shiftRight, Nat.testBit_shiftRight]
      by_cases hi' : i < w
      · rw [hv _ (by omega)]
      · simp [hi']
    rw [fieldsFrom, fieldsFrom, hfield, ih (fun i h => hv i (by omega)) (by omega)]

/-- The word behind `n` others is the most significant field (40_bitbuffer.md R87). -/
theorem idcodes_append_wordBits {bs : List Bool} {n : Nat} (hbs : bs.length = 32 * n) (w : Word) :
    idcodes (BitBuffer.ofBits (bs ++ wordBits w)) (n + 1) = w :: idcodes (BitBuffer.ofBits bs) n := by
  have hbit (i : Nat) : (BitBuffer.ofBits (bs ++ wordBits w)).val.testBit i = (bs ++ wordBits w).getD i false :=
    BitBuffer.ofBits_bit _ i
  have hfirst : BitVec.ofNat 32 (BitBuffer.ofNat 32 ((BitBuffer.ofBits (bs ++ wordBits w)).val >>> (32 * n))).val
      = w := by
    refine BitVec.eq_of_getLsbD_eq fun i hi => ?_
    rw [BitVec.getLsbD_ofNat, BitBuffer.ofNat_val, Nat.testBit_mod_two_pow, Nat.testBit_shiftRight, hbit, ← hbs,
      List.getD_append_right _ _ _ _ (Nat.le_add_right ..), Nat.add_sub_cancel_left, wordBits_getD]
    simp [hi]
  have hrest : fieldsFrom (BitBuffer.ofBits (bs ++ wordBits w)).val (32 * n) (List.replicate n 32) =
      fieldsFrom (BitBuffer.ofBits bs).val (32 * n) (List.replicate n 32) := by
    refine fieldsFrom_congr (fun i hi => ?_) (by simp [Nat.mul_comm])
    rw [hbit, List.getD_append _ _ _ _ (hbs ▸ hi)]
    exact (BitBuffer.ofBits_bit bs i).symm
  have hlen : (bs ++ wordBits w).length - 32 = 32 * n := by
    rw [List.length_append, wordBits_length, Nat.add_sub_cancel, hbs]
  rw [idcodes, List.replicate_succ, fieldsFrom, List.map_cons, BitBuffer.ofBits_len, hlen, hfirst, hrest, idcodes,
    BitBuffer.ofBits_len, hbs]

/-- The ID codes of a chain are read in order from TDI. -/
theorem idcodes_idcodeBits (ids : List Word) : idcodes (BitBuffer.ofBits (idcodeBits ids)) ids.length = ids := by
  induction ids with
  | nil => rfl
  | cons w ids ih => rw [idcodeBits_cons, List.length_cons, idcodes_append_wordBits (idcodeBits_length ids),
    ih]

/-! ### Identification -/

theorem entryMatches_iff (e : DeviceEntry) (id : Word) :
    entryMatches e id = true ↔ id &&& e.mask = e.idcode &&& e.mask := by
  rw [entryMatches, beq_iff_eq]

theorem identify_of_findIdx? {table : List DeviceEntry} {id : Word} {j : Nat} {e : DeviceEntry}
    (hfind : table.findIdx? (fun e => entryMatches e id) = some j) (he : table[j]? = some e) (hj : j < 2 ^ 16) :
    identify table id = ⟨id, true, BitVec.ofNat 16 j, e.irLength, false⟩ := by
  simp only [identify, hfind, he, tabIdx, if_pos hj, Option.map_some, Option.getD_some]

theorem identify_of_findIdx?_none {table : List DeviceEntry} {id : Word}
    (hfind : table.findIdx? (fun e => entryMatches e id) = none) :
    identify table id = ⟨id, false, 0xFFFF, 0, false⟩ := by
  simp only [identify, hfind]

/-- Settles O42: the search for an index finds the first match, or none. -/
theorem identifyTakesFirstMatch : Obligations.IdentifyTakesFirstMatch := by
  refine fun table id => ⟨fun j e he hmatch hfirst hj => ?_, fun hnone => ?_⟩
  · obtain ⟨hlt, hje⟩ := List.getElem?_eq_some_iff.1 he
    refine identify_of_findIdx? (List.findIdx?_eq_some_iff_getElem.2 ⟨hlt, ?_, fun i hi hm => ?_⟩) he hj
    · rwa [hje, entryMatches_iff]
    · exact hfirst i _ hi (List.getElem?_eq_getElem _) ((entryMatches_iff _ _).1 hm)
  · refine identify_of_findIdx?_none (List.findIdx?_eq_none_iff.2 fun e he => ?_)
    rw [← Bool.not_eq_true, entryMatches_iff]
    exact hnone e he

/-! ### Inference -/

theorem irlenSum_append (a b : List DevRec) : irlenSum (a ++ b) = irlenSum a + irlenSum b := by
  simp [irlenSum]

theorem irlenSum_cons (d : DevRec) (ds : List DevRec) : irlenSum (d :: ds) = d.irlen + irlenSum ds := by
  simp [irlenSum]

/-- The record of an unknown device with an inferred length (42_chain.md R114). -/
def DevRec.assign (n : Nat) (d : DevRec) : DevRec := if d.known then d else { d with irlen := n, inferred := true }

theorem map_assign_of_known (n : Nat) {ds : List DevRec} (h : ∀ d ∈ ds, d.known = true) :
    ds.map (DevRec.assign n) = ds :=
  (List.map_congr_left fun d hd => if_pos (h d hd)).trans (List.map_id' ds)

theorem inferIrlen_of_shortfall {ds : List DevRec} {irt : Nat} (h1 : unknownCount ds = 1)
    (h2 : knownIrlen ds < irt) : inferIrlen ds irt = ds.map (DevRec.assign (irt - knownIrlen ds)) :=
  if_pos ⟨h1, h2⟩

theorem inferIrlen_of_no_shortfall {ds : List DevRec} {irt : Nat} (h : unknownCount ds ≠ 1 ∨ irt ≤ knownIrlen ds) :
    inferIrlen ds irt = ds :=
  if_neg fun ⟨h1, h2⟩ => h.elim (absurd h1) (Nat.not_le.2 h2)

section
variable {before after : List DevRec} {u : DevRec} (hu : u.known = false)
  (hknown : ∀ d ∈ before ++ after, d.known = true)
include hu hknown

theorem unknownCount_of_one_unknown : unknownCount (before ++ u :: after) = 1 := by
  have hb : before.countP (fun d => !d.known) = 0 := List.countP_eq_zero.2 fun d hd => by
    simp [hknown d (List.mem_append_left _ hd)]
  have ha : after.countP (fun d => !d.known) = 0 := List.countP_eq_zero.2 fun d hd => by
    simp [hknown d (List.mem_append_right _ hd)]
  simp [unknownCount, hb, ha, hu]

theorem knownIrlen_of_one_unknown : knownIrlen (before ++ u :: after) = irlenSum (before ++ after) := by
  rw [knownIrlen, List.filter_append, List.filter_cons_of_neg (by simp [hu]), ← List.filter_append,
    List.filter_eq_self.2 hknown]

theorem inferIrlen_of_one_unknown {irt : Nat} (hshort : irlenSum (before ++ after) < irt) :
    inferIrlen (before ++ u :: after) irt =
      before ++ { u with irlen := irt - irlenSum (before ++ after), inferred := true } :: after := by
  have hsum := knownIrlen_of_one_unknown hu hknown
  rw [inferIrlen_of_shortfall (unknownCount_of_one_unknown hu hknown) (hsum ▸ hshort), hsum, List.map_append,
    List.map_cons, map_assign_of_known _ fun d hd => hknown d (List.mem_append_left _ hd),
    map_assign_of_known _ fun d hd => hknown d (List.mem_append_right _ hd), DevRec.assign, hu]
  rfl

end

theorem irMismatch_iff (ds : List DevRec) (irt : Nat) : irMismatch ds irt = true ↔ irlenSum ds ≠ irt := bne_iff_ne

theorem irMismatch_eq_decide (ds : List DevRec) (irt : Nat) : irMismatch ds irt = decide (irlenSum ds ≠ irt) :=
  Bool.eq_iff_iff.2 ((irMismatch_iff ds irt).trans decide_eq_true_iff.symm)

/-- Settles O43: with one unknown device the known lengths are those of all others, and the shortfall makes the sum. -/
theorem inferenceAssignsShortfall : Obligations.InferenceAssignsShortfall := by
  refine fun ds irt => ⟨fun before u after hds hu hknown hshort => ?_, inferIrlen_of_no_shortfall,
    irMismatch_iff ds irt⟩
  subst hds
  have hinfer := inferIrlen_of_one_unknown hu hknown hshort
  refine ⟨hinfer, ?_⟩
  rw [irlenSum_append] at hshort
  rw [hinfer, irlenSum_append, irlenSum_append, irlenSum_cons]
  dsimp only
  omega

end Sys2Proof.Machine
end

section
/-! CHAINSCAN in the chain family: its course once a probe has been answered, where the samples of each measurement
stand among its answers, and what it leaves when it ends and when a cycle fails. -/

namespace Sys2Proof.Machine

/-! ### The cycles up to the end of each probe -/

/-- The cycles of CHAINSCAN up to the end of the DR probe (42_chain.md R115). -/
def uptoDrProbe (p : Params) : List CycleReq := loadReqs p.tdiIdle p.flushSize ++ probeReqs p.tdiIdle p.flushSize .dr

/-- The cycles of CHAINSCAN up to the end of the IR probe. -/
def uptoIrProbe (p : Params) : List CycleReq := uptoDrProbe p ++ probeReqs p.tdiIdle p.flushSize .ir

/-- The cycles of CHAINSCAN after the IR probe: the second reset and the ID codes of `n` devices. -/
def idcodeReqs (p : Params) (n : Nat) : List CycleReq :=
  tmsReqs p.tdiIdle idleSeq ++ shiftReqs p.tdiIdle .idle .dr (BitBuffer.ones (32 * n)) true .idle

theorem chainscanReqs_eq_append (p : Params) (n : Nat) :
    chainscanReqs p.tdiIdle p.flushSize n = uptoIrProbe p ++ idcodeReqs p n := by
  rw [chainscanReqs_eq, List.append_assoc]; rfl

theorem uptoDrProbe_length (p : Params) : (uptoDrProbe p).length = 3 * p.flushSize + 18 := by
  rw [uptoDrProbe, List.length_append, loadReqs_length, probeReqs_dr_length]; omega

theorem uptoIrProbe_length (p : Params) : (uptoIrProbe p).length = 5 * p.flushSize + 25 := by
  rw [uptoIrProbe, List.length_append, uptoDrProbe_length, probeReqs_ir_length]; omega

theorem idcodeReqs_length (p : Params) (n : Nat) : (idcodeReqs p n).length = 32 * n + 11 := by
  have h1 : idleSeq.length = 6 := rfl
  have h2 : (rom .idle ScanReg.dr.shift).length = 3 := rfl
  have h3 : (rom ScanReg.dr.exit1 .idle).length = 2 := rfl
  rw [idcodeReqs, List.length_append, tmsReqs_length, shiftReqs_length, BitBuffer.ones_len, h1, h2, h3]; omega

/-! ### The samples among the answers -/

/-- The remainder of the DR probe, read out of the answers to CHAINSCAN's cycles. -/
def drRemainder (p : Params) (bs : List Bool) : BitBuffer :=
  (BitBuffer.ofBits ((bs.drop (p.flushSize + 15)).take (2 * p.flushSize + 1))).dropLsb p.flushSize

/-- The remainder of the IR probe. -/
def irRemainder (p : Params) (bs : List Bool) : BitBuffer :=
  (BitBuffer.ofBits ((bs.drop (3 * p.flushSize + 22)).take (2 * p.flushSize + 1))).dropLsb p.flushSize

/-- The ID-code capture of `n` devices. -/
def idCapture (p : Params) (n : Nat) (bs : List Bool) : BitBuffer :=
  BitBuffer.ofBits ((bs.drop (5 * p.flushSize + 34)).take (32 * n))

theorem take_drop_append {bs : List Bool} {i m : Nat} (h : i + m ≤ bs.length) (cs : List Bool) :
    ((bs ++ cs).drop i).take m = (bs.drop i).take m := by
  rw [List.drop_append_of_le_length (by omega), List.take_append_of_le_length (by rw [List.length_drop]; omega)]

/-- A part of a list, by the length of what stands before it. -/
theorem take_drop_eq {a b : List Bool} {i m : Nat} (ha : a.length = i) (hb : b.length = m) (c : List Bool) :
    ((a ++ b ++ c).drop i).take m = b := by
  rw [List.append_assoc, List.drop_left' ha, List.take_left' hb]

theorem drRemainder_of_samples {p : Params} {a drs : List Bool} (ha : a.length = p.flushSize + 15)
    (hdrs : drs.length = 2 * p.flushSize + 1) (c : List Bool) :
    drRemainder p (a ++ drs ++ c) = (BitBuffer.ofBits drs).dropLsb p.flushSize := by
  rw [drRemainder, take_drop_eq ha hdrs]

theorem irRemainder_of_samples {p : Params} {a irs : List Bool} (ha : a.length = 3 * p.flushSize + 22)
    (hirs : irs.length = 2 * p.flushSize + 1) (c : List Bool) :
    irRemainder p (a ++ irs ++ c) = (BitBuffer.ofBits irs).dropLsb p.flushSize := by
  rw [irRemainder, take_drop_eq ha hirs]

/-- The DR probe's remainder does not depend on later answers. -/
theorem drRemainder_append {p : Params} {bs : List Bool} (h : 3 * p.flushSize + 18 ≤ bs.length) (cs : List Bool) :
    drRemainder p (bs ++ cs) = drRemainder p bs := by
  rw [drRemainder, take_drop_append (by omega)]; rfl

/-- The IR probe's remainder does not depend on later answers. -/
theorem irRemainder_append {p : Params} {bs : List Bool} (h : 5 * p.flushSize + 25 ≤ bs.length) (cs : List Bool) :
    irRemainder p (bs ++ cs) = irRemainder p bs := by
  rw [irRemainder, take_drop_append (by omega)]; rfl

/-- The samples of a data shift, behind the answers `a` to the cycles before it. -/
theorem dataBits_eq_take_drop {t : TapState} {reg : ScanReg} {d : BitBuffer} {a cs : List Bool} {i : Nat}
    (hi : a.length + (rom t reg.shift).length = i) : dataBits t reg d cs = ((a ++ cs).drop i).take d.len := by
  rw [← hi, List.drop_length_add_append, dataBits]

theorem probeResult_dr {p : Params} {a cs : List Bool} (ha : a.length = p.flushSize + 12) :
    probeResult p.flushSize .dr cs = probeLength (drRemainder p (a ++ cs)) := by
  have h3 : (rom .idle ScanReg.dr.shift).length = 3 := rfl
  rw [probeResult, dataBits_eq_take_drop (a := a) (i := p.flushSize + 15) (by omega), flushPattern_len]; rfl

theorem probeResult_ir {p : Params} {a cs : List Bool} (ha : a.length = 3 * p.flushSize + 18) :
    probeResult p.flushSize .ir cs = probeLength (irRemainder p (a ++ cs)) := by
  have h4 : (rom .idle ScanReg.ir.shift).length = 4 := rfl
  rw [probeResult, dataBits_eq_take_drop (a := a) (i := 3 * p.flushSize + 22) (by omega), flushPattern_len]; rfl

theorem dataBits_idcodes {p : Params} {n : Nat} {a cs : List Bool} (ha : a.length = 5 * p.flushSize + 31) :
    BitBuffer.ofBits (dataBits .idle .dr (BitBuffer.ones (32 * n)) cs) = idCapture p n (a ++ cs) := by
  have h3 : (rom .idle ScanReg.dr.shift).length = 3 := rfl
  rw [dataBits_eq_take_drop (a := a) (i := 5 * p.flushSize + 34) (by omega), BitBuffer.ones_len]; rfl

/-! ### The course of CHAINSCAN -/

/-- Go on with what a measurement gave, or raise its error. -/
def Res.ofExcept {α : Type} (x : Except ErrorCode α) (s : State) : Res α :=
  match x with
  | .error e => .raised e s
  | .ok a => .done a s

theorem Res.ofExcept_ok {α : Type} (a : α) (s : State) : Res.ofExcept (.ok a) s = .done a s := rfl

/-- CHAINSCAN after an IR probe that measured `irt` bits. -/
def afterIrProbe (n irt : Nat) (s : State) : Res Unit :=
  (hardReset s).bind fun _ s5 =>
  (shiftData .dr (BitBuffer.ones (32 * n)) true .idle s5).bind fun c s6 =>
  .done () (s6.commitChain c n irt)

section
variable {s : State} {n irt : Nat} {rs pre : List CycleReq} {bs cs : List Bool} {r : CycleReq}

/-- CHAINSCAN once the DR probe has been answered. -/
theorem chainscanBody_of_dr (h : answers (uptoDrProbe s.params) s = some bs) :
    chainscanBody s = (Res.ofExcept (probeLength (drRemainder s.params bs))
      (s.clearChain.idleAfter (uptoDrProbe s.params) bs)).bind afterDrProbe := by
  obtain ⟨b1, b2, rfl, h1, h2⟩ := answers_append.1 h
  rw [chainscanBody_dr h1 h2, ← probeResult_dr (by rw [answers_length h1, loadReqs_length])]
  dsimp only
  cases probeResult s.params.flushSize .dr b2 with
  | error e => rfl
  | ok n => rfl

/-- CHAINSCAN once the IR probe of a chain of `n` devices has been answered. -/
theorem chainscanBody_of_ir (hn : 0 < n) (h : answers (uptoIrProbe s.params) s = some bs)
    (hdr : probeLength (drRemainder s.params bs) = .ok n) :
    chainscanBody s = (Res.ofExcept (probeLength (irRemainder s.params bs))
      (s.clearChain.idleAfter (uptoIrProbe s.params) bs)).bind (afterIrProbe n) := by
  obtain ⟨b1, b2, rfl, h1, h2⟩ := answers_append.1 h
  have hl := answers_length h1
  rw [drRemainder_append (hl.trans (uptoDrProbe_length s.params)).ge] at hdr
  rw [chainscanBody_of_dr h1, hdr, Res.ofExcept_ok, Res.bind_done,
    afterDrProbe_ir (s := s.clearChain) hn hl (answers_clearChain.trans h2),
    ← probeResult_ir (by rw [hl, uptoDrProbe_length])]
  dsimp only [State.clearChain_params]
  cases probeResult s.params.flushSize .ir b2 with
  | error e => rfl
  | ok irt => rfl

/-- The rest of CHAINSCAN once its cycles have been answered. -/
theorem afterIrProbe_ok (hn : 0 < n) (hl : bs.length = rs.length) (hbs : bs.length = 5 * s.params.flushSize + 25)
    (h : answers (idcodeReqs s.params n) (s.drove rs bs) = some cs) :
    afterIrProbe n irt (s.idleAfter rs bs) = .done ()
      ((s.idleAfter (rs ++ idcodeReqs s.params n) (bs ++ cs)).commitChain (idCapture s.params n (bs ++ cs)) n irt) := by
  obtain ⟨c1, c2, rfl, h1, h2⟩ := answers_append.1 h
  have hd : (BitBuffer.ones (32 * n)).len ≠ 0 := by rw [BitBuffer.ones_len]; omega
  have hl1 : (bs ++ c1).length = (rs ++ tmsReqs s.params.tdiIdle idleSeq).length := by
    rw [List.length_append, List.length_append, hl, answers_length h1]
  have h6 : idleSeq.length = 6 := rfl
  have hbs1 : (bs ++ c1).length = 5 * s.params.flushSize + 31 := by
    rw [List.length_append, hbs, answers_length h1, tmsReqs_length, h6]
  rw [State.drove_drove s hl] at h2
  rw [afterIrProbe, hardReset_idleAfter hl h1, Res.bind_done, shiftData_idleAfter hl1 .dr _ true hd h2, if_pos rfl,
    Res.bind_done, dataBits_idcodes hbs1, List.append_assoc, List.append_assoc, idcodeReqs]

/-- The rest of CHAINSCAN when one of its cycles fails. -/
theorem afterIrProbe_fail (hl : bs.length = rs.length)
    (h : failsAt (idcodeReqs s.params n) (s.drove rs bs) pre cs r) :
    afterIrProbe n irt (s.idleAfter rs bs) = .raised .cycleFail ((s.drove (rs ++ pre) (bs ++ cs)).failed r) := by
  rcases failsAt_append h with h1 | ⟨c1, pre2, c2, h1, rfl, rfl, h2⟩
  · rw [afterIrProbe, hardReset_idleAfter_fail hl h1, Res.bind_raised]
  · have hl1 : (bs ++ c1).length = (rs ++ tmsReqs s.params.tdiIdle idleSeq).length := by
      rw [List.length_append, List.length_append, hl, answers_length h1]
    rw [State.drove_drove s hl] at h2
    rw [afterIrProbe, hardReset_idleAfter hl h1, Res.bind_done, shiftData_idleAfter_fail hl1 h2, Res.bind_raised,
      List.append_assoc, List.append_assoc]

/-- CHAINSCAN when all its cycles are answered and each probe reads one marker. -/
theorem chainscanBody_ok (hn : 0 < n)
    (h : answers (chainscanReqs s.params.tdiIdle s.params.flushSize n) s = some bs)
    (hdr : probeLength (drRemainder s.params bs) = .ok n) (hir : probeLength (irRemainder s.params bs) = .ok irt) :
    chainscanBody s = .done ()
      ((s.clearChain.idleAfter (chainscanReqs s.params.tdiIdle s.params.flushSize n) bs).commitChain
        (idCapture s.params n bs) n irt) := by
  rw [chainscanReqs_eq_append] at h ⊢
  obtain ⟨b1, b2, rfl, h1, h2⟩ := answers_append.1 h
  have hl := answers_length h1
  have hb1 := hl.trans (uptoIrProbe_length s.params)
  rw [drRemainder_append (by omega)] at hdr
  rw [irRemainder_append hb1.ge] at hir
  rw [chainscanBody_of_ir hn h1 hdr, hir, Res.ofExcept_ok, Res.bind_done,
    afterIrProbe_ok (s := s.clearChain) hn hl hb1 (answers_clearChain.trans h2)]
  rfl

/-! ### A failed cycle -/

/-- A cycle up to the end of the DR probe fails. -/
theorem chainscanBody_fail_dr (h : failsAt (uptoDrProbe s.params) s pre bs r) :
    chainscanBody s = .raised .cycleFail ((s.clearChain.drove pre bs).failed r) := by
  rcases failsAt_append h with h1 | ⟨b1, pre2, b2, h1, rfl, rfl, h2⟩
  · exact chainscanBody_load_fail h1
  · exact chainscanBody_dr_fail h1 h2

/-- A cycle up to the end of the IR probe fails. -/
theorem chainscanBody_fail_ir (h : failsAt (uptoIrProbe s.params) s pre bs r)
    (hdr : 3 * s.params.flushSize + 18 ≤ pre.length → 0 < n ∧ probeLength (drRemainder s.params bs) = .ok n) :
    chainscanBody s = .raised .cycleFail ((s.clearChain.drove pre bs).failed r) := by
  rcases failsAt_append h with h1 | ⟨b1, pre2, b2, h1, rfl, rfl, h2⟩
  · exact chainscanBody_fail_dr h1
  · obtain ⟨hn, hp⟩ := hdr (by rw [List.length_append, uptoDrProbe_length]; omega)
    have hl := answers_length h1
    rw [drRemainder_append (hl.trans (uptoDrProbe_length s.params)).ge] at hp
    rw [chainscanBody_of_dr h1, hp, Res.ofExcept_ok, Res.bind_done,
      afterDrProbe_ir_fail (s := s.clearChain) hn hl (failsAt_clearChain h2)]

/-- A cycle of CHAINSCAN fails, after probes that read one marker each if it comes after them. -/
theorem chainscanBody_fail (h : failsAt (chainscanReqs s.params.tdiIdle s.params.flushSize n) s pre bs r)
    (hdr : 3 * s.params.flushSize + 18 ≤ pre.length → 0 < n ∧ probeLength (drRemainder s.params bs) = .ok n)
    (hir : 5 * s.params.flushSize + 25 ≤ pre.length → ∃ irt, probeLength (irRemainder s.params bs) = .ok irt) :
    chainscanBody s = .raised .cycleFail ((s.clearChain.drove pre bs).failed r) := by
  rw [chainscanReqs_eq_append] at h
  rcases failsAt_append h with h1 | ⟨b1, pre2, b2, h1, rfl, rfl, h2⟩
  · exact chainscanBody_fail_ir h1 hdr
  · have hl := answers_length h1
    have hb1 := hl.trans (uptoIrProbe_length s.params)
    obtain ⟨hn, hpdr⟩ := hdr (by rw [List.length_append, uptoIrProbe_length]; omega)
    obtain ⟨irt, hpir⟩ := hir (by rw [List.length_append, uptoIrProbe_length]; omega)
    rw [drRemainder_append (by omega)] at hpdr
    rw [irRemainder_append hb1.ge] at hpir
    rw [chainscanBody_of_ir hn h1 hpdr, hpir, Res.ofExcept_ok, Res.bind_done,
      afterIrProbe_fail (s := s.clearChain) hl (failsAt_clearChain h2)]

end

theorem exec_chainscan (s : State) : exec .chainscan s = complete (chainscanBody s).quiet := rfl

/-- Settles O60: the failed cycle lies in one of three parts of the discovery, and a part is reached when the probes
before it read one marker each. -/
theorem chainscanFailedCycle : Obligations.ChainscanFailedCycle := by
  intro s n pre bs r f h hdr hir
  rw [exec_chainscan, chainscanBody_fail h (fun hle => ?_) fun hle => ?_]
  · exact complete_lostCycle s.clearChain pre bs r
  · exact ⟨(hdr hle).1, (probeLength_ok_iff _ _).2 (hdr hle).2⟩
  · obtain ⟨irt, hval⟩ := hir hle
    exact ⟨irt, (probeLength_ok_iff _ _).2 hval⟩

/-! ### The chain table -/

/-- A CHAINSCAN all of whose cycles are answered and whose probes read one marker each. -/
theorem exec_chainscan_ok {s : State} {n irt : Nat} {bs : List Bool} (hn : 0 < n)
    (h : answers (chainscanReqs s.params.tdiIdle s.params.flushSize n) s = some bs)
    (hdr : probeLength (drRemainder s.params bs) = .ok n) (hir : probeLength (irRemainder s.params bs) = .ok irt) :
    exec .chainscan s = .next
      ((s.ranCycles (chainscanReqs s.params.tdiIdle s.params.flushSize n) bs .idle).commitChain
        (idCapture s.params n bs) n irt) := by
  rw [exec_chainscan, chainscanBody_ok hn h hdr hir, Res.quiet, Res.bind_done, complete_done]
  rfl

/-- Settles O44: the lengths say which of the answers are the samples of the two probes and of the ID codes. -/
theorem chainscanBuildsTable : Obligations.ChainscanBuildsTable := by
  intro s n irt g1 drs g2 irs g3 ids g4 f reqs hn hg1 hdrs hg2 hirs hg3 hids hg4 hdr hir h ds
  have hdrRem : drRemainder s.params (g1 ++ drs ++ g2 ++ irs ++ g3 ++ ids ++ g4) =
      (BitBuffer.ofBits drs).dropLsb f := by
    rw [List.append_assoc, List.append_assoc, List.append_assoc, List.append_assoc]
    exact drRemainder_of_samples hg1 hdrs _
  have hirRem : irRemainder s.params (g1 ++ drs ++ g2 ++ irs ++ g3 ++ ids ++ g4) =
      (BitBuffer.ofBits irs).dropLsb f := by
    rw [List.append_assoc, List.append_assoc]
    exact irRemainder_of_samples (by simp; omega) hirs _
  have hcapture : idCapture s.params n (g1 ++ drs ++ g2 ++ irs ++ g3 ++ ids ++ g4) = BitBuffer.ofBits ids :=
    congrArg _ (take_drop_eq (by simp; omega) hids g4)
  rw [exec_chainscan_ok hn h (hdrRem ▸ hdr) (hirRem ▸ hir), hcapture, State.commitChain, irMismatch_eq_decide]
  rfl

theorem buildDevices_idcodeBits (table : List DeviceEntry) (ids : List Word) (irt : Nat) :
    buildDevices table (BitBuffer.ofBits (idcodeBits ids)) ids.length irt =
      inferIrlen (ids.map (identify table)) irt := by
  rw [buildDevices, idcodes_idcodeBits]

/-- The records of a discovery have the ID codes it read. -/
theorem inferIrlen_identify_idcode (table : List DeviceEntry) (ids : List Word) (irt : Nat) :
    (inferIrlen (ids.map (identify table)) irt).map DevRec.idcode = ids := by
  rw [inferIrlen_idcode, List.map_map]
  exact (List.map_congr_left fun w _ => identify_idcode table w).trans (List.map_id' ids)

/-- Settles O45: the paths make the probes read the counts of their cells, so the table is built from the ID codes. -/
theorem chainscanMeasuresChain : Obligations.ChainscanMeasuresChain := by
  intro s ids drOld irOld g1 g2 g3 g4 f n hn hnf hirf hdrOld hg1 hg2 hg3 hg4 h
  have hdr : probeLength ((BitBuffer.ofBits (pathSamples drOld (flushPattern f))).dropLsb f) = .ok n :=
    hdrOld ▸ probeLength_pathSamples (hdrOld ▸ hnf)
  have hexec := chainscanBuildsTable s n irOld.length g1 _ g2 _ g3 (idcodeBits ids) g4 hn hg1
    (pathSamples_flushPattern_length drOld f) hg2 (pathSamples_flushPattern_length irOld f) hg3
    (idcodeBits_length ids) hg4 hdr (probeLength_pathSamples hirf) h
  rw [buildDevices_idcodeBits] at hexec
  exact ⟨_, hexec, rfl, rfl, rfl, inferIrlen_identify_idcode _ ids _, rfl, decide_eq_true_iff, rfl, rfl, rfl, rfl, rfl,
    rfl, rfl⟩

/-! ### PROTOCOL errors -/

/-- A CHAINSCAN that raised a PROTOCOL error when it had driven the cycles `rs`. -/
theorem exec_chainscan_protocol {s : State} {rs : List CycleReq} {bs : List Bool} {e : ErrorCode}
    (h : chainscanBody s = .raised e (s.clearChain.idleAfter rs bs)) (hk : e.kind = kindProtocol) :
    exec .chainscan s = .next (s.probeRefused rs bs e) := by
  rw [exec_chainscan, h, Res.quiet, Res.bind_raised, complete_protocol _ _ hk]
  rfl

/-- What a DR probe finds that ends CHAINSCAN: no marker, several, or a chain of no device. -/
theorem ofExcept_bind_afterDrProbe {b : BitBuffer} {e : ErrorCode} (h : (e = .flushNone ∧ b.val = 0) ∨
      (e = .flushMulti ∧ b.val ≠ 0 ∧ ∀ n, b.val ≠ 2 ^ n) ∨ (e = .noDevices ∧ b.val = 1)) (s : State) :
    (Res.ofExcept (probeLength b) s).bind afterDrProbe = .raised e s ∧ e.kind = kindProtocol := by
  rcases h with ⟨rfl, hval⟩ | ⟨rfl, hval⟩ | ⟨rfl, hval⟩
  · rw [(probeLength_flushNone_iff b).2 hval]; exact ⟨rfl, rfl⟩
  · rw [(probeLength_flushMulti_iff b).2 hval]; exact ⟨rfl, rfl⟩
  · rw [(probeLength_ok_iff b 0).2 hval]; exact ⟨rfl, rfl⟩

/-- What an IR probe finds that ends CHAINSCAN: no marker or several. -/
theorem ofExcept_bind_afterIrProbe {b : BitBuffer} {e : ErrorCode} (h : (e = .flushNone ∧ b.val = 0) ∨
      (e = .flushMulti ∧ b.val ≠ 0 ∧ ∀ n, b.val ≠ 2 ^ n)) (n : Nat) (s : State) :
    (Res.ofExcept (probeLength b) s).bind (afterIrProbe n) = .raised e s ∧ e.kind = kindProtocol := by
  rcases h with ⟨rfl, hval⟩ | ⟨rfl, hval⟩
  · rw [(probeLength_flushNone_iff b).2 hval]; exact ⟨rfl, rfl⟩
  · rw [(probeLength_flushMulti_iff b).2 hval]; exact ⟨rfl, rfl⟩

/-- Settles O47: the remainder of the probe decides how its course goes on. -/
theorem chainscanProtocolErrors : Obligations.ChainscanProtocolErrors := by
  intro s e f drReqs irReqs
  constructor
  · intro g1 drs g2 r hg1 hdrs hg2 hr h
    obtain ⟨hraised, hk⟩ := ofExcept_bind_afterDrProbe hr
      (s.clearChain.idleAfter (uptoDrProbe s.params) (g1 ++ drs ++ g2))
    refine exec_chainscan_protocol (rs := uptoDrProbe s.params) ?_ hk
    rw [chainscanBody_of_dr h, drRemainder_of_samples hg1 hdrs]
    exact hraised
  · intro n g1 drs g2 irs g3 r hn hg1 hdrs hg2 hirs hg3 hdr hr h
    obtain ⟨hraised, hk⟩ := ofExcept_bind_afterIrProbe hr n
      (s.clearChain.idleAfter (uptoIrProbe s.params) (g1 ++ drs ++ g2 ++ irs ++ g3))
    have hdrRem : drRemainder s.params (g1 ++ drs ++ g2 ++ irs ++ g3) = (BitBuffer.ofBits drs).dropLsb f := by
      rw [List.append_assoc, List.append_assoc]
      exact drRemainder_of_samples hg1 hdrs _
    refine exec_chainscan_protocol (rs := uptoIrProbe s.params) ?_ hk
    rw [chainscanBody_of_ir hn h (hdrRem ▸ (probeLength_ok_iff _ n).2 hdr),
      irRemainder_of_samples (by simp; omega) hirs]
    exact hraised

/-! ### How a CHAINSCAN ends -/

theorem Follows.sameChain {s t : State} (h : Follows s t) : sameChain s t := by
  rw [h.kept]; exact ⟨rfl, rfl, rfl, rfl, rfl⟩

/-- A CHAINSCAN that raised an error has recorded nothing else, and the table it cleared is still clear. -/
theorem chainscanBody_raised {s u : State} {e : ErrorCode} (h : chainscanBody s = .raised e u) :
    (e.kind = kindProtocol ∨ e.kind = kindTransport) ∧ u.errlog = s.errlog ∧ sameChain s.clearChain u := by
  have hspec := chainscanBody_spec s
  rw [h] at hspec
  rcases hspec with ⟨rfl, v, r, hf, rfl⟩ | ⟨he, hf⟩
  · exact ⟨.inr rfl, hf.running.errlog, hf.sameChain⟩
  · have hkind : ∀ x ∈ [ErrorCode.flushNone, .flushMulti, .noDevices], x.kind = kindProtocol := by decide
    exact ⟨.inl (hkind e he), hf.running.errlog, hf.sameChain⟩

/-- The two ways a CHAINSCAN ends: with the table of a chain of `n` devices, all its cycles driven, or with a record,
no table and the tracked state UNKNOWN. -/
theorem exec_chainscan_cases {s t : State} (h : exec .chainscan s = .next t) :
    (∃ n bs c irt, 0 < n ∧ answers (chainscanReqs s.params.tdiIdle s.params.flushSize n) s = some bs ∧
      t = (s.ranCycles (chainscanReqs s.params.tdiIdle s.params.flushSize n) bs .idle).commitChain c n irt) ∨
    (t.errlog ≠ s.errlog ∧ sameChain s.clearChain t ∧ t.tap = none) := by
  rw [exec_chainscan] at h
  cases hbody : chainscanBody s with
  | done a u =>
    obtain ⟨n, bs, c, irt, hn, hbs, rfl⟩ := chainscanBody_done hbody
    rw [hbody, Res.quiet, Res.bind_done, complete_done] at h
    cases h
    exact .inl ⟨n, bs, c, irt, hn, hbs, rfl⟩
  | raised e u =>
    obtain ⟨hk, hlog, hchain⟩ := chainscanBody_raised hbody
    rw [hbody] at h
    obtain rfl : (u.takeError e).endCommand (some e) = t := by simpa [Res.quiet, complete, finish] using h
    refine .inr ⟨?_, hchain, if_pos hk⟩
    simp [hlog]

/-- Settles O46: of the two ways a CHAINSCAN ends, one appends a record and the other does not. -/
theorem failedChainscanLeavesNoTable : Obligations.FailedChainscanLeavesNoTable := by
  intro s t h
  rcases exec_chainscan_cases h with ⟨n, bs, c, irt, hn, -, rfl⟩ | ⟨hlog, ⟨hv, hn, hirt, hmis, hdev⟩, htap⟩
  · exact ⟨fun hne => absurd rfl hne, fun _ => ⟨rfl, hn, buildDevices_length .., rfl⟩⟩
  · exact ⟨fun _ => ⟨hv, hn, hirt, hmis, hdev, htap⟩, fun heq => absurd heq hlog⟩

/-! ### The count of cycles -/

theorem tmsReqs_countP_sample (idle : Bool) (seq : List Bool) : (tmsReqs idle seq).countP CycleReq.sample = 0 :=
  List.countP_eq_zero.2 fun r hr => by
    obtain ⟨tms, -, rfl⟩ := List.mem_map.1 hr
    exact Bool.false_ne_true

/-- A data shift samples in its data cycles, if it captures (41_tap.md R103). -/
theorem shiftReqs_countP_sample (idle : Bool) (t fin : TapState) (reg : ScanReg) (d : BitBuffer) (capture : Bool) :
    (shiftReqs idle t reg d capture fin).countP CycleReq.sample = if capture then d.len else 0 := by
  have hdata : (dataReqs d capture).countP CycleReq.sample = (List.replicate d.len capture).countP id := by
    rw [← dataReqs_sample d capture, List.countP_map]; rfl
  rw [shiftReqs, List.countP_append, List.countP_append, tmsReqs_countP_sample, tmsReqs_countP_sample, hdata,
    List.countP_replicate]
  simp

theorem chainscanReqs_length (p : Params) (n : Nat) :
    (chainscanReqs p.tdiIdle p.flushSize n).length = 5 * p.flushSize + 32 * n + 36 := by
  rw [chainscanReqs_eq_append, List.length_append, uptoIrProbe_length, idcodeReqs_length]; omega

theorem chainscanReqs_countP_sample (idle : Bool) (f n : Nat) :
    (chainscanReqs idle f n).countP CycleReq.sample = (2 * f + 1) + (2 * f + 1) + 32 * n := by
  simp [chainscanReqs, List.countP_append, tmsReqs_countP_sample, shiftReqs_countP_sample, Nat.add_assoc]

/-- Settles O48: without a record the new events are those of all the cycles of the discovery. -/
theorem chainscanCycleCount : Obligations.ChainscanCycleCount := by
  intro s t h hlog f
  rcases exec_chainscan_cases h with ⟨n, bs, c, irt, -, hbs, rfl⟩ | ⟨hne, -⟩
  · obtain ⟨hlen, hclk, hsampled⟩ := clkEvents_counts (answers_length hbs)
    rw [newEvents_of_trace (ev := clkEvents _ bs) rfl, hlen, hsampled, chainscanReqs_length,
      chainscanReqs_countP_sample]
    exact ⟨rfl, hclk, rfl⟩
  · exact absurd hlog hne

end Sys2Proof.Machine
end

section
/-! The per-device commands of the chain family: the refusals before any cycle, the scan of an image, and the slice of
a capture that is the device's own. -/

namespace Sys2Proof.Machine

/-! ### Refusals -/

section
variable {k : Nat} {bits : BitBuffer} {s : State} {e : ErrorCode}

theorem checkChain_of_len_eq_zero (hlen : bits.len = 0) : checkChain bits s = some .zeroLength := if_pos hlen

theorem checkChain_of_tap_eq_none (hlen : bits.len ≠ 0) (htap : s.tap = none) :
    checkChain bits s = some .stateUnknown := by
  simp [checkChain, hlen, htap]

theorem checkChain_of_chainv_eq_false (hlen : bits.len ≠ 0) (htap : s.tap ≠ none) (hchain : s.chainv = false) :
    checkChain bits s = some .noChain := by
  have hknown : s.tap.isNone = false := Option.isNone_eq_false_iff.2 (Option.isSome_iff_ne_none.2 htap)
  simp [checkChain, hlen, hknown, hchain]

/-- A failed common check is the first failed check of DEVIR, and of DEVDRW and DEVDRRW. -/
theorem checkDev_of_checkChain (h : checkChain bits s = some e) :
    checkDevIr k bits s = some e ∧ checkDevDr k bits s = some e := by
  rw [checkDevIr, checkDevDr, h]; exact ⟨rfl, rfl⟩

theorem checkDev_of_ndev_le (hlen : bits.len ≠ 0) (htap : s.tap ≠ none) (hchain : s.chainv = true)
    (hk : s.ndev ≤ k) : checkDevIr k bits s = some .badDevice ∧ checkDevDr k bits s = some .badDevice := by
  rw [checkDevIr, checkDevDr, checkChain_ready hlen htap hchain]
  exact ⟨if_pos (.inl hk), if_pos hk⟩

theorem checkDevIr_of_irlen_eq_zero (h : deviceReady k bits s) (hir : s.irlen k = 0) :
    checkDevIr k bits s = some .badDevice := by
  obtain ⟨hlen, htap, hchain, -⟩ := h
  rw [checkDevIr, checkChain_ready hlen htap hchain]
  exact if_pos (.inr hir)

theorem checkDevIr_of_len_ne (h : deviceReady k bits s) (hir : s.irlen k ≠ 0) (hne : bits.len ≠ s.irlen k) :
    checkDevIr k bits s = some .lengthMismatch := by
  obtain ⟨hlen, htap, hchain, hk⟩ := h
  have hpass : ¬ (s.ndev ≤ k ∨ s.irlen k = 0) := not_or.2 ⟨Nat.not_le.2 hk, hir⟩
  rw [checkDevIr, checkChain_ready hlen htap hchain]
  exact (if_neg hpass).trans (if_pos hne)

end

/-- The errors of the device checks are FORMAT errors. -/
theorem kind_of_checkDevIr {k : Nat} {bits : BitBuffer} {s : State} {e : ErrorCode}
    (h : checkDevIr k bits s = some e) : e.kind = kindFormat := by
  have hformat : ∀ x ∈ [ErrorCode.zeroLength, .stateUnknown, .noChain, .badDevice, .lengthMismatch],
    x.kind = kindFormat := by decide
  exact hformat e (checkDevIr_error h)

theorem exec_devir_of_check {k : BitVec 16} {bits : BitBuffer} {s : State} {e : ErrorCode}
    (h : checkDevIr k.toNat bits s = some e) : exec (.devir k bits) s = .next (s.refusedWith e) := by
  have hbody : devirBody k.toNat bits s = .raised e s := by rw [devirBody, h]
  show complete (devirBody k.toNat bits s).quiet = _
  rw [hbody]
  exact complete_format s e (kind_of_checkDevIr h)

/-- A check that DEVIR shares with DEVDRW and DEVDRRW refuses all three. -/
theorem exec_device_of_check {k : BitVec 16} {bits : BitBuffer} {s : State} {e : ErrorCode}
    (h : checkDevIr k.toNat bits s = some e ∧ checkDevDr k.toNat bits s = some e) :
    ∀ i ∈ [Instr.devir k bits, .devdrw k bits, .devdrrw k bits], exec i s = .next (s.refusedWith e) := by
  obtain ⟨hir, hdr⟩ := h
  have hkind := kind_of_checkDevIr hir
  have hdrw : devdrwBody k.toNat bits s = .raised e s := by rw [devdrwBody, hdr]
  have hdrrw : devdrrwBody k.toNat bits s = .raised e s := by rw [devdrrwBody, hdr]
  simp only [List.forall_mem_cons, List.not_mem_nil, false_imp_iff, implies_true, and_true]
  refine ⟨exec_devir_of_check hir, ?_, ?_⟩
  · show complete (devdrwBody k.toNat bits s).quiet = _
    rw [hdrw]; exact complete_format s e hkind
  · show complete (devdrrwBody k.toNat bits s).quiet = _
    rw [hdrrw]; exact complete_format s e hkind

/-- Settles O49: each clause is the first check that fails, and a failed check is the whole command. -/
theorem deviceRefusals : Obligations.DeviceRefusals := by
  refine fun k bits s => ⟨fun i hi => ⟨fun hlen => ?_, fun hlen htap => ?_, fun hlen htap hchain => ?_,
    fun hlen htap hchain hk => ?_⟩, fun h hir => ?_, fun h hir hne => ?_⟩
  · exact exec_device_of_check (checkDev_of_checkChain (checkChain_of_len_eq_zero hlen)) i hi
  · exact exec_device_of_check (checkDev_of_checkChain (checkChain_of_tap_eq_none hlen htap)) i hi
  · exact exec_device_of_check (checkDev_of_checkChain (checkChain_of_chainv_eq_false hlen htap hchain)) i hi
  · exact exec_device_of_check (checkDev_of_ndev_le hlen htap hchain hk) i hi
  · exact exec_devir_of_check (checkDevIr_of_irlen_eq_zero h hir)
  · exact exec_devir_of_check (checkDevIr_of_len_ne h hir hne)

/-! ### The scan of an image -/

/-- A scan whose cycles are answered stands in its end state. -/
theorem shiftData_arrives {reg : ScanReg} {d : BitBuffer} {capture : Bool} {fin t : TapState} {s : State}
    {bs : List Bool} (ht : s.tap = some t) (hd : d.len ≠ 0)
    (h : answers (shiftReqs s.params.tdiIdle t reg d capture fin) s = some bs) :
    shiftData reg d capture fin s =
      .done (if capture then BitBuffer.ofBits (dataBits t reg d bs) else BitBuffer.empty)
        ((s.drove (shiftReqs s.params.tdiIdle t reg d capture fin) bs).setTap fin) := by
  have htap : (s.drove (shiftReqs s.params.tdiIdle t reg d capture fin) bs).tap = some fin := by
    rw [State.drove_tap, ht, Option.map_some, walk_shiftReqs _ _ _ _ _ _ hd]
  rw [shiftData_ok ht h, State.setTap, ← htap]

theorem irImage_len_ne_zero {k : Nat} {bits : BitBuffer} {s : State} (h : bits.len ≠ 0) :
    (s.irImage k bits).len ≠ 0 := by
  rw [irImage_len]; omega

theorem drImage_len_ne_zero {k : Nat} {bits : BitBuffer} {s : State} (h : bits.len ≠ 0) :
    (s.drImage k bits).len ≠ 0 := by
  rw [drImage_len]; omega

theorem exec_devir_of_ready {k : BitVec 16} {bits : BitBuffer} {s : State} (h : deviceReady k.toNat bits s)
    (hlen : bits.len = s.irlen k.toNat) : exec (.devir k bits) s =
      complete ((shiftData .ir (s.irImage k.toNat bits) false s.endir s).bind fun _ s1 => .done () s1).quiet := by
  show complete (devirBody k.toNat bits s).quiet = _
  rw [devirBody, checkDevIr_ready h hlen]

theorem exec_devdrw_of_ready {k : BitVec 16} {bits : BitBuffer} {s : State} (h : deviceReady k.toNat bits s) :
    exec (.devdrw k bits) s =
      complete ((shiftData .dr (s.drImage k.toNat bits) false s.enddr s).bind fun _ s1 => .done () s1).quiet := by
  show complete (devdrwBody k.toNat bits s).quiet = _
  rw [devdrwBody, checkDevDr_ready h]

theorem exec_devdrrw_of_ready {k : BitVec 16} {bits : BitBuffer} {s : State} (h : deviceReady k.toNat bits s) :
    exec (.devdrrw k bits) s =
      complete ((shiftData .dr (s.drImage k.toNat bits) true s.enddr s).bind fun c s1 =>
        .done () { s1 with capbuf := c, rdbuf := s1.drSlice k.toNat c }).quiet := by
  show complete (devdrrwBody k.toNat bits s).quiet = _
  rw [devdrrwBody, checkDevDr_ready h]

/-- Settles O52: past its checks DEVIR is the scan of its image, which is answered or fails. -/
theorem devirWritesInstruction : Obligations.DevirWritesInstruction := by
  refine fun k bits s t hready hlen ht => ⟨fun bs h => ?_, fun pre bs r h => ?_⟩
  · rw [exec_devir_of_ready hready hlen, shiftData_arrives ht (irImage_len_ne_zero hready.1) h]
    exact complete_ranCycles s _ bs s.endir
  · rw [exec_devir_of_ready hready hlen, shiftData_fail ht h]
    exact complete_lostCycle s pre bs r

/-- Settles O53: past its checks DEVDRW is the scan of its image, which is answered or fails. -/
theorem devdrwWritesData : Obligations.DevdrwWritesData := by
  refine fun k bits s t hready ht => ⟨fun bs h => ?_, fun pre bs r h => ?_⟩
  · rw [exec_devdrw_of_ready hready, shiftData_arrives ht (drImage_len_ne_zero hready.1) h]
    exact complete_ranCycles s _ bs s.enddr
  · rw [exec_devdrw_of_ready hready, shiftData_fail ht h]
    exact complete_lostCycle s pre bs r

/-! ### The device's slice -/

/-- Stripping `k` bits at the end and NDEV - 1 - k bits at the start of a capture leaves what stands between them
(42_chain.md R121). -/
theorem drSlice_ofBits {s : State} {k : Nat} {after own before : List Bool}
    (hafter : after.length = s.ndev - 1 - k) (hbefore : before.length = k) :
    s.drSlice k (BitBuffer.ofBits (after ++ own ++ before)) = BitBuffer.ofBits own := by
  have hlen : (after ++ own ++ before).length - k = (after ++ own).length := by
    rw [List.length_append, hbefore, Nat.add_sub_cancel]
  apply BitBuffer.eq_of_bits
  rw [State.drSlice, BitBuffer.dropLsb_bits, BitBuffer.dropMsb_bits, BitBuffer.ofBits_bits, BitBuffer.ofBits_bits,
    BitBuffer.ofBits_len, hlen, List.take_left, ← hafter, List.drop_left]

/-- Settles O54: the samples of the data cycles are the whole capture, and the middle of them is the slice. -/
theorem devdrrwReadsDeviceSlice : Obligations.DevdrrwReadsDeviceSlice := by
  refine fun k bits s t hready ht => ⟨fun g1 after own before g2 => ?_, fun pre bs r h => ?_⟩
  · intro bs hg1 hafter hown hbefore h
    have hbs : bs = g1 ++ (after ++ own ++ before) ++ g2 := by simp only [bs, List.append_assoc]
    have hlen : (after ++ own ++ before).length = (s.drImage k.toNat bits).len := by
      rw [drImage_len, State.drBefore, State.drAfter, List.length_append, List.length_append, hafter, hown, hbefore]
      omega
    have hdata : dataBits t .dr (s.drImage k.toNat bits) bs = after ++ own ++ before := by
      rw [hbs]; exact dataBits_append hg1 hlen
    rw [exec_devdrrw_of_ready hready, shiftData_arrives ht (drImage_len_ne_zero hready.1) h, hdata, if_pos rfl,
      Res.bind_done, drSlice_ofBits ?_ hbefore, Res.quiet, Res.bind_done, complete_done]
    · rfl
    · exact hafter
  · rw [exec_devdrrw_of_ready hready, shiftData_fail ht h]
    exact complete_lostCycle s pre bs r

end Sys2Proof.Machine
end

section
/-! The SVF scans and header directives: the comparator, the first check that refuses a scan, and the scan that passes
them, with and without TDO. What SIR and SDR have in common is said once, of a scan on a register path. -/

namespace Sys2Proof.Machine

/-! ### The comparator -/

theorem verify_of_eq {c e m : BitBuffer} (h : c.val &&& m.val = e.val &&& m.val) : verify c e m = none :=
  if_pos (beq_iff_eq.2 h)

theorem verify_of_ne {c e m : BitBuffer} (h : c.val &&& m.val ≠ e.val &&& m.val) :
    verify c e m = some .tdoMismatch :=
  if_neg fun hb => h (beq_iff_eq.1 hb)

theorem verify_eq_none_iff (c e m : BitBuffer) : verify c e m = none ↔ c.val &&& m.val = e.val &&& m.val := by
  refine ⟨fun h => ?_, verify_of_eq⟩
  by_contra hne
  exact absurd ((verify_of_ne hne).symm.trans h) (Option.some_ne_none _)

/-- Settles O37: two masked values are equal when their bits are, and a masked bit is the bit where the mask has a 1. -/
theorem maskSelectsComparedBits : Obligations.MaskSelectsComparedBits := by
  intro c e m
  have hbits : c.val &&& m.val = e.val &&& m.val ↔ ∀ i, (c.bit i && m.bit i) = (e.bit i && m.bit i) := by
    simp only [BitBuffer.bit, ← Nat.testBit_and]
    exact ⟨fun h i => by rw [h], Nat.eq_of_testBit_eq⟩
  rw [verify_eq_none_iff, hbits]
  exact forall_congr' fun i => by cases m.bit i <;> simp

/-! ### Headers and trailers -/

theorem exec_padding {n : BitVec 16} {s : State} {i : Instr} (h : i ∈ [Instr.hdr n, .tdr n, .hir n, .tir n]) :
    exec i s = complete (paddingBody n s) := by
  simp only [List.mem_cons, List.not_mem_nil, or_false] at h
  obtain rfl | rfl | rfl | rfl := h <;> rfl

/-- Settles O32: the four commands share one body, which tests the length and nothing else. -/
theorem paddingLengthsOnlyZero : Obligations.PaddingLengthsOnlyZero := by
  refine fun n s i hi => ⟨fun hn => ?_, fun hn => ?_⟩
  · rw [exec_padding hi, paddingBody, if_pos hn, complete_done]
  · rw [exec_padding hi, paddingBody, if_neg hn]
    exact complete_format s .unsupportedHeader rfl

/-! ### SIR and SDR as scans of their register path -/

/-- The scan command of a register path. -/
def scanInstr : ScanReg → BitBuffer → Option BitBuffer → Option BitBuffer → Option BitBuffer → Instr
  | .ir => .sir
  | .dr => .sdr

theorem exec_scanInstr (reg : ScanReg) (tdi : BitBuffer) (smask tdo mask : Option BitBuffer) (s : State) :
    exec (scanInstr reg tdi smask tdo mask) s = complete (scanBody reg tdi smask tdo mask s) := by
  cases reg <;> rfl

theorem exists_scanInstr {tdi : BitBuffer} {smask tdo mask : Option BitBuffer} {i : Instr}
    (h : i ∈ [Instr.sir tdi smask tdo mask, .sdr tdi smask tdo mask]) :
    ∃ reg, i = scanInstr reg tdi smask tdo mask := by
  obtain rfl | rfl := List.mem_pair.1 h
  · exact ⟨.ir, rfl⟩
  · exact ⟨.dr, rfl⟩

/-! ### Refusals -/

section
variable {tdi : BitBuffer} {smask tdo mask : Option BitBuffer} {s : State} {e : ErrorCode}

theorem checkScan_of_mask_without_tdo (hmask : mask ≠ none) (htdo : tdo = none) :
    checkScan tdi smask tdo mask s = some .badPayload := by
  simp [checkScan, Option.isSome_iff_ne_none.2 hmask, htdo]

/-- The test of the first check fails when a MASK comes with a TDO. -/
theorem mask_without_tdo_eq_false (hpay : mask ≠ none → tdo ≠ none) : (mask.isSome && tdo.isNone) = false := by
  cases mask with
  | none => rfl
  | some m => exact Option.isNone_eq_false_iff.2 (Option.isSome_iff_ne_none.2 (hpay (Option.some_ne_none m)))

theorem checkScan_of_len_eq_zero (hpay : mask ≠ none → tdo ≠ none) (hlen : tdi.len = 0) :
    checkScan tdi smask tdo mask s = some .zeroLength := by
  simp [checkScan, mask_without_tdo_eq_false hpay, hlen]

theorem checkScan_of_len_ne (hpay : mask ≠ none → tdo ≠ none) (hlen : tdi.len ≠ 0)
    (hne : ∃ x, (smask = some x ∨ tdo = some x ∨ mask = some x) ∧ x.len ≠ tdi.len) :
    checkScan tdi smask tdo mask s = some .lengthMismatch := by
  obtain ⟨x, hx, hxlen⟩ := hne
  have hagree : lengthsAgree tdi.len smask tdo mask = false :=
    Bool.eq_false_iff.2 fun h => hxlen ((lengthsAgree_iff _ _ _ _).1 h x hx)
  simp [checkScan, mask_without_tdo_eq_false hpay, hlen, hagree]

theorem checkScan_of_tap_eq_none (hpay : mask ≠ none → tdo ≠ none) (hlen : tdi.len ≠ 0)
    (hagree : ∀ x, smask = some x ∨ tdo = some x ∨ mask = some x → x.len = tdi.len) (htap : s.tap = none) :
    checkScan tdi smask tdo mask s = some .stateUnknown := by
  simp [checkScan, mask_without_tdo_eq_false hpay, hlen, (lengthsAgree_iff _ _ _ _).2 hagree, htap]

/-- The errors of CheckScan are FORMAT errors. -/
theorem kind_of_checkScan (h : checkScan tdi smask tdo mask s = some e) : e.kind = kindFormat := by
  obtain rfl | rfl | rfl | rfl := checkScan_error h <;> rfl

/-- A failed check is the whole command. -/
theorem exec_scan_of_check (reg : ScanReg) (h : checkScan tdi smask tdo mask s = some e) :
    exec (scanInstr reg tdi smask tdo mask) s = .next (s.refusedWith e) := by
  have hbody : scanBody reg tdi smask tdo mask s = .raised e s := by simp only [scanBody, h]
  rw [exec_scanInstr, hbody]
  exact complete_format s e (kind_of_checkScan h)

end

/-- Past its checks a scan with TDO resolves its mask and verifies. -/
theorem exec_scan_verifying (reg : ScanReg) {tdi e : BitBuffer} {smask mask : Option BitBuffer} {s : State}
    (hready : scanReady tdi smask (some e) mask s) :
    exec (scanInstr reg tdi smask (some e) mask) s = complete (scanAndVerify reg tdi e mask s) := by
  rw [exec_scanInstr, scanBody, checkScan_ready hready]

/-- NO_STICKY_MASK is fatal: its refusal sets ABORTED whatever STRICT is (60_exceptions.md R153). -/
theorem refusedWith_noStickyMask (s : State) :
    s.refusedWith .noStickyMask = { s.refusedWith .noStickyMask with aborted := true } := by
  have hfatal : ErrorCode.noStickyMask.fatal = true := rfl
  simp [State.refusedWith, hfatal]

theorem exec_scan_of_no_mask (reg : ScanReg) {tdi e : BitBuffer} {smask mask : Option BitBuffer} {s : State}
    (hready : scanReady tdi smask (some e) mask s) (hused : usedMask mask tdi.len s = none) :
    exec (scanInstr reg tdi smask (some e) mask) s =
      .next { s.refusedWith .noStickyMask with aborted := true } := by
  rw [exec_scan_verifying reg hready, scanAndVerify, (resolveMask_none hused).2, ← refusedWith_noStickyMask]
  exact complete_format s .noStickyMask rfl

/-- Settles O33: each clause is the first check that fails, and past the checks the mask that cannot be resolved. -/
theorem scanRefusals : Obligations.ScanRefusals := by
  intro tdi smask tdo mask s i hi
  obtain ⟨reg, rfl⟩ := exists_scanInstr hi
  refine ⟨fun hmask htdo => ?_, fun hpay hlen => ?_, fun hpay hlen hne => ?_, fun hpay hlen hagree htap => ?_,
    fun hready htdo hused => ?_⟩
  · exact exec_scan_of_check reg (checkScan_of_mask_without_tdo hmask htdo)
  · exact exec_scan_of_check reg (checkScan_of_len_eq_zero hpay hlen)
  · exact exec_scan_of_check reg (checkScan_of_len_ne hpay hlen hne)
  · exact exec_scan_of_check reg (checkScan_of_tap_eq_none hpay hlen hagree htap)
  · obtain ⟨e, rfl⟩ := Option.ne_none_iff_exists'.1 htdo
    exact exec_scan_of_no_mask reg hready hused

/-! ### SMASK -/

/-- An SMASK of the length of TDI passes the one check that reads it. -/
theorem checkScan_smask {tdi sm : BitBuffer} (h : sm.len = tdi.len) (tdo mask : Option BitBuffer) (s : State) :
    checkScan tdi (some sm) tdo mask s = checkScan tdi none tdo mask s := by
  have hagree : lengthsAgree tdi.len (some sm) tdo mask = lengthsAgree tdi.len none tdo mask := by
    simp [lengthsAgree, h]
  rw [checkScan, hagree, checkScan]

theorem exec_scan_smask (reg : ScanReg) {tdi sm : BitBuffer} (h : sm.len = tdi.len) (tdo mask : Option BitBuffer)
    (s : State) :
    exec (scanInstr reg tdi (some sm) tdo mask) s = exec (scanInstr reg tdi none tdo mask) s := by
  simp only [exec_scanInstr, scanBody, checkScan_smask h]

/-- Settles O38: only the length check reads an SMASK. -/
theorem smaskIgnored : Obligations.SmaskIgnored := by
  refine fun tdi sm tdo mask s => ⟨fun h => ?_, fun hne hlen hpay => ?_⟩
  · exact ⟨exec_scan_smask .ir h tdo mask s, exec_scan_smask .dr h tdo mask s⟩
  · have hcheck : checkScan tdi (some sm) tdo mask s = some .lengthMismatch :=
      checkScan_of_len_ne hpay hlen ⟨sm, .inl rfl, hne⟩
    exact ⟨exec_scan_of_check .ir hcheck, exec_scan_of_check .dr hcheck⟩

/-! ### Scans without TDO -/

theorem scanReady.len_ne_zero {tdi : BitBuffer} {smask tdo mask : Option BitBuffer} {s : State}
    (h : scanReady tdi smask tdo mask s) : tdi.len ≠ 0 := by
  obtain ⟨-, hlen, -, -⟩ := h
  exact hlen

section
variable (reg : ScanReg) {tdi : BitBuffer} {smask : Option BitBuffer} {s : State} {t : TapState}
  (hready : scanReady tdi smask none none s)
include hready

theorem exec_write_scan : exec (scanInstr reg tdi smask none none) s =
    complete ((shiftData reg tdi false (s.endState reg) s).bind fun _ s1 => .done none s1) := by
  rw [exec_scanInstr, scanBody, checkScan_ready hready]

theorem exec_write_scan_ok (ht : s.tap = some t) {bs : List Bool}
    (h : answers (shiftReqs s.params.tdiIdle t reg tdi false (s.endState reg)) s = some bs) :
    exec (scanInstr reg tdi smask none none) s =
      .next (s.ranCycles (shiftReqs s.params.tdiIdle t reg tdi false (s.endState reg)) bs (s.endState reg)) := by
  rw [exec_write_scan reg hready, shiftData_arrives ht hready.len_ne_zero h, Res.bind_done, complete_done]
  rfl

theorem exec_write_scan_fail (ht : s.tap = some t) {pre : List CycleReq} {bs : List Bool} {r : CycleReq}
    (h : failsAt (shiftReqs s.params.tdiIdle t reg tdi false (s.endState reg)) s pre bs r) :
    exec (scanInstr reg tdi smask none none) s = .next (s.lostCycle pre bs r) := by
  rw [exec_write_scan reg hready, shiftData_fail ht h, Res.bind_raised, complete_fail]

end

/-- Settles O34: past its checks a scan without TDO is the shift of its operand, which is answered or fails. -/
theorem writeOnlyScan : Obligations.WriteOnlyScan := fun _ _ _ _ hready ht =>
  ⟨fun _ h => exec_write_scan_ok .ir hready ht h, fun _ h => exec_write_scan_ok .dr hready ht h,
    fun _ _ _ h => exec_write_scan_fail .ir hready ht h, fun _ _ _ h => exec_write_scan_fail .dr hready ht h⟩

/-! ### Scans with TDO -/

/-- A course that ends with the comparator's report: a record exactly when the masked values differ, and then an
abort under STRICT (43_svf_scan.md R126, R130). -/
theorem complete_verify (c e m : BitBuffer) (s : State) :
    complete (.done (verify c e m) s) = .next { s with
      errlog := if c.val &&& m.val ≠ e.val &&& m.val then s.errlog ++ [⟨s.seq, .tdoMismatch⟩] else s.errlog
      seq := s.seq + 1
      aborted := s.aborted || (decide (c.val &&& m.val ≠ e.val &&& m.val) && s.strict) } := by
  by_cases h : c.val &&& m.val = e.val &&& m.val
  · rw [verify_of_eq h, complete_done]; simp [h]
  · rw [verify_of_ne h, complete_mismatch]; simp [h]

section
variable (reg : ScanReg) {tdi e m : BitBuffer} {smask mask : Option BitBuffer} {s : State} {t : TapState}
  (hready : scanReady tdi smask (some e) mask s) (hused : usedMask mask tdi.len s = some m)
include hready hused

/-- The mask is stored before the first cycle, so the shift starts in the state with the mask. -/
theorem exec_capturing_scan : exec (scanInstr reg tdi smask (some e) mask) s =
    complete ((shiftData reg tdi true (s.endState reg) (s.withMask mask)).bind fun c s2 =>
      .done (verify c e m) { s2 with capbuf := c }) := by
  rw [exec_scan_verifying reg hready, scanAndVerify, resolveMask_some hused, Res.bind_done]
  cases reg <;> rfl

theorem exec_capturing_scan_ok (ht : s.tap = some t) {bs : List Bool}
    (h : answers (shiftReqs s.params.tdiIdle t reg tdi true (s.endState reg)) s = some bs) :
    let c := BitBuffer.ofBits (dataBits t reg tdi bs)
    let bad := c.val &&& m.val ≠ e.val &&& m.val
    exec (scanInstr reg tdi smask (some e) mask) s = .next
      { s.ranCycles (shiftReqs s.params.tdiIdle t reg tdi true (s.endState reg)) bs (s.endState reg) with
        capbuf := c
        mask := if mask = none then s.mask else mask
        errlog := if bad then s.errlog ++ [⟨s.seq, .tdoMismatch⟩] else s.errlog
        aborted := s.aborted || (decide bad && s.strict) } := by
  have hmask : answers (shiftReqs s.params.tdiIdle t reg tdi true (s.endState reg)) (s.withMask mask) = some bs :=
    (answers_congr (s := s.withMask mask) (t := s) rfl rfl rfl _).trans h
  rw [exec_capturing_scan reg hready hused, shiftData_arrives (s := s.withMask mask) ht hready.len_ne_zero hmask,
    if_pos rfl, Res.bind_done, complete_verify]
  rfl

theorem exec_capturing_scan_fail (ht : s.tap = some t) {pre : List CycleReq} {bs : List Bool} {r : CycleReq}
    (h : failsAt (shiftReqs s.params.tdiIdle t reg tdi true (s.endState reg)) s pre bs r) :
    exec (scanInstr reg tdi smask (some e) mask) s =
      .next { s.lostCycle pre bs r with mask := if mask = none then s.mask else mask } := by
  have hmask : failsAt (shiftReqs s.params.tdiIdle t reg tdi true (s.endState reg)) (s.withMask mask) pre bs r :=
    failsAt_congr (s := s) (t := s.withMask mask) rfl rfl rfl h
  rw [exec_capturing_scan reg hready hused, shiftData_fail (s := s.withMask mask) ht hmask, Res.bind_raised,
    complete_fail]
  rfl

end

/-- Settles O35: past its checks a scan with TDO is the sampled shift from the state with its mask, then the
comparator's report on the capture. -/
theorem capturingScan : Obligations.CapturingScan := by
  rintro reg tdi e m smask mask s t fin i bs (⟨rfl, rfl, rfl⟩ | ⟨rfl, rfl, rfl⟩) hready ht hused h
  · exact exec_capturing_scan_ok .ir hready hused ht h
  · exact exec_capturing_scan_ok .dr hready hused ht h

/-- Settles O36: the failed cycle ends the shift, when the mask is stored and CAPBUF not yet written. -/
theorem failedCapturingScan : Obligations.FailedCapturingScan := by
  rintro reg tdi e m smask mask s t fin i pre bs r (⟨rfl, rfl, rfl⟩ | ⟨rfl, rfl, rfl⟩) hready ht hused h
  · exact exec_capturing_scan_fail .ir hready hused ht h
  · exact exec_capturing_scan_fail .dr hready hused ht h

end Sys2Proof.Machine
end

section
/-! The SVF control directives: STATE and RUNTEST through the move they share with GOTO, the wait of RUNTEST as a shift
and then an event, and the directives that write one register. -/

namespace Sys2Proof.Machine

/-! ### STATE -/

/-- STATE of a state other than RESET is GOTO (44_svf_control.md R138, 41_tap.md R106). -/
theorem exec_state_of_ne_reset {st : TapState} (hst : st ≠ .reset) (s : State) :
    exec (.state st) s = exec (.goto st) s := by
  show complete (stateBody st s).quiet = complete (moveTo st s).quiet
  rw [stateBody, if_neg hst]

theorem exec_state_reset (s : State) :
    exec (.state .reset) s =
      complete ((shiftTMS resetSeq s).bind fun _ s1 => .done () (s1.setTap .reset)).quiet := rfl

/-- Settles O26: STATE RESET is the shift of RESETSEQ, and STATE of another state is GOTO of it. -/
theorem stateMovesTap : Obligations.StateMovesTap := by
  refine fun st s => ⟨fun hst ht => ?_, fun hk => ?_⟩
  · rw [exec_state_of_ne_reset hst]
    exact (gotoMovesAlongRom st s).1 ht hst
  by_cases hst : st = .reset
  · subst hst
    refine ⟨fun bs (h : answers (tmsReqs s.params.tdiIdle resetSeq) s = some bs) => ?_,
      fun pre bs r (h : failsAt (tmsReqs s.params.tdiIdle resetSeq) s pre bs r) => ?_⟩
    · rw [exec_state_reset, shiftTMS_ok h, Res.bind_done]
      exact complete_ranCycles s _ bs .reset
    · rw [exec_state_reset, shiftTMS_fail h, Res.bind_raised, complete_lostCycle]
  · simp only [if_neg hst, exec_state_of_ne_reset hst]
    exact (gotoMovesAlongRom st s).2 fun ht => absurd ht (hk hst)

/-! ### RUNTEST: refusals -/

theorem mem_stable_iff (t : TapState) : t ∈ [TapState.reset, .idle, .drpause, .irpause] ↔ t.stable = true := by
  cases t <;> decide

theorem exec_runtest (st : Option TapState) (n : Word) (s : State) :
    exec (.runtest st n) s = complete (runtestBody st n.toNat s).quiet := rfl

/-- A RUNTEST whose body raises a FORMAT error before any cycle. -/
theorem exec_runtest_of_raised {st : Option TapState} {n : Word} {s : State} {e : ErrorCode}
    (hbody : runtestBody st n.toNat s = .raised e s) (hkind : e.kind = kindFormat) :
    exec (.runtest st n) s = .next (s.refusedWith e) := by
  rw [exec_runtest, hbody]
  exact complete_format s e hkind

theorem runtestBody_some {t : TapState} (ht : t.stable = true) (n : Nat) (s : State) :
    runtestBody (some t) n s = (moveTo t s).bind fun _ s1 => dwell t n s1 := by
  simp [runtestBody, ht]

theorem runtestBody_some_of_not_stable {t : TapState} (ht : ¬ t.stable = true) (n : Nat) (s : State) :
    runtestBody (some t) n s = .raised .badState s := by
  simp [runtestBody, ht]

theorem runtestBody_none {t : TapState} (ht : t.stable = true) (n : Nat) {s : State} (hs : s.tap = some t) :
    runtestBody none n s = dwell t n s := by
  simp [runtestBody, hs, ht]

theorem runtestBody_none_of_not_stable {t : TapState} (ht : ¬ t.stable = true) (n : Nat) {s : State}
    (hs : s.tap = some t) : runtestBody none n s = .raised .badState s := by
  simp [runtestBody, hs, ht]

theorem runtestBody_none_of_unknown (n : Nat) {s : State} (hs : s.tap = none) :
    runtestBody none n s = .raised .stateUnknown s := by
  simp [runtestBody, hs]

/-- Settles O27: a given state is tested before the move that may be refused, the tracked state before the wait. -/
theorem runtestRefusals : Obligations.RuntestRefusals := by
  refine fun st n s => ⟨?_, ?_, ?_, ?_⟩
  · rintro t rfl ht
    rw [mem_stable_iff] at ht
    exact exec_runtest_of_raised (runtestBody_some_of_not_stable ht n.toNat s) rfl
  · rintro t rfl ht hreset hs
    have hbody : runtestBody (some t) n.toNat s = .raised .stateUnknown s := by
      rw [runtestBody_some ((mem_stable_iff t).1 ht), moveTo_unknown hs hreset, Res.bind_raised]
    exact exec_runtest_of_raised hbody rfl
  · rintro rfl hs
    exact exec_runtest_of_raised (runtestBody_none_of_unknown n.toNat hs) rfl
  · rintro t rfl hs ht
    rw [mem_stable_iff] at ht
    exact exec_runtest_of_raised (runtestBody_none_of_not_stable ht n.toNat hs) rfl

/-! ### RUNTEST: the wait -/

/-- The TMS levels of a wait of `n` periods in the stable state `t`: those that hold it, under RUNTEST_CLOCKS. -/
def holdTms (p : Params) (t : TapState) (n : Nat) : List Bool :=
  if p.runtestClocks then List.replicate n t.hold else []

/-- The events of a wait of `n` periods other than those of its cycles: one `Dwell` of a count other than 0, without
RUNTEST_CLOCKS. -/
def dwellEvents (p : Params) (n : Nat) : List PinEvent :=
  if p.runtestClocks = false ∧ n ≠ 0 then [.dwell n] else []

/-- `s` with events appended that are not those of cycles. -/
def State.withEvents (s : State) (ev : List PinEvent) : State := { s with trace := s.trace ++ ev }

theorem State.withEvents_nil (s : State) : s.withEvents [] = s := by
  rw [State.withEvents, List.append_nil]

theorem walk_holdTms {t : TapState} (ht : t.stable = true) (p : Params) (n : Nat) : walk t (holdTms p t n) = t := by
  unfold holdTms
  split
  · exact walk_hold ht n
  · rfl

theorem shiftTMS_nil (s : State) : shiftTMS [] s = .done () s := rfl

/-- A wait is a shift and then an event, of which a setting of RUNTEST_CLOCKS leaves one empty, and a count of 0
both. -/
theorem dwell_eq (t : TapState) (n : Nat) (s : State) :
    dwell t n s = (shiftTMS (holdTms s.params t n) s).bind fun _ s1 =>
      .done () (s1.withEvents (dwellEvents s.params n)) := by
  by_cases hn : n = 0
  · simp [dwell, holdTms, dwellEvents, hn, shiftTMS_nil, State.withEvents_nil]
  cases hc : s.params.runtestClocks with
  | false => simp [dwell, holdTms, dwellEvents, hn, hc, shiftTMS_nil, State.withEvents]
  | true =>
    simp only [dwell, holdTms, dwellEvents, hn, hc, if_true, if_false, State.withEvents_nil, reduceCtorEq, false_and]
    cases shiftTMS (List.replicate n t.hold) s <;> rfl

/-! ### RUNTEST: the move and the wait -/

/-- The environment does not see the tracked state. -/
theorem answers_setTap (rs : List CycleReq) (s : State) (t : TapState) :
    answers rs (s.setTap t) = answers rs s :=
  answers_congr (s := s.setTap t) (t := s) rfl rfl rfl rs

theorem failsAt_setTap {rs pre : List CycleReq} {s : State} {bs : List Bool} {r : CycleReq}
    (h : failsAt rs s pre bs r) (t : TapState) : failsAt rs (s.setTap t) pre bs r :=
  failsAt_congr (s := s) (t := s.setTap t) rfl rfl rfl h

/-- The move to where the tracked state is drives nothing. -/
theorem moveTo_self {t : TapState} {s : State} (hs : s.tap = some t) : moveTo t s = .done () s := by
  have hset : s.setTap t = s := by rw [State.setTap, ← hs]
  simp [moveTo, hs, shiftTMS_nil, hset]

/-- RUNTEST moves to a stable state `u` and waits there. -/
def runsTestIn (st : Option TapState) (u : TapState) (s : State) : Prop :=
  u.stable = true ∧ ((st = some u ∧ (s.tap = none → u = .reset)) ∨ (st = none ∧ s.tap = some u))

section
variable {st : Option TapState} {u : TapState} {s : State} (h : runsTestIn st u s)
include h

theorem runsTestIn.reset_of_unknown (hs : s.tap = none) : u = .reset := by
  obtain ⟨-, ⟨-, hk⟩ | ⟨-, hu⟩⟩ := h
  · exact hk hs
  · rw [hs] at hu; cases hu

/-- Without a state RUNTEST is in the one it moves to, so the path of the move is empty. -/
theorem runsTestIn.path_eq : (if st = none then [] else movePath s.tap u) = movePath s.tap u := by
  obtain ⟨-, ⟨rfl, -⟩ | ⟨rfl, hu⟩⟩ := h
  · exact if_neg (Option.some_ne_none u)
  · rw [if_pos rfl, hu]; exact (rom_self u).symm

theorem runsTestIn.body_eq (n : Nat) :
    runtestBody st n s = (moveTo u s).bind fun _ s1 => dwell u n s1 := by
  obtain ⟨hst, ⟨rfl, -⟩ | ⟨rfl, hu⟩⟩ := h
  · exact runtestBody_some hst n s
  · rw [runtestBody_none hst n hu, moveTo_self hu, Res.bind_done]

/-- The cycles of the wait start where those of the move end and hold the state. -/
theorem runsTestIn.body_ok {n : Nat} {bs : List Bool}
    (ha : answers (tmsReqs s.params.tdiIdle (movePath s.tap u ++ holdTms s.params u n)) s = some bs) :
    runtestBody st n s = .done ()
      (((s.drove (tmsReqs s.params.tdiIdle (movePath s.tap u ++ holdTms s.params u n)) bs).setTap u).withEvents
        (dwellEvents s.params n)) := by
  rw [tmsReqs_append] at ha ⊢
  obtain ⟨b1, b2, rfl, h1, h2⟩ := answers_append.1 ha
  have hwait : answers (tmsReqs s.params.tdiIdle (holdTms s.params u n))
      ((s.drove (tmsReqs s.params.tdiIdle (movePath s.tap u)) b1).setTap u) = some b2 :=
    (answers_setTap _ _ u).trans h2
  rw [h.body_eq, moveTo_ok h.reset_of_unknown h1, Res.bind_done, dwell_eq, shiftTMS_ok hwait, Res.bind_done,
    ← State.drove_drove s (answers_length h1)]
  simp [State.drove, State.setTap, walk_holdTms h.1]

theorem runsTestIn.body_fail {n : Nat} {pre : List CycleReq} {bs : List Bool} {r : CycleReq}
    (hf : failsAt (tmsReqs s.params.tdiIdle (movePath s.tap u ++ holdTms s.params u n)) s pre bs r) :
    runtestBody st n s = .raised .cycleFail ((s.drove pre bs).failed r) := by
  rw [tmsReqs_append] at hf
  rw [h.body_eq]
  rcases failsAt_append hf with hmove | ⟨b1, pre2, b2, h1, rfl, rfl, h2⟩
  · rw [moveTo_fail h.reset_of_unknown hmove, Res.bind_raised]
  · have hwait : failsAt (tmsReqs s.params.tdiIdle (holdTms s.params u n))
        ((s.drove (tmsReqs s.params.tdiIdle (movePath s.tap u)) b1).setTap u) pre2 b2 r :=
      failsAt_setTap h2 u
    rw [moveTo_ok h.reset_of_unknown h1, Res.bind_done, dwell_eq, shiftTMS_fail hwait, Res.bind_raised,
      ← State.drove_drove s (answers_length h1)]
    rfl

end

/-- Settles O28: with its conditions met RUNTEST is a move and then a wait, and without a state the move is empty. -/
theorem runtestMovesAndWaits : Obligations.RuntestMovesAndWaits := by
  intro st n s u hu hst path waits
  have h : runsTestIn st u s := ⟨(mem_stable_iff u).1 hu, hst⟩
  have hpath : path = movePath s.tap u ++ holdTms s.params u n.toNat := congrArg (· ++ _) h.path_eq
  have hwaits : waits = dwellEvents s.params n.toNat := by
    have hn : n ≠ 0 ↔ n.toNat ≠ 0 := BitVec.toNat_ne
    simp only [waits, dwellEvents, hn]
  rw [hpath, hwaits, exec_runtest]
  refine ⟨fun bs ha => ?_, fun pre bs r hf => ?_⟩
  · rw [h.body_ok ha, Res.quiet, Res.bind_done, complete_done]
    rfl
  · rw [h.body_fail hf, complete_lostCycle]

/-! ### Directives that write one register -/

theorem exec_endir (st : TapState) (s : State) : exec (.endir st) s =
    complete (if st = .idle ∨ st = .irpause then .done none { s with endir := st } else .raised .badState s) := rfl

theorem exec_enddr (st : TapState) (s : State) : exec (.enddr st) s =
    complete (if st = .idle ∨ st = .drpause then .done none { s with enddr := st } else .raised .badState s) := rfl

theorem exec_frequency (hz : Word) (s : State) : exec (.frequency hz) s =
    complete (if hz = 0 then .raised .badValue s else .done none { s with freq := hz }) := rfl

/-- Settles O29: each directive tests its operand and nothing else. -/
theorem endStatesSetOrRefused : Obligations.EndStatesSetOrRefused := by
  refine fun st s => ⟨fun h => ?_, fun h1 h2 => ?_, fun h => ?_, fun h1 h2 => ?_⟩
  · rw [exec_endir, if_pos h, complete_done]
  · rw [exec_endir, if_neg (not_or.2 ⟨h1, h2⟩)]
    exact complete_format s .badState rfl
  · rw [exec_enddr, if_pos h, complete_done]
  · rw [exec_enddr, if_neg (not_or.2 ⟨h1, h2⟩)]
    exact complete_format s .badState rfl

/-- Settles O30: FREQUENCY tests its operand for 0, and STRICT tests nothing. -/
theorem frequencyAndStrictSet : Obligations.FrequencyAndStrictSet := by
  refine fun hz on s => ⟨fun h => ?_, fun h => ?_, complete_done _⟩
  · rw [exec_frequency, if_neg h, complete_done]
  · rw [exec_frequency, if_pos h]
    exact complete_format s .badValue rfl

/-- Settles O31: TRST has no error, and the two ways to write its condition on the event agree. -/
theorem trstDrivesLine : Obligations.TrstDrivesLine := by
  intro on s
  have hev : (if s.params.hasTrst && s.trst != on then s.trace ++ [.trst on] else s.trace) =
      s.trace ++ (if s.params.hasTrst = true ∧ s.trst ≠ on then [.trst on] else []) := by
    simp only [Bool.and_eq_true, bne_iff_ne]
    split
    · rfl
    · rw [List.append_nil]
  rw [← hev]
  exact complete_done _

end Sys2Proof.Machine
end

section
/-! The exceptions family: what a command records and how it aborts, which errors it can record, and that every
command and every step goes on. -/

namespace Sys2Proof.Machine

/-! ### What a command records -/

/-- `t` is `s` after a command that recorded `o`, as far as SEQ, ERRLOG and the abort policy tell
(60_exceptions.md R149, R153). -/
structure Recorded (s t : State) (o : Option ErrorCode) : Prop where
  seq : t.seq = s.seq + 1
  errlog : t.errlog = s.errlog ++ o.toList.map (ErrRec.mk s.seq)
  aborted : t.aborted = (s.aborted || o.any fun e => e.fatal || t.strict)

/-- The log tells which error a command recorded. -/
theorem Recorded.errlog_eq_iff {s t : State} {o : Option ErrorCode} (h : Recorded s t o) (e : ErrorCode) :
    t.errlog = s.errlog ++ [⟨s.seq, e⟩] ↔ o = some e := by
  rw [h.errlog]
  cases o <;> simp

theorem ErrorCode.fatal_iff (e : ErrorCode) : e.fatal = true ↔ e.kind = kindTransport ∨ e = .noStickyMask := by
  simp [ErrorCode.fatal]

theorem ErrorCode.fatal_of_kind_protocol {e : ErrorCode} (h : e.kind = kindProtocol) : e.fatal = false := by
  rw [← Bool.not_eq_true, fatal_iff, h]
  rintro (hkind | rfl)
  · cases hkind
  · cases h

/-- A command that did not start aborted is aborted by a fatal error, or under STRICT by any. -/
theorem Recorded.aborted_iff {s t : State} {o : Option ErrorCode} (h : Recorded s t o) (hrun : s.aborted = false) :
    t.aborted = true ↔ ∃ e, t.errlog = s.errlog ++ [⟨s.seq, e⟩] ∧
      (e.kind = kindTransport ∨ e = .noStickyMask ∨ t.strict = true) := by
  simp only [h.errlog_eq_iff, ← or_assoc, ← ErrorCode.fatal_iff]
  rw [h.aborted, hrun]
  cases o <;> simp

theorem Recorded.refusedWith (s : State) (e : ErrorCode) : Recorded s (s.refusedWith e) (some e) :=
  ⟨rfl, rfl, Bool.or_assoc ..⟩

/-- What command `i` from `s` may say of an error `e` it recorded on the way to `t`: its row of the error table lists
it (60_exceptions.md R159), a FORMAT error was the command's only effect (R150), and a RUNTEST without a state fails a
cycle only where it clocks its wait. -/
structure MayRecord (i : Instr) (s t : State) (e : ErrorCode) : Prop where
  listed : e ∈ errorsOf i
  format : e.kind = kindFormat → t = s.refusedWith e
  clocked : e = .cycleFail → ∀ n, i = .runtest none n → s.params.runtestClocks = true

/-- Each of the five ways a command ends records one error that it may record, or none. -/
theorem exec_recorded {i : Instr} {s t : State} (h : exec i s = .next t) :
    ∃ o, Recorded s t o ∧ ∀ e, o = some e → MayRecord i s t e := by
  rcases exec_cases h with ⟨u, hu, rfl⟩ | ⟨u, hu, hmem, rfl⟩ | ⟨e, hmem, hkind, rfl⟩ | ⟨u, r, -, hclk, hmem, rfl⟩ |
    ⟨u, e, hmem, hkind, rfl, hf, rfl⟩
  · refine ⟨none, ⟨rfl, ?_, ?_⟩, nofun⟩
    · simp [hu.running.errlog]
    · simp [hu.running.aborted]
  · refine ⟨some .tdoMismatch, ⟨rfl, rfl, rfl⟩, ?_⟩
    rintro _ ⟨⟩
    exact ⟨hmem, nofun, nofun⟩
  · refine ⟨some e, .refusedWith s e, ?_⟩
    rintro _ ⟨⟩
    exact ⟨hmem, fun _ => rfl, by rintro rfl; cases hkind⟩
  · refine ⟨some .cycleFail, ⟨rfl, rfl, (Bool.or_true _).symm⟩, ?_⟩
    rintro _ ⟨⟩
    exact ⟨hmem, nofun, fun _ => hclk⟩
  · have hstrict : u.strict = s.strict := by rw [hf.kept]; rfl
    refine ⟨some e, ⟨rfl, rfl, ?_⟩, ?_⟩
    · simp [ErrorCode.fatal_of_kind_protocol hkind, hstrict]
    · rintro _ ⟨⟩
      refine ⟨hmem, fun hfmt => ?_, fun _ _ => nofun⟩
      rw [hkind] at hfmt
      cases hfmt

/-- An error that the log shows a command recorded is one it may record. -/
theorem mayRecord_of_errlog {i : Instr} {s t : State} {e : ErrorCode} (h : exec i s = .next t)
    (hlog : t.errlog = s.errlog ++ [⟨s.seq, e⟩]) : MayRecord i s t e := by
  obtain ⟨o, hrec, hmay⟩ := exec_recorded h
  exact hmay e ((hrec.errlog_eq_iff e).1 hlog)

/-- Settles O15: a FORMAT error is the only effect of the command that recorded it. -/
theorem formatErrorHasNoOtherEffect : Obligations.FormatErrorHasNoOtherEffect :=
  fun _ _ _ _ h hlog hkind => (mayRecord_of_errlog h hlog).format hkind

/-- A step on a command while playback is not aborted records at most one error, whether the parse step refuses the
command or it runs. -/
theorem step_recorded {s t : State} {c : Command} {rest : List HostInput} (hin : s.inputs = .command c :: rest)
    (hrun : s.aborted = false) (h : step s = .next t) : ∃ o, Recorded { s with inputs := rest } t o := by
  rw [step_command hin hrun] at h
  cases hdec : decode c with
  | error e =>
    rw [runCommand_error hdec] at h
    cases h
    exact ⟨_, .refusedWith _ _⟩
  | ok i =>
    rw [runCommand, hdec] at h
    obtain ⟨o, hrec, -⟩ := exec_recorded h
    exact ⟨o, hrec⟩

/-- Settles O16: the policy is that of the one error, if any, that the step records. -/
theorem abortPolicy : Obligations.AbortPolicy := by
  intro s t c rest hin hrun h
  obtain ⟨o, hrec⟩ := step_recorded hin hrun h
  exact ⟨hrec.seq, hrec.aborted_iff hrun⟩

/-! ### The error table -/

/-- The parse step's refusals of an assigned opcode are of the header's reserved bits or of the payload. -/
theorem decode_error_of_assigned {c : Command} {e : DecodeError} (hop : opOf c.header ∈ assignedOps)
    (h : decode c = .error e) : e = .reservedField ∨ e = .badPayload := by
  obtain ⟨f, hf⟩ := assigned_format hop
  rw [decode_assigned hf] at h
  split at h
  · exact .inr (decodePayload_error hf h)
  · cases h
    exact .inl rfl

theorem decode_error_unknownCommand_iff {c : Command} {e : DecodeError} (h : decode c = .error e) :
    e = .unknownCommand ↔ opOf c.header ∉ assignedOps := by
  by_cases hop : opOf c.header ∈ assignedOps
  · rcases decode_error_of_assigned hop h with rfl | rfl <;> simp [hop]
  · rw [decode_unknown hop] at h
    cases h
    simp [hop]

/-- Settles O17: the log shows an error the command may record, and only an unassigned opcode is unknown. -/
theorem errorsPerCommand : Obligations.ErrorsPerCommand := by
  refine ⟨fun i s t e h hlog => ?_, fun c e h => decode_error_unknownCommand_iff h⟩
  have hmay := mayRecord_of_errlog h hlog
  refine ⟨hmay.listed, fun n hi hoff he => ?_⟩
  rw [hmay.clocked he n hi] at hoff
  cases hoff

/-! ### Aborted playback -/

/-- While playback is aborted a step consumes a command and does nothing else. -/
theorem step_command_aborted {s : State} {c : Command} {rest : List HostInput}
    (hin : s.inputs = .command c :: rest) (hab : s.aborted = true) : step s = .next { s with inputs := rest } := by
  simp [step, issue, hin, hab]

/-- Settles O7: of what a step can do, only the block reset starts aborted and ends otherwise. -/
theorem abortedBlockIgnoresCommands : Obligations.AbortedBlockIgnoresCommands := by
  refine ⟨fun s c rest hab hin => step_command_aborted hin hab, fun s t hab h => ?_⟩
  rcases step_cases h with ⟨-, rfl⟩ | ⟨rest, hin, -⟩ | ⟨c, rest, -, -, rfl⟩ | ⟨_, _, _, -, hrun, -⟩ |
    ⟨_, _, _, -, hrun, -⟩
  · exact .inl hab
  · exact .inr (by rw [hin]; rfl)
  · exact .inl hab
  · exact nomatch hab.symm.trans hrun
  · exact nomatch hab.symm.trans hrun

/-! ### No command stops -/

theorem step_of_no_input {s : State} (hin : s.inputs = []) : step s = .next s := by
  simp [step, issue, hin]

theorem step_blockReset {s : State} {rest : List HostInput} (hin : s.inputs = .blockReset :: rest) :
    step s = .next ({ s with inputs := rest }).blockReset := by
  simp [step, issue, hin]

/-- A command that is run, or refused by the parse step, ends in a next state. -/
theorem runCommand_next (c : Command) (s : State) : ∃ t, runCommand exec c s = .next t := by
  cases hdec : decode c with
  | error e => exact ⟨_, runCommand_error hdec⟩
  | ok i =>
    rw [runCommand, hdec]
    exact ⟨_, exec_eq_complete i s⟩

/-- Settles O10: each meaning is the end of its course, and each kind of input leaves the step a next state. -/
theorem noCommandStops : Obligations.NoCommandStops := by
  refine ⟨fun i s => ⟨_, exec_eq_complete i s⟩, fun s => ?_⟩
  match hin : s.inputs with
  | [] => exact ⟨_, step_of_no_input hin⟩
  | .blockReset :: rest => exact ⟨_, step_blockReset hin⟩
  | .command c :: rest =>
    cases hab : s.aborted with
    | true => exact ⟨_, step_command_aborted hin hab⟩
    | false =>
      rw [step_command hin hab]
      exact runCommand_next c _

end Sys2Proof.Machine
end

section
/-! The reset family: the block reset gives every field its reset value and releases nTRST. -/

namespace Sys2Proof.Machine

/-- 10_state.md R22: where the transport has the line, nTRST is NOT TRST. -/
theorem State.nTrst_of_hasTrst {s : State} (hline : s.params.hasTrst = true) : s.nTrst = some (!s.trst) :=
  if_pos hline

/-- The block reset leaves the parameters, so the line, and clears TRST, so it releases nTRST. -/
theorem State.nTrst_blockReset {s : State} (hline : s.params.hasTrst = true) : s.blockReset.nTrst = some true :=
  nTrst_of_hasTrst (s := s.blockReset) hline

/-- Settles O9: the step is the block reset of the state without that input, and each clause is a field of its result,
or nTRST. -/
theorem blockResetRestores : Obligations.BlockResetRestores := by
  intro s rest hin
  refine ⟨_, step_blockReset hin, ?_⟩
  have hpin := State.nTrst_blockReset (s := { s with inputs := rest })
  simpa using hpin

end Sys2Proof.Machine
end

section
/-! The rules over all commands and the invariant: what the bytes of a command submit, what a step runs, what every
command leaves at its end, and the good states. -/

namespace Sys2Proof.Machine

/-! ### Submitting bytes -/

/-- Settles O5: the stream yields the encoded command and no rest, and no proper part of it is a command. -/
theorem incompleteCommandNeverSubmitted : Obligations.IncompleteCommandNeverSubmitted := by
  intro s i hcarry
  have htake : takeCommand (encode i).toBytes = some (encode i, []) := by
    simpa using takeCommand_encode i hcarry []
  have hlen := toBytes_length_ge (encode i)
  exact ⟨s.submitBytes_one htake (by omega), fun n hn => s.submitBytes_none (takeCommand_take htake hn)⟩

/-! ### Running the pending command -/

theorem runCommand_ok {c : Command} {i : Instr} {s : State} (h : decode c = .ok i) :
    runCommand exec c s = exec i s := by
  rw [runCommand, h]

/-- A step on a command that decodes, while playback is not aborted. -/
theorem step_of_decode_ok {s : State} {c : Command} {rest : List HostInput} {i : Instr}
    (hin : s.inputs = .command c :: rest) (hrun : s.aborted = false) (hdec : decode c = .ok i) :
    step s = exec i { s with inputs := rest } := by
  rw [step_command hin hrun, runCommand_ok hdec]

/-- The instruction of a word of the opcode table is that of the command its bytes carry. -/
theorem tableCommand_of_decodeTableWord {nbits w : Nat} {i : Instr} (h : decodeTableWord nbits w = some i) :
    ∃ c, tableCommand nbits w = some c ∧ decode c = .ok i := by
  unfold decodeTableWord at h
  split at h
  next j rest hbytes =>
    obtain ⟨⟨c, rest'⟩, htake, hpair⟩ := Option.map_eq_some_iff.1 hbytes
    obtain ⟨hdec, -⟩ := Prod.mk.inj hpair
    cases h
    exact ⟨c, by rw [tableCommand, htake, Option.map_some], hdec⟩
  next => cases h

/-- Settles O6: each clause is the step on its kind of input, the word of the table being a pending command. -/
theorem stepRunsDecodedCommand : Obligations.StepRunsDecodedCommand := by
  refine ⟨fun s c rest i => step_of_decode_ok, fun s nbits w i hrun hword => ?_, fun s => step_of_no_input⟩
  obtain ⟨c, htable, hdec⟩ := tableCommand_of_decodeTableWord hword
  rw [State.withFetchWord, htable]
  exact step_of_decode_ok (s := s.withCommandFirst (some c)) rfl hrun hdec

/-! ### What every command leaves at its end -/

/-- From `s` to `t` the trace grew by well-formed events (10_state.md R35). -/
def AppendsGood (s t : State) : Prop := ∃ ev, t.trace = s.trace ++ ev ∧ ∀ e ∈ ev, e.good

theorem AppendsGood.of_completed {s t : State}
    (h : ∃ ev, t.trace = s.trace ++ ev ∧ ∀ e ∈ ev, e.isXfail = false ∧ e.good) : AppendsGood s t := by
  obtain ⟨ev, hev, hgood⟩ := h
  exact ⟨ev, hev, fun e he => (hgood e he).2⟩

theorem AppendsGood.failed {s t : State} (h : AppendsGood s t) (r : CycleReq) : AppendsGood s (t.failed r) := by
  obtain ⟨ev, hev, hgood⟩ := h
  refine ⟨ev ++ [.xfail r.tms r.tdi], by rw [State.failed_trace, hev, List.append_assoc], ?_⟩
  exact List.forall_mem_append.2 ⟨hgood, List.forall_mem_singleton.2 trivial⟩

theorem AppendsGood.trace_good {s t : State} (h : AppendsGood s t) (hs : ∀ e ∈ s.trace, e.good) :
    ∀ e ∈ t.trace, e.good := by
  obtain ⟨ev, hev, hgood⟩ := h
  rw [hev]
  exact List.forall_mem_append.2 ⟨hs, hgood⟩

/-- A failed cycle leaves the log, the count, the policy, the inputs and the parameters to the command's end. -/
theorem Running.failed {s t : State} (h : Running s t) (r : CycleReq) : Running s (t.failed r) :=
  ⟨h.seq, h.errlog, h.aborted, h.inputs, h.params⟩

/-- However a command ends, the end of its course sets at most the tracked state, the log, SEQ and ABORTED: every
other field is that of the course. -/
theorem exec_course {i : Instr} {s t : State} (h : exec i s = .next t) :
    ∃ u tap log n ab, Wrote i s u ∧ Running s u ∧ AppendsGood s u ∧
      t = { u with tap := tap, errlog := log, seq := n, aborted := ab } := by
  rcases exec_cases h with ⟨u, hu, rfl⟩ | ⟨u, hu, -, rfl⟩ | ⟨e, -, -, rfl⟩ | ⟨u, r, hf, -, -, rfl⟩ |
    ⟨u, e, -, -, rfl, hf, rfl⟩
  · exact ⟨u, _, _, _, _, hu.wrote, hu.running, .of_completed hu.events, rfl⟩
  · exact ⟨u, _, _, _, _, hu.wrote, hu.running, .of_completed hu.events, rfl⟩
  · exact ⟨s, _, _, _, _, .refl i s, .refl s, .of_completed (Follows.refl s).events, rfl⟩
  · have hev := hf.events
    rw [start_trace] at hev
    exact ⟨u.failed r, _, _, _, _, ((start_wrote i s).follows hf).failed r,
      ((start_running i s).trans hf.running).failed r, (AppendsGood.of_completed hev).failed r, rfl⟩
  · exact ⟨u, _, _, _, _, (start_wrote .chainscan s).follows hf, (start_running .chainscan s).trans hf.running,
      .of_completed hf.events, rfl⟩

/-- Settles O14: the record is the command's one error, and the rest is that of its course. -/
theorem commandAppendsTraceAndOneRecord : Obligations.CommandAppendsTraceAndOneRecord := by
  intro i s t h
  obtain ⟨o, hrec, -⟩ := exec_recorded h
  have hlog : t.errlog = s.errlog ∨ ∃ e, t.errlog = s.errlog ++ [⟨s.seq, e⟩] := by
    cases o with
    | none => exact .inl (by simp [hrec.errlog])
    | some e => exact .inr ⟨e, hrec.errlog⟩
  obtain ⟨u, _, _, _, _, -, hrun, ⟨ev, hev, -⟩, rfl⟩ := exec_course h
  exact ⟨hrec.seq, ⟨ev, hev⟩, hlog, hrun.inputs, hrun.params⟩

/-- Settles O20: the course of a command wrote only its own registers, and its end writes none of these. -/
theorem registersWrittenOnlyByTheirCommands : Obligations.RegistersWrittenOnlyByTheirCommands := by
  intro i s t h
  obtain ⟨u, _, _, _, _, hw, -, -, rfl⟩ := exec_course h
  exact ⟨hw.endir.imp_right fun hi => ⟨_, hi.1⟩, hw.enddr.imp_right fun hi => ⟨_, hi.1⟩,
    hw.freq.imp_right fun hi => ⟨_, hi⟩, hw.trst.imp_right fun hi => ⟨_, hi⟩,
    hw.strict.imp_right fun hi => ⟨_, hi⟩, hw.mask, hw.capbuf, hw.rdbuf⟩

/-! ### The tracked state -/

/-- UNKNOWN claims nothing of the chain. -/
theorem tracksChain_of_tap_none {s : State} (h : s.tap = none) : tracksChain s := fun t ht => by
  rw [h] at ht
  cases ht

/-- A command whose course completed leaves the tracked state of the course, and a failed cycle or a PROTOCOL error
loses it. -/
theorem exec_tracksChain {i : Instr} {s t : State} (hs : tracksChain s) (h : exec i s = .next t) :
    tracksChain t := by
  rcases exec_cases h with ⟨u, hu, rfl⟩ | ⟨u, hu, -, rfl⟩ | ⟨e, -, -, rfl⟩ | ⟨u, r, -, -, -, rfl⟩ |
    ⟨u, e, -, -, -, -, rfl⟩
  · exact hu.tracks hs
  · exact hu.tracks hs
  · exact hs
  · exact tracksChain_of_tap_none rfl
  · exact tracksChain_of_tap_none rfl

/-- Settles O13: waiting, ignoring and refusing change neither the tracked state nor the trace, the block reset makes
the tracked state UNKNOWN, and an executed command keeps it true. -/
theorem trackedStateFollowsChain : Obligations.TrackedStateFollowsChain := by
  intro s t hs h
  rcases step_cases h with ⟨-, rfl⟩ | ⟨rest, -, rfl⟩ | ⟨c, rest, -, -, rfl⟩ | ⟨c, rest, e, -, -, -, rfl⟩ |
    ⟨c, rest, i, -, -, -, hexec⟩
  · exact hs
  · exact tracksChain_of_tap_none rfl
  · exact hs
  · exact hs
  · exact exec_tracksChain (s := { s with inputs := rest }) hs hexec

/-! ### The parts of the invariant -/

/-- The chain-table fields of a good state (10_state.md R25, R26, R29). -/
structure TableGood (chainv : Bool) (ndev irtotal : Nat) (irmismatch : Bool) (dev : List DevRec) : Prop where
  absent : chainv = false → ndev = 0 ∧ irtotal = 0 ∧ irmismatch = false ∧ dev = []
  nonempty : chainv = true → 0 < ndev
  length : dev.length = ndev
  check : chainv = true → (irmismatch = true ↔ irlenSum dev ≠ irtotal)
  records : ∀ d ∈ dev, d.good

/-- ERRLOG, SEQ and ABORTED of a good state (60_exceptions.md R149, R153). -/
structure LogGood (log : List ErrRec) (seq : Nat) (aborted : Bool) : Prop where
  ordered : (log.map ErrRec.seq).Pairwise (· < ·)
  past : ∀ r ∈ log, r.seq < seq
  cause : aborted = true → log ≠ []
  fatal : aborted = false → ∀ r ∈ log, r.err.fatal = false

theorem Inv.table {s : State} (h : Inv s) : TableGood s.chainv s.ndev s.irtotal s.irmismatch s.dev :=
  ⟨h.chain_absent, h.chain_nonempty, h.chain_length, h.chain_check, h.dev_good⟩

theorem Inv.log {s : State} (h : Inv s) : LogGood s.errlog s.seq s.aborted :=
  ⟨h.errlog_ordered, h.errlog_past, h.aborted_cause, h.fatal_aborted⟩

theorem Inv.of_parts {s : State} (hendir : s.endir = .idle ∨ s.endir = .irpause)
    (henddr : s.enddr = .idle ∨ s.enddr = .drpause)
    (htable : TableGood s.chainv s.ndev s.irtotal s.irmismatch s.dev) (hlog : LogGood s.errlog s.seq s.aborted)
    (htrace : ∀ e ∈ s.trace, e.good) (htracked : tracksChain s) : Inv s :=
  ⟨hendir, henddr, htable.absent, htable.nonempty, htable.length, htable.check, htable.records, hlog.ordered,
    hlog.past, hlog.cause, hlog.fatal, htrace, htracked⟩

/-! ### Reset -/

theorem TableGood.empty : TableGood false 0 0 false [] := ⟨by simp, nofun, rfl, nofun, nofun⟩

theorem LogGood.empty : LogGood [] 0 false := ⟨.nil, nofun, nofun, nofun⟩

theorem Inv.blockReset (s : State) : Inv s.blockReset :=
  .of_parts (.inl rfl) (.inl rfl) .empty .empty nofun (tracksChain_of_tap_none rfl)

/-- Settles O11: the reset state is the block reset of itself. -/
theorem resetIsGood : Obligations.ResetIsGood := Inv.blockReset State.reset

/-! ### The parts under an executed command -/

/-- The table CHAINSCAN writes for a chain of at least one device. -/
theorem TableGood.commitChain (s : State) (c : BitBuffer) {n : Nat} (irt : Nat) (hn : 0 < n) :
    TableGood (s.commitChain c n irt).chainv (s.commitChain c n irt).ndev (s.commitChain c n irt).irtotal
      (s.commitChain c n irt).irmismatch (s.commitChain c n irt).dev :=
  ⟨nofun, fun _ => hn, buildDevices_length .., fun _ => bne_iff_ne,
    buildDevices_good s.params.deviceTable c n irt⟩

theorem TableGood.of_sameChain {s t : State} (h : sameChain s t)
    (g : TableGood s.chainv s.ndev s.irtotal s.irmismatch s.dev) :
    TableGood t.chainv t.ndev t.irtotal t.irmismatch t.dev := by
  obtain ⟨hv, hn, hirt, hmis, hdev⟩ := h
  rwa [hv, hn, hirt, hmis, hdev]

/-- CHAINSCAN writes a table or leaves none, and every other command leaves the table alone. -/
theorem exec_tableGood {i : Instr} {s t : State} (g : TableGood s.chainv s.ndev s.irtotal s.irmismatch s.dev)
    (h : exec i s = .next t) : TableGood t.chainv t.ndev t.irtotal t.irmismatch t.dev := by
  by_cases hi : i = .chainscan
  · subst hi
    rcases exec_chainscan_cases h with ⟨n, bs, c, irt, hn, -, rfl⟩ | ⟨-, hsame, -⟩
    · exact .commitChain _ c irt hn
    · exact .of_sameChain hsame .empty
  · exact .of_sameChain (chainTableImmutable i s t h hi) g

section
variable {log : List ErrRec} {seq : Nat}

theorem LogGood.succ (g : LogGood log seq false) : LogGood log (seq + 1) false :=
  ⟨g.ordered, fun r hr => (g.past r hr).trans (Nat.lt_succ_self seq), nofun, g.fatal⟩

/-- One more record, with the present SEQ: later than all before it, and no fatal one unless it aborts. -/
theorem LogGood.concat (g : LogGood log seq false) {e : ErrorCode} {aborted : Bool}
    (hfatal : aborted = false → e.fatal = false) : LogGood (log ++ [⟨seq, e⟩]) (seq + 1) aborted := by
  refine ⟨?_, ?_, fun _ => by simp, fun hab => ?_⟩
  · rw [List.map_append, List.pairwise_append]
    refine ⟨g.ordered, List.pairwise_singleton .., List.forall_mem_map.2 fun r hr => ?_⟩
    exact List.forall_mem_singleton.2 (g.past r hr)
  · exact List.forall_mem_append.2 ⟨g.succ.past, List.forall_mem_singleton.2 (Nat.lt_succ_self seq)⟩
  · exact List.forall_mem_append.2 ⟨g.fatal rfl, List.forall_mem_singleton.2 (hfatal hab)⟩

end

/-- A command that did not start aborted adds its one error to a good log, or none. -/
theorem LogGood.recorded {s t : State} {o : Option ErrorCode} (g : LogGood s.errlog s.seq s.aborted)
    (hrun : s.aborted = false) (h : Recorded s t o) : LogGood t.errlog t.seq t.aborted := by
  rw [hrun] at g
  rw [h.seq, h.errlog, h.aborted, hrun, Bool.false_or]
  cases o with
  | none =>
    rw [Option.toList_none, List.map_nil, List.append_nil]
    exact g.succ
  | some e => exact g.concat fun hab => (Bool.or_eq_false_iff.1 hab).1

/-! ### The invariant under a step -/

/-- No part of the invariant speaks of the pending inputs. -/
theorem Inv.withInputs {s : State} (h : Inv s) (rest : List HostInput) : Inv { s with inputs := rest } :=
  .of_parts h.endir_legal h.enddr_legal h.table h.log h.trace_good h.tracked

theorem Inv.refusedWith {s : State} (h : Inv s) (hrun : s.aborted = false) (e : ErrorCode) :
    Inv (s.refusedWith e) :=
  .of_parts h.endir_legal h.enddr_legal h.table (h.log.recorded hrun (.refusedWith s e)) h.trace_good h.tracked

/-- An executed command keeps each part of the invariant. -/
theorem Inv.of_exec {i : Instr} {s t : State} (hs : Inv s) (hrun : s.aborted = false) (h : exec i s = .next t) :
    Inv t := by
  obtain ⟨o, hrec, -⟩ := exec_recorded h
  have htable := exec_tableGood hs.table h
  have hlog := hs.log.recorded hrun hrec
  have htracked := exec_tracksChain hs.tracked h
  obtain ⟨u, _, _, _, _, hw, -, hev, rfl⟩ := exec_course h
  refine .of_parts ?_ ?_ htable hlog (hev.trace_good hs.trace_good) htracked
  · rcases hw.endir with heq | ⟨-, hlegal⟩
    · exact heq ▸ hs.endir_legal
    · exact hlegal
  · rcases hw.enddr with heq | ⟨-, hlegal⟩
    · exact heq ▸ hs.enddr_legal
    · exact hlegal

/-- Settles O12: each of the five things a step can do keeps a good state good. -/
theorem stepKeepsInvariant : Obligations.StepKeepsInvariant := by
  intro s t hs h
  rcases step_cases h with ⟨-, rfl⟩ | ⟨rest, -, rfl⟩ | ⟨c, rest, -, -, rfl⟩ | ⟨c, rest, e, -, hrun, -, rfl⟩ |
    ⟨c, rest, i, -, hrun, -, hexec⟩
  · exact hs
  · exact .blockReset _
  · exact hs.withInputs rest
  · exact (hs.withInputs rest).refusedWith hrun _
  · exact (hs.withInputs rest).of_exec hrun hexec

/-! ### The IR image of a consistent chain -/

/-- With one record a device, the bits before a device, its own, and those after it are all bits of the chain. -/
theorem irBefore_add_irlen_add_irAfter {s : State} {k : Nat} (hlen : s.dev.length = s.ndev) (hk : k < s.ndev) :
    s.irBefore k + s.irlen k + s.irAfter k = irlenSum s.dev := by
  have hk' : k < s.dev.length := hlen ▸ hk
  have htake : s.dev.take s.ndev = s.dev := List.take_of_length_le hlen.le
  have hirlen : s.irlen k = irlenSum [s.dev[k]] := by
    simp [State.irlen, State.devRec, hk, hk', irlenSum]
  have hsplit : s.dev.take k ++ [s.dev[k]] ++ s.dev.drop (k + 1) = s.dev := by
    rw [List.take_append_getElem, List.take_append_drop]
  rw [State.irBefore, State.irAfter, htake, hirlen, ← irlenSum_append, ← irlenSum_append, hsplit]

/-- A device's bits stand at IROFF in its IR image (10_state.md R27, 42_chain.md R118). -/
theorem irImage_bit (s : State) (k : Nat) (bits : BitBuffer) {j : Nat} (hj : j < bits.len) :
    (s.irImage k bits).bit (s.irOff k + j) = bits.bit j := by
  rw [State.irImage, State.irOff, BitBuffer.appendOnes, BitBuffer.append_bit, BitBuffer.ones_len, if_neg (by omega),
    Nat.add_sub_cancel_left, BitBuffer.append_bit, if_pos hj]

/-- Settles O51: the table's check says that the record lengths sum to IRTOTAL, and the image has their sum. -/
theorem irImageHasChainLength : Obligations.IrImageHasChainLength := by
  intro k bits s hs hv hmis hk hbits
  have hsum : irlenSum s.dev = s.irtotal := by
    by_contra hne
    exact Bool.false_ne_true (hmis.symm.trans ((hs.chain_check hv).2 hne))
  refine ⟨?_, fun j => irImage_bit s k bits⟩
  rw [irImage_len, hbits, irBefore_add_irlen_add_irAfter hs.chain_length hk, hsum]

end Sys2Proof.Machine
end
